-- ==== Sys2Proof/Word.lean ====
section
/-! DEFINITION. The plain data the TAP engine is made of: bits, bit sequences, bytes of a record, the 16 TAP states,
scan targets and directions, capabilities, and the description of a transport backend handed to `attach`. -/

namespace Sys2Proof

/-- A bit of 00_scope.md R11 (`true` is 1, the high level of a signal). -/
abbrev Bit := Bool

/-- A bit sequence of R11: index 0 is the first element and goes first on the wire (R52). -/
abbrev BitSeq := List Bool

/-- One byte of a command record (R86: the operation code has 8 bits). -/
abbrev Byte := BitVec 8

/-- The name under which a caller waits for the lock and receives its result (R25 `CallerId`). -/
abbrev CallerId := Nat

/-- R80: the 16 states of the TAP, in the order of the code table. -/
inductive TapState where
  | reset | idle
  | selectDR | captureDR | shiftDR | exit1DR | pauseDR | exit2DR | updateDR
  | selectIR | captureIR | shiftIR | exit1IR | pauseIR | exit2IR | updateIR
  deriving DecidableEq, Repr, Inhabited

/-- R83: the path a scan goes through. -/
inductive ScanTarget where
  | instruction | data
  deriving DecidableEq, Repr, Inhabited

/-- R83: the 2-bit direction code; `reserved` is code 3, which R91 rejects when the command runs. -/
inductive Direction where
  | write | read | readWrite | reserved
  deriving DecidableEq, Repr, Inhabited

/-- R89: the capabilities of a backend. -/
inductive Capability where
  | transfer | freq | state | rawEdge | enable
  deriving DecidableEq, Repr, Inhabited

/-- The three backend variants of 42_transport.md, each with its own `MAX_TRANSFER_BITS` of R8.
R185: bitbang has no limit, so its constructor has no place for one. -/
inductive Variant where
  | accelerated (maxTransfer : Option Nat)
  | bitbang
  | bulk (maxTransfer : Option Nat)
  deriving DecidableEq, Repr, Inhabited

/-- "one backend instance with its capability set" (R270) as `attach` receives it, with the parameters of R8 that
belong to an instance: the variant and its transfer limit, the capability mask of R89 (wider than the five defined
bits, so that a reserved bit can be set and rejected, R91), `MAX_SCAN_BITS`, and the rate it runs at when it is
attached (what `freqGet()` answers, R22). -/
structure BackendSpec where
  variant : Variant
  caps : BitVec 8
  maxScan : Option Nat
  rate : Nat
  deriving DecidableEq, Repr, Inhabited

end Sys2Proof
end

