-- ==== Sys2Proof/Config.lean ====
section
/-! DEFINITION. The implementation parameters of 00_scope.md R8 and the free values the spec leaves to the
environment. A parameter with a value in the spec is a definition; an `OPEN` one, and every draw, is an opaque
constant with no body, so that nothing can be proved about which value it has. -/

namespace Sys2Proof.Config

/-- R8 `NUM_TAP_STATES`. -/
def numTapStates : Nat := 16

/-- R8 `HARD_RESET_EDGES`. -/
def hardResetEdges : Nat := 5

/-- R8 `IDCODE_BITS`. -/
def idcodeBits : Nat := 32

/-- R8 `OFFLOAD_TIMEOUT_MS`, default 1000 (D26). No rule depends on a duration (R351). -/
def offloadTimeoutMs : Nat := 1000

/-- R8 `BULK_TIMEOUT_MS`, open (D33). No rule depends on a duration (R351). -/
opaque bulkTimeoutMs : Nat

/-- R8 `COMMAND_TIMEOUT_MS`, open (D40). No rule depends on a duration (R351). -/
opaque commandTimeoutMs : Nat

/-- The open value behind `hwWordBits`. -/
opaque hwWordBitsLessOne : Nat

/-- R8 `HW_WORD_BITS`, open, at least 1 (D39). -/
def hwWordBits : Nat := hwWordBitsLessOne + 1

/-- The open value behind `initialFrequencyHz`. -/
opaque initialFrequencyLessOne : Nat

/-- R8 `INITIAL_FREQUENCY_HZ`, open, at least 1 (D15). -/
def initialFrequencyHz : Nat := initialFrequencyLessOne + 1

/-- The open function behind `achievable`. -/
opaque achievableLessOne : BackendSpec → Nat → Nat

/-- R8 `ACHIEVABLE(backend, hz)`, open, total, at least 1 (D49). -/
def achievable (backend : BackendSpec) (hz : Nat) : Nat := achievableLessOne backend hz + 1

/-- R8 `IDCODE_OPCODE(i)` of a device for which the state lists no opcode, read as a number least significant bit
first; open (D21). -/
opaque idcodeOpcode : Nat → Nat

/-- R157, D30: the bit on data-out where nothing the model knows drives it, one for each draw. -/
opaque freeBit : Nat → Bool

/-- R198: what the bulk channel holds as a response after a `BusFault`, which may be a short or malformed one, one for
each draw (log entry 17). -/
opaque freeResponse : Nat → Option BitSeq

/-- R150 `idc(j)`: the identifier of device `j` of the reference chain that the reset state is connected to, a
parameter of the fixture (log entry 1). -/
opaque refIdentifier : Nat → Option (BitVec 32)

/-- R37, D14: an unspecified TAP state, one for each draw. -/
opaque freeTap : Nat → TapState

/-- R192: how the accelerated variant derives its direction programming from a transfer is internal to it. -/
opaque offloadDirection : BitSeq → BitSeq → Direction

/-- R90 `BULK_FORMAT`: the opcode field of a request packet, open (D33). -/
opaque bulkOpcode : Nat

/-- R90: the target field of a packet that carries a bare `transfer`, open (D33). -/
opaque bulkTarget : BitSeq → BitSeq → ScanTarget

/-- R90: the direction field of a packet that carries a bare `transfer`, open (D33). -/
opaque bulkDirection : BitSeq → BitSeq → Direction

/-- R90: how the payload carries the mode bits and the data-in bits, open (D33). -/
opaque bulkPayload : BitSeq → BitSeq → BitSeq

end Sys2Proof.Config
end

