-- ==== Sys2Proof/Machine/Bits.lean ====
section
/-! DEFINITION. Bit sequences: R11 (`ones`, `zeros`, slices), R12 (numbers, least significant bit first), a sequence of
draws, and the parameters that are bits: `IDCODE_OPCODE` (R8) and the admitted capability masks (R91). -/

namespace Sys2Proof.Machine

/-- R11 `ones(n)`. -/
def ones (n : Nat) : BitSeq := List.replicate n true

/-- R11 `zeros(n)`. -/
def zeros (n : Nat) : BitSeq := List.replicate n false

/-- R11 `b[i:j]`, the elements of indices `i ≤ k < j`. -/
def slice {α : Type} (i j : Nat) (b : List α) : List α := (b.drop i).take (j - i)

/-- R12 `toNat(b)`. -/
def bitsToNat : BitSeq → Nat
  | [] => 0
  | b :: r => b.toNat + 2 * bitsToNat r

/-- R12 `fromNat(v, n)`. -/
def natToBits (v : Nat) : Nat → BitSeq
  | 0 => []
  | n + 1 => (v % 2 == 1) :: natToBits (v / 2) n

/-- A sequence cut or filled with zeros to length `n`: the type "bits of length `irLength(i)`" of R8. -/
def fitBits (n : Nat) (b : BitSeq) : BitSeq := (b ++ zeros n).take n

/-- R14 `draw`, `n` bits: the free values from number `first` on. -/
def freeBits (n first : Nat) : BitSeq := (List.range n).map fun k => Config.freeBit (first + k)

/-- R8, R146 `IDCODE_OPCODE(i)`, `len` bits. -/
def idcodeOpcodeOf (opcodes : List BitSeq) (i len : Nat) : BitSeq :=
  match opcodes[i]? with
  | some b => fitBits len b
  | none => natToBits (Config.idcodeOpcode i) len

/-- R91, R270: the mask has bit 0 set and no reserved bit. -/
def maskAdmitted (caps : BitVec 8) : Bool := caps.getLsbD 0 && caps.toNat < 32

end Sys2Proof.Machine
end

