-- ==== Sys2Proof/Machine/Reference.lean ====
section
/-! DEFINITION. The reference target chain as data, and its start state: 41_chain_model.md R150, R154, R158. -/

namespace Sys2Proof.Machine

/-- R150: one device of the reference target chain. `irLength`, `idc` and `op` are its parameters, and `op` is
`IDCODE_OPCODE` of its position. -/
structure RefDevice where
  irLength : Nat
  idc : Option (BitVec 32)
  op : BitSeq
  irShift : BitSeq
  irLatch : BitSeq
  drShift : BitSeq
  deriving DecidableEq, Repr

/-- R35: the target chain. `tap` is the TAP state all its devices share (R151). `devices` is the reference chain,
position 0 first, or `none` for a target that is left unconstrained (R355, I27). -/
structure Target where
  tap : TapState
  devices : Option (List RefDevice)
  deriving DecidableEq, Repr

/-- The devices of a reference chain to be connected: of each its `irLength` and its `idc` (R150). -/
abbrev Fixture := List (Nat × Option (BitVec 32))

/-- R154: a device selects its identification register. -/
def selectsIdcode (d : RefDevice) : Bool := d.idc.isSome && d.irLatch == d.op

/-- R154, R150: the length of the data register that a device selects. -/
def selectedLength (d : RefDevice) : Nat := if selectsIdcode d then 32 else 1

/-- R158: the start state of device `j`. Its instruction registers are draws, and so is its data shift stage, which
has the length of the register that the drawn instruction selects. The draws are numbered from `first`. -/
def deviceStart (opcodes : List BitSeq) (j first len : Nat) (idc : Option (BitVec 32)) : RefDevice :=
  let d : RefDevice :=
    { irLength := len
      idc := idc
      op := idcodeOpcodeOf opcodes j len
      irShift := freeBits len first
      irLatch := freeBits len (first + len)
      drShift := [] }
  { d with drShift := freeBits (selectedLength d) (first + 2 * len) }

/-- How many draws are set aside for the start state of a fixture. -/
def referenceDraws : Fixture → Nat
  | [] => 0
  | (len, _) :: r => 2 * len + 32 + referenceDraws r

/-- R158: the start state of the devices of a fixture, from position `j` on. -/
def referenceStart (opcodes : List BitSeq) (j first : Nat) : Fixture → List RefDevice
  | [] => []
  | (len, idc) :: r => deviceStart opcodes j first len idc :: referenceStart opcodes (j + 1) (first + (2 * len + 32)) r

end Sys2Proof.Machine
end

