-- ==== Sys2Proof/Machine/State.lean ====
section
/-! DEFINITION. The state of the machine as plain data: the controller and its chain (10_state.md R20 to R29), the
physical interface with the backend (R30 to R33) and the target chain (R35, R150), the callers and their commands
(R25, R318), and the environment's choices that the spec leaves to draws (R14 `draw`). -/

namespace Sys2Proof.Machine

/-- R300: the four error kinds. -/
inductive ErrKind where
  | invalidArgument | unsupportedOperation | timeoutError | busFault
  deriving DecidableEq, Repr, Inhabited

/-- What a caller receives (the result column of R87, and R88): a value or exactly one error. -/
inductive Result where
  /-- `Ack`. -/
  | ack
  /-- A frequency in hertz. -/
  | hz (n : Nat)
  /-- A TAP state. -/
  | tap (s : TapState)
  /-- `getState`'s `Unknown`. -/
  | unknown
  /-- A bit sequence. -/
  | bits (b : BitSeq)
  /-- One bit. -/
  | bit (b : Bool)
  /-- `dataPadding`'s pair. -/
  | padding (before after : Nat)
  /-- A controller was constructed (`attach`). -/
  | controller
  /-- The host gets back nothing (`detach`, R318). -/
  | nothing
  /-- Exactly one error, its kind and nothing else (R305). -/
  | error (k : ErrKind)
  deriving DecidableEq, Repr

/-- R311: "None is a fault of the model". No step of this machine faults, so the type has no constructor. -/
inductive Fault where
  deriving DecidableEq, Repr

/-- The configurations the model has no meaning for. Each refusal stops the run; all are safe. -/
inductive Refusal where
  /-- Raised by an arm of `exec` whose instruction has no meaning. Safe. No arm raises it any more. -/
  | notModelled (mnemonic : String)
  /-- Raised by `attach` for a capability mask with bit 0 clear or a reserved bit set (R91, R270, R311). Safe. -/
  | capabilityMask
  /-- Raised by `detach` while a command holds the lock (R271, R311, D48). Safe. -/
  | detachWhileBusy
  /-- Raised by an edge-driving backend call of a backend that does not keep its contract (R181, R184, R200): R311 says
  that the model refuses it. Only the environment can choose it. Safe. -/
  | backendContract
  deriving DecidableEq, Repr

/-- R28: one device of the chain as the engine knows it. -/
structure ChainDevice where
  positionIndex : Nat
  irLength : Nat
  bypassBeforeBits : Nat
  bypassAfterBits : Nat
  idcode : Option (BitVec 32)
  deriving DecidableEq, Repr

/-- R25: the lock's phase. -/
inductive Phase where
  | idle | busy
  deriving DecidableEq, Repr

/-- R25: the controller's exclusive lock. `waiters` is a set: no repeats, kept in the order of arrival (log entry 35). -/
structure Lock where
  phase : Phase
  owner : Option CallerId
  waiters : List CallerId
  deriving DecidableEq, Repr

/-- R20 to R27: the controller. -/
structure Controller where
  currentState : TapState
  stateKnown : Bool
  frequencyHz : Nat
  chain : List ChainDevice
  lock : Lock
  chainFrozen : Bool
  attached : Bool
  deriving DecidableEq, Repr

/-- One edge as driven: the mode bit and the data-in bit (R16 "edge"). -/
structure Edge where
  tms : Bool
  tdi : Bool
  deriving DecidableEq, Repr

/-- R33, R192: the hardware registers of the accelerated variant, by their role only. `outstanding` is R34's pending
transfer, `completion` the completion signal. -/
structure OffloadRegs where
  length : Nat
  direction : Direction
  endState : TapState
  inputWords : List Nat
  outstanding : Bool
  completion : Bool
  outputWords : List Nat
  deriving DecidableEq, Repr

/-- R32: the levels of the bitbang variant's three output lines. -/
structure Lines where
  modeSelect : Bool
  clock : Bool
  dataIn : Bool
  deriving DecidableEq, Repr

/-- R90: the five fields of the bulk adapter's request packet, in order. -/
structure Packet where
  opcode : Nat
  target : ScanTarget
  direction : Direction
  bitLength : Nat
  payload : BitSeq
  deriving DecidableEq, Repr

/-- R33, R197: the bulk adapter's packetized channel: the request sent and the data-out bits of the response. -/
structure Channel where
  request : Option Packet
  response : Option BitSeq
  deriving DecidableEq, Repr

/-- R24, R30 to R33: the backend instance the controller is bound to. `spec` is fixed for the life of the instance
(R30); `rate` is the rate it runs at (R199); `book` is its own bookkeeping of the TAP state (R200). The last four
fields belong to one variant each and are not used by the others. -/
structure Backend where
  spec : BackendSpec
  enabled : Bool
  rate : Nat
  book : TapState
  halfPeriodNs : Nat
  lines : Lines
  regs : OffloadRegs
  channel : Channel
  deriving DecidableEq, Repr

/-- The environment's choice for one backend call (R185, D29): it completes, the backend refuses the rate (`freqSet`,
R199), its bounded wait ends, or it fails, with how many of its edges had been delivered (R186); or the backend does
not keep its contract (R311, I24). -/
inductive BackendDraw where
  | completes
  | refuses
  | timesOut (delivered : Nat)
  | fails (delivered : Nat)
  | breaksContract
  deriving DecidableEq, Repr

/-- The physical interface: everything a backend primitive can read or write. `outcomes` are the environment's
choices for the next backend calls, in order (a call after the last listed one completes); `drawn` counts the free
values drawn; `wire` is the record of the edges delivered (R354), one entry per backend call that drives edges;
`opcodes` lists the parameter `IDCODE_OPCODE(i)` for the positions where it is given (R8). -/
structure Interface where
  backend : Backend
  target : Target
  outcomes : List BackendDraw
  drawn : Nat
  wire : List (List Edge)
  opcodes : List BitSeq
  deriving DecidableEq, Repr

/-- What the body of a command works on. -/
structure Engine where
  ctrl : Controller
  io : Interface
  deriving DecidableEq, Repr

/-- The environment's choice for a caller's move at the lock (R260, D29, D31): it obtains the lock and its command
runs to the end; it obtains the lock and holds it; it goes on waiting; its bounded wait ends. -/
inductive LockDraw where
  | run | hold | wait | expire
  deriving DecidableEq, Repr

/-- What happens next, as the environment chooses it: a caller moves, or a completion signal arrives after its
transfer has timed out (R310). -/
inductive Turn where
  | move (caller : CallerId) (draw : LockDraw)
  | lateCompletion
  deriving DecidableEq, Repr

/-- R318: a command as a caller issues it, the bytes of its record (R86). -/
structure Request where
  caller : CallerId
  record : List Byte
  deriving DecidableEq, Repr

/-- The machine. Beside the engine: the parameter `LOCK_TIMEOUT_CLEARS_STATE` (R8), the commands issued and not yet
completed, the environment's turns (after the last listed one, the lock's owner moves, else the oldest command),
the caller that moves in this step with its choice at the lock, and the results delivered (R354). -/
structure State extends Engine where
  lockTimeoutClears : Bool
  inbox : List Request
  turns : List Turn
  caller : CallerId
  draw : LockDraw
  results : List (CallerId × Result)
  deriving DecidableEq, Repr

/-- The backend the model's reset state is constructed with: bitbang with the default capabilities of R204, whose
`freqGet()` answers R262's example. DESIGN CHOICE (log entry 1): the spec takes it from outside. -/
def State.resetBackend : BackendSpec :=
  { variant := .bitbang, caps := 0x0B#8, maxScan := none, rate := 1000000 }

/-- The machine right after construction (R37, R340, R341), with no command issued: `attach([4], bitbang)`, its
interface connected to a reference chain of one device of that length. DESIGN CHOICE (log entry 1): the spec takes
layout, backend and target chain from outside. What R37 and R158 leave unspecified is drawn. -/
def State.reset : State :=
  { ctrl :=
      { currentState := Config.freeTap 0
        stateKnown := false
        frequencyHz := 1000000
        chain :=
          [{ positionIndex := 0, irLength := 4, bypassBeforeBits := 0, bypassAfterBits := 0, idcode := none }]
        lock := { phase := .idle, owner := none, waiters := [] }
        chainFrozen := false
        attached := true }
    io :=
      { backend :=
          { spec := State.resetBackend
            enabled := false
            rate := 1000000
            book := Config.freeTap 1
            halfPeriodNs := 500
            lines := { modeSelect := false, clock := false, dataIn := false }
            regs :=
              { length := 0, direction := .write, endState := .reset, inputWords := [], outstanding := false
                completion := false, outputWords := [] }
            channel := { request := none, response := none } }
        target :=
          { tap := Config.freeTap 2, devices := some (referenceStart [] 0 3 [(4, Config.refIdentifier 0)]) }
        outcomes := []
        drawn := 3 + referenceDraws [(4, Config.refIdentifier 0)]
        wire := []
        opcodes := [] }
    lockTimeoutClears := false
    inbox := []
    turns := []
    caller := 0
    draw := .run
    results := [] }

end Sys2Proof.Machine
end

