-- ==== Sys2Proof/Machine/Tap.lean ====
section
/-! DEFINITION. The TAP State Machine of 40_tap_fsm.md: pure functions on the 16 states (R118). -/

namespace Sys2Proof.Machine

/-- R110 `next(s, b)`, the table `T`. -/
def tapNext : TapState → Bool → TapState
  | .reset, b => bif b then .reset else .idle
  | .idle, b => bif b then .selectDR else .idle
  | .selectDR, b => bif b then .selectIR else .captureDR
  | .captureDR, b => bif b then .exit1DR else .shiftDR
  | .shiftDR, b => bif b then .exit1DR else .shiftDR
  | .exit1DR, b => bif b then .updateDR else .pauseDR
  | .pauseDR, b => bif b then .exit2DR else .pauseDR
  | .exit2DR, b => bif b then .updateDR else .shiftDR
  | .updateDR, b => bif b then .selectDR else .idle
  | .selectIR, b => bif b then .reset else .captureIR
  | .captureIR, b => bif b then .exit1IR else .shiftIR
  | .shiftIR, b => bif b then .exit1IR else .shiftIR
  | .exit1IR, b => bif b then .updateIR else .pauseIR
  | .pauseIR, b => bif b then .exit2IR else .pauseIR
  | .exit2IR, b => bif b then .updateIR else .shiftIR
  | .updateIR, b => bif b then .selectDR else .idle

/-- R117 `run(s, bits)`. -/
def tapRun : TapState → BitSeq → TapState
  | s, [] => s
  | s, b :: r => tapRun (tapNext s b) r

/-- R114: the row of canonical paths that start in a state, one path per state in the order of R80's codes.
Bit 1 is `I`, bit 0 is `O`. -/
def pathRow (source : TapState) : List BitSeq :=
  let I := true
  let O := false
  match source with
  | .reset =>
    [[], [O], [O,I], [O,I,O], [O,I,O,O], [O,I,O,I],
     [O,I,O,I,O], [O,I,O,I,O,I], [O,I,O,I,I], [O,I,I], [O,I,I,O],
     [O,I,I,O,O], [O,I,I,O,I], [O,I,I,O,I,O], [O,I,I,O,I,O,I], [O,I,I,O,I,I]]
  | .idle =>
    [[I,I,I], [], [I], [I,O], [I,O,O], [I,O,I],
     [I,O,I,O], [I,O,I,O,I], [I,O,I,I], [I,I], [I,I,O],
     [I,I,O,O], [I,I,O,I], [I,I,O,I,O], [I,I,O,I,O,I], [I,I,O,I,I]]
  | .selectDR =>
    [[I,I], [I,I,O], [], [O], [O,O], [O,I],
     [O,I,O], [O,I,O,I], [O,I,I], [I], [I,O],
     [I,O,O], [I,O,I], [I,O,I,O], [I,O,I,O,I], [I,O,I,I]]
  | .captureDR =>
    [[I,I,I,I,I], [I,I,O], [I,I,I], [], [O], [I],
     [I,O], [I,O,I], [I,I], [I,I,I,I], [I,I,I,I,O],
     [I,I,I,I,O,O], [I,I,I,I,O,I], [I,I,I,I,O,I,O], [I,I,I,I,O,I,O,I], [I,I,I,I,O,I,I]]
  | .shiftDR =>
    [[I,I,I,I,I], [I,I,O], [I,I,I], [I,I,I,O], [], [I],
     [I,O], [I,O,I], [I,I], [I,I,I,I], [I,I,I,I,O],
     [I,I,I,I,O,O], [I,I,I,I,O,I], [I,I,I,I,O,I,O], [I,I,I,I,O,I,O,I], [I,I,I,I,O,I,I]]
  | .exit1DR =>
    [[I,I,I,I], [I,O], [I,I], [I,I,O], [O,I,O], [],
     [O], [O,I], [I], [I,I,I], [I,I,I,O],
     [I,I,I,O,O], [I,I,I,O,I], [I,I,I,O,I,O], [I,I,I,O,I,O,I], [I,I,I,O,I,I]]
  | .pauseDR =>
    [[I,I,I,I,I], [I,I,O], [I,I,I], [I,I,I,O], [I,O], [I,O,I],
     [], [I], [I,I], [I,I,I,I], [I,I,I,I,O],
     [I,I,I,I,O,O], [I,I,I,I,O,I], [I,I,I,I,O,I,O], [I,I,I,I,O,I,O,I], [I,I,I,I,O,I,I]]
  | .exit2DR =>
    [[I,I,I,I], [I,O], [I,I], [I,I,O], [O], [O,I],
     [O,I,O], [], [I], [I,I,I], [I,I,I,O],
     [I,I,I,O,O], [I,I,I,O,I], [I,I,I,O,I,O], [I,I,I,O,I,O,I], [I,I,I,O,I,I]]
  | .updateDR =>
    [[I,I,I], [O], [I], [I,O], [I,O,O], [I,O,I],
     [I,O,I,O], [I,O,I,O,I], [], [I,I], [I,I,O],
     [I,I,O,O], [I,I,O,I], [I,I,O,I,O], [I,I,O,I,O,I], [I,I,O,I,I]]
  | .selectIR =>
    [[I], [I,O], [I,O,I], [I,O,I,O], [I,O,I,O,O], [I,O,I,O,I],
     [I,O,I,O,I,O], [I,O,I,O,I,O,I], [I,O,I,O,I,I], [], [O],
     [O,O], [O,I], [O,I,O], [O,I,O,I], [O,I,I]]
  | .captureIR =>
    [[I,I,I,I,I], [I,I,O], [I,I,I], [I,I,I,O], [I,I,I,O,O], [I,I,I,O,I],
     [I,I,I,O,I,O], [I,I,I,O,I,O,I], [I,I,I,O,I,I], [I,I,I,I], [],
     [O], [I], [I,O], [I,O,I], [I,I]]
  | .shiftIR =>
    [[I,I,I,I,I], [I,I,O], [I,I,I], [I,I,I,O], [I,I,I,O,O], [I,I,I,O,I],
     [I,I,I,O,I,O], [I,I,I,O,I,O,I], [I,I,I,O,I,I], [I,I,I,I], [I,I,I,I,O],
     [], [I], [I,O], [I,O,I], [I,I]]
  | .exit1IR =>
    [[I,I,I,I], [I,O], [I,I], [I,I,O], [I,I,O,O], [I,I,O,I],
     [I,I,O,I,O], [I,I,O,I,O,I], [I,I,O,I,I], [I,I,I], [I,I,I,O],
     [O,I,O], [], [O], [O,I], [I]]
  | .pauseIR =>
    [[I,I,I,I,I], [I,I,O], [I,I,I], [I,I,I,O], [I,I,I,O,O], [I,I,I,O,I],
     [I,I,I,O,I,O], [I,I,I,O,I,O,I], [I,I,I,O,I,I], [I,I,I,I], [I,I,I,I,O],
     [I,O], [I,O,I], [], [I], [I,I]]
  | .exit2IR =>
    [[I,I,I,I], [I,O], [I,I], [I,I,O], [I,I,O,O], [I,I,O,I],
     [I,I,O,I,O], [I,I,O,I,O,I], [I,I,O,I,I], [I,I,I], [I,I,I,O],
     [O], [O,I], [O,I,O], [], [I]]
  | .updateIR =>
    [[I,I,I], [O], [I], [I,O], [I,O,O], [I,O,I],
     [I,O,I,O], [I,O,I,O,I], [I,O,I,I], [I,I], [I,I,O],
     [I,I,O,O], [I,I,O,I], [I,I,O,I,O], [I,I,O,I,O,I], []]

/-- R80: the code of a state. -/
def tapCode : TapState → Nat
  | .reset => 0 | .idle => 1
  | .selectDR => 2 | .captureDR => 3 | .shiftDR => 4 | .exit1DR => 5 | .pauseDR => 6 | .exit2DR => 7 | .updateDR => 8
  | .selectIR => 9 | .captureIR => 10 | .shiftIR => 11 | .exit1IR => 12 | .pauseIR => 13 | .exit2IR => 14
  | .updateIR => 15

/-- R80: the state of a 4-bit code (every 4-bit code is a state). -/
def tapOfCode : Nat → TapState
  | 0 => .reset | 1 => .idle
  | 2 => .selectDR | 3 => .captureDR | 4 => .shiftDR | 5 => .exit1DR | 6 => .pauseDR | 7 => .exit2DR | 8 => .updateDR
  | 9 => .selectIR | 10 => .captureIR | 11 => .shiftIR | 12 => .exit1IR | 13 => .pauseIR | 14 => .exit2IR
  | _ => .updateIR

/-- R113 `path(from, to)`: the shortest sequence of mode bits from one state to another, read from R114's table. -/
def tapPath (source target : TapState) : BitSeq := (pathRow source).getD (tapCode target) []

end Sys2Proof.Machine
end

