-- ==== Sys2Proof/Machine/Operands.lean ====
section
/-! DEFINITION. Operand forms: the helper maps of 30_encoding.md R81 and R83, the assembled operands of R92 (payload,
identifier), the padding of the chain (R140), the partition of a scan into transfers (R227) and the word packing of
the accelerated variant (R195). -/

namespace Sys2Proof.Machine

/-- R81 `shiftOf`. -/
def shiftOf : ScanTarget → TapState
  | .data => .shiftDR
  | .instruction => .shiftIR

/-- R81 `exit1Of`. -/
def exit1Of : ScanTarget → TapState
  | .data => .exit1DR
  | .instruction => .exit1IR

/-- R81 `pauseOf`. -/
def pauseOf : ScanTarget → TapState
  | .data => .pauseDR
  | .instruction => .pauseIR

/-- R81 `STABLE`, the legal targets of `setState` (D6). -/
def stable : TapState → Bool
  | .reset | .idle | .shiftDR | .pauseDR | .shiftIR | .pauseIR => true
  | _ => false

/-- R81 `e ∈ LEGAL_END(P)` (D5). -/
def legalEnd (p : ScanTarget) (e : TapState) : Bool := e == .reset || e == .idle || e == pauseOf p

/-- R83: the direction includes read. -/
def includesRead (d : Direction) : Bool := d == .read || d == .readWrite

/-- R83: the direction includes write. -/
def includesWrite (d : Direction) : Bool := d == .write || d == .readWrite

/-- R89: the bit of the mask that stands for a capability. -/
def capIndex : Capability → Nat
  | .transfer => 0
  | .freq => 1
  | .state => 2
  | .rawEdge => 3
  | .enable => 4

/-- R30, R89: `cap ∈ caps(B)`. -/
def hasCap (b : BackendSpec) (c : Capability) : Bool := b.caps.getLsbD (capIndex c)

/-- R204: the default capability mask of a variant. -/
def defaultCaps : Variant → BitVec 8
  | .accelerated _ => 0x17#8
  | .bitbang => 0x0B#8
  | .bulk _ => 0x01#8

/-- R8 `MAX_TRANSFER_BITS` of a backend; bitbang has none (R185). -/
def maxTransferBits (b : BackendSpec) : Option Nat :=
  match b.variant with
  | .accelerated m => m
  | .bitbang => none
  | .bulk m => m

/-- `LIMIT ≠ none and n > LIMIT` (R181, R221). -/
def overLimit (limit : Option Nat) (n : Nat) : Bool :=
  match limit with
  | some m => decide (m < n)
  | none => false

/-- R189: `ceil(1e9 / (2 × frequencyHz))`. -/
def halfPeriodOf (hz : Nat) : Nat := (1000000000 + (2 * hz - 1)) / (2 * hz)

/-- R29 `totalIr`, `Σ_j chain[j].irLength`. -/
def totalIr : List ChainDevice → Nat
  | [] => 0
  | d :: r => d.irLength + totalIr r

/-- R140 from position `i` on, `before` being the sum of the lengths before it. -/
def recomputeFrom (i before : Nat) : List ChainDevice → List ChainDevice
  | [] => []
  | d :: r =>
    { d with positionIndex := i, bypassBeforeBits := before, bypassAfterBits := totalIr r } ::
      recomputeFrom (i + 1) (before + d.irLength) r

/-- R140 `recompute(chain)`. -/
def recompute (chain : List ChainDevice) : List ChainDevice := recomputeFrom 0 0 chain

/-- R141, R270: a device with its length appended, and the padding recomputed. -/
def appendDevice (chain : List ChainDevice) (irLength : Nat) : List ChainDevice :=
  recompute (chain ++
    [{ positionIndex := 0, irLength := irLength, bypassBeforeBits := 0, bypassAfterBits := 0, idcode := none }])

/-- R270: the chain of a layout, appended one by one. -/
def chainOfLayout (layout : List Nat) : List ChainDevice := layout.foldl appendDevice []

/-- R143: the payload for one device. -/
def payloadFor (d : ChainDevice) (instructionBits : BitSeq) : BitSeq :=
  ones d.bypassBeforeBits ++ instructionBits ++ ones d.bypassAfterBits

/-- R147: the identifier of device `i` in the captured bits. -/
def identifierOf (i : Nat) (out : BitSeq) : BitVec 32 :=
  BitVec.ofNat 32 (bitsToNat (slice i (i + Config.idcodeBits) out))

/-- R224, R344 `isLast`: the mode bit of body edge `i` of `n`. -/
def isLast (n i : Nat) : Bool := i == n - 1

/-- R224 `bodyTms`: mode bit 1 exactly on the last index. -/
def bodyTms (n : Nat) : BitSeq := (List.range n).map (isLast n)

/-- R224 `bodyTdi`. -/
def bodyTdi (d : Direction) (n : Nat) (inputBits : BitSeq) : BitSeq :=
  match d with
  | .read => zeros n
  | _ => inputBits

/-- R227, R275: consecutive ranges of at most `m` indices from `lo` to `hi` (`fuel` at least `hi - lo`). -/
def chunks (m : Nat) : Nat → Nat → Nat → List (Nat × Nat)
  | 0, _, _ => []
  | fuel + 1, lo, hi => if lo < hi then (lo, min (lo + m) hi) :: chunks m fuel (lo + m) hi else []

/-- R227: the transfers of a scan with `p` prefix, `n` body and `s` suffix edges, as ranges of the edge sequence. -/
def partition (p n s : Nat) (limit : Option Nat) : List (Nat × Nat) :=
  (if p = 0 then [] else [(0, p)]) ++
    match limit with
    | none => [(p, p + n + s)]
    | some m =>
      if n + s ≤ m then [(p, p + n + s)]
      else
        let h := n - min n (m - s)
        chunks m h p (p + h) ++ [(p + h, p + n + s)]

/-- R275: the chunks of a navigation sequence of `n` edges. -/
def navChunks (n : Nat) (limit : Option Nat) : List (Nat × Nat) :=
  match limit with
  | none => if n = 0 then [] else [(0, n)]
  | some m => chunks m n 0 n

/-- R195 with fuel. -/
def packWords (w : Nat) : Nat → BitSeq → List Nat
  | 0, _ => []
  | fuel + 1, b => if b.isEmpty then [] else bitsToNat (b.take w) :: packWords w fuel (b.drop w)

/-- R195: the stream packed into words of `w` bits. -/
def pack (w : Nat) (b : BitSeq) : List Nat := packWords w b.length b

/-- R195: words of `w` bits unpacked and cut to `n` bits. -/
def unpack (w : Nat) (words : List Nat) (n : Nat) : BitSeq := (words.flatMap fun v => natToBits v w).take n

end Sys2Proof.Machine
end

