-- ==== Sys2Proof/Machine/Flags.lean ====
section
/-! DEFINITION. The two flags of R36, `stateKnown` (R21) and `chainFrozen` (R26), with the position `currentState`
they speak of, and the numeric codes of results (R88). -/

namespace Sys2Proof.Machine

/-- R229, R307: `stateKnown <- 0`. -/
def clearKnown (e : Engine) : Engine := { e with ctrl := { e.ctrl with stateKnown := false } }

/-- R116, R265: `currentState <- s ; stateKnown <- 1`. -/
def setKnown (s : TapState) (e : Engine) : Engine :=
  { e with ctrl := { e.ctrl with currentState := s, stateKnown := true } }

/-- R228, R272: `currentState <- s`. -/
def setCurrent (s : TapState) (e : Engine) : Engine := { e with ctrl := { e.ctrl with currentState := s } }

/-- R231: `chainFrozen <- 1`. -/
def freezeChain (e : Engine) : Engine := { e with ctrl := { e.ctrl with chainFrozen := true } }

/-- R88, R300: the code of an error kind. -/
def errCode : ErrKind → Nat
  | .invalidArgument => 1
  | .unsupportedOperation => 2
  | .timeoutError => 3
  | .busFault => 4

/-- R88: the result code, 0 for a success. -/
def resultCode : Result → Nat
  | .error k => errCode k
  | _ => 0

/-- R88: the 5-bit field of a `getState` result, a state's code or `Unknown` = 16. -/
def stateField : Result → Option (BitVec 5)
  | .tap s => some (BitVec.ofNat 5 (tapCode s))
  | .unknown => some 16#5
  | _ => none

end Sys2Proof.Machine
end

