-- ==== Sys2Proof/Machine/TargetChain.lean ====
section
/-! DEFINITION. The target chain: how a reference chain is connected, and its reaction to one edge (41_chain_model.md
R150 to R158). -/

namespace Sys2Proof.Machine

/-- R150, R158: a reference chain connected to an interface, in its start state: the TAP state and the registers are
draws. -/
def connectReference (fixture : Fixture) (io : Interface) : Interface :=
  { io with
    target :=
      { tap := Config.freeTap io.drawn, devices := some (referenceStart io.opcodes 0 (io.drawn + 1) fixture) }
    drawn := io.drawn + 1 + referenceDraws fixture }

/-- R154 `captureDR(j)`. -/
def captureDR (d : RefDevice) : BitSeq :=
  match d.idc with
  | some v => if d.irLatch == d.op then natToBits v.toNat 32 else [false]
  | none => [false]

/-- R153 `captureIR(j)`: index 0 is 1, every other index 0. -/
def captureIR (len : Nat) : BitSeq := (true :: zeros (len - 1)).take len

/-- R155 `default(j)`. -/
def defaultInstruction (d : RefDevice) : BitSeq := if d.idc.isSome then d.op else ones d.irLength

/-- R151, R152: the registers of the devices, position 0 first, after one shift: each takes in the bit the next
device puts out, the last one the engine's data-in. -/
def shiftSerial : List BitSeq → Bool → List BitSeq
  | [], _ => []
  | [r], tdi => [r.tail ++ [tdi]]
  | r :: q :: rs, tdi => (r.tail ++ [q.headD tdi]) :: shiftSerial (q :: rs) tdi

/-- R152, the part of an edge that depends on the state it is taken in: a load or a shift. -/
def loadOrShift (s : TapState) (tdi : Bool) (ds : List RefDevice) : List RefDevice :=
  match s with
  | .captureDR => ds.map fun d => { d with drShift := captureDR d }
  | .captureIR => ds.map fun d => { d with irShift := captureIR d.irLength }
  | .shiftDR => ds.zipWith (fun d r => { d with drShift := r }) (shiftSerial (ds.map (·.drShift)) tdi)
  | .shiftIR => ds.zipWith (fun d r => { d with irShift := r }) (shiftSerial (ds.map (·.irShift)) tdi)
  | _ => ds

/-- R152, R155, R156, the part of an edge that depends on the state it enters. -/
def onEntry (s : TapState) (ds : List RefDevice) : List RefDevice :=
  match s with
  | .updateIR => ds.map fun d => { d with irLatch := d.irShift }
  | .reset => ds.map fun d => { d with irLatch := defaultInstruction d }
  | _ => ds

/-- R182, R152: the target's part of one edge. -/
def targetEdge (e : Edge) (t : Target) : Target :=
  { tap := tapNext t.tap e.tms
    devices := t.devices.map fun ds => onEntry (tapNext t.tap e.tms) (loadOrShift t.tap e.tdi ds) }

/-- R157 `devOut(0)`: the bit the target presents on data-out, `none` where it is a draw. -/
def dataOut (t : Target) : Option Bool :=
  match t.devices with
  | some (d :: _) =>
    match t.tap with
    | .shiftDR => d.drShift.head?
    | .shiftIR => d.irShift.head?
    | _ => none
  | _ => none

end Sys2Proof.Machine
end

