-- ==== Sys2Proof/Machine/Ops.lean ====
section
/-! DEFINITION. The shared operations: steps that may end in an error (R14 `raise`), the edge (R182), the backend
call with its outcomes (R181, R185, R186), failure entry (R307), the lock (R260) and the command frame (R261). -/

namespace Sys2Proof.Machine

/-- How a primitive or a command body ends: with a value, with an error (R14 `raise Err(kind)`), or in a
configuration the model has no meaning for. -/
inductive Ret (α : Type) where
  | ok (a : α)
  | err (k : ErrKind)
  | stop (r : Refusal)
  deriving DecidableEq, Repr

/-- A computation on `σ`; an error keeps the state reached, since nothing is rolled back (R307). -/
abbrev Act (σ α : Type) := σ → Ret α × σ

/-- A backend primitive: it sees the interface only, never the controller. -/
abbrev Prim (α : Type) := Act Interface α

/-- The body of a command. -/
abbrev Body (α : Type) := Act Engine α

/-- `return v`. -/
def done {σ α : Type} (a : α) : Act σ α := fun s => (.ok a, s)

/-- `raise Err(k)`. -/
def raise {σ α : Type} (k : ErrKind) : Act σ α := fun s => (.err k, s)

/-- One computation after another; the first error or stop ends both. -/
def andThen {σ α β : Type} (m : Act σ α) (f : α → Act σ β) : Act σ β := fun s =>
  match m s with
  | (.ok a, s') => f a s'
  | (.err k, s') => (.err k, s')
  | (.stop r, s') => (.stop r, s')

/-- `if not c: raise Err(k)`. -/
def check {σ : Type} (c : Bool) (k : ErrKind) : Act σ Unit := fun s => if c then (.ok (), s) else (.err k, s)

/-- A change of state that cannot fail. -/
def update {σ : Type} (f : σ → σ) : Act σ Unit := fun s => (.ok (), f s)

/-- A backend primitive called from a command body. -/
def callBackend {α : Type} (p : Prim α) : Body α := fun e => ((p e.io).1, { e with io := (p e.io).2 })

/-- R31, R201: the backend may be called: it has no ENABLE ("always usable"), or it is enabled. -/
def usable (b : Backend) : Bool := !hasCap b.spec .enable || b.enabled

/-- R201, D37: "no other primitive is called while `enabled = 0`". The operation that needs the call ends in a `BusFault`
without it, and the interface stays as it was; that the error is of this kind is DESIGN CHOICE (log entry 12). -/
def whenEnabled {α : Type} (p : Prim α) : Prim α := fun io => if usable io.backend then p io else (.err .busFault, io)

/-- R302: an operation of an absent capability fails. -/
def needCap (c : Capability) : Body Unit := fun e => check (hasCap e.io.backend.spec c) .unsupportedOperation e

/-- R229, R307: failure entry of a scan, a navigation or a raw edge. If the computation ends in an error, `stateKnown`
is cleared and the error goes on; nothing else changes. -/
def clearOnError {α : Type} (m : Body α) : Body α := fun e =>
  match m e with
  | (.err k, e') => (.err k, clearKnown e')
  | r => r

/-- R307: failure entry of a backend operation that drives edges. A `TimeoutError` or `BusFault` clears `stateKnown`; an
argument or a length that the primitive rejects before any edge leaves it as it was (log entry 8). -/
def clearOnFault {α : Type} (m : Body α) : Body α := fun e =>
  match m e with
  | (.err .timeoutError, e') => (.err .timeoutError, clearKnown e')
  | (.err .busFault, e') => (.err .busFault, clearKnown e')
  | r => r

/-! ### Edges -/

/-- R157, R182: the data-out bit sampled before the edge; where it is not driven, a fresh free value. -/
def sampleOut (io : Interface) : Bool × Interface :=
  ((dataOut io.target).getD (Config.freeBit io.drawn),
    { io with drawn := io.drawn + if (dataOut io.target).isSome then 0 else 1 })

/-- R32, R188: the bitbang variant's lines after an edge; the clock stays high. -/
def linesAfter (b : Backend) (e : Edge) : Lines :=
  match b.spec.variant with
  | .bitbang => { modeSelect := e.tms, clock := true, dataIn := e.tdi }
  | _ => b.lines

/-- R182: the rising edge; the target moves, and so does the backend's bookkeeping of it (R200). -/
def clockEdge (e : Edge) (io : Interface) : Interface :=
  { io with
    target := targetEdge e io.target
    backend := { io.backend with book := tapNext io.backend.book e.tms, lines := linesAfter io.backend e } }

/-- R182 `Edge(tms, tdi)`. -/
def driveEdge (e : Edge) (io : Interface) : Bool × Interface :=
  ((sampleOut io).1, clockEdge e (sampleOut io).2)

/-- R181: edges in index order, the bits sampled. -/
def driveEdges : List Edge → Interface → BitSeq × Interface
  | [], io => ([], io)
  | e :: es, io =>
    let first := driveEdge e io
    let rest := driveEdges es first.2
    (first.1 :: rest.1, rest.2)

/-- R181: the edges of a transfer. -/
def edgesOf (tms tdi : BitSeq) : List Edge := List.zipWith (fun m d => { tms := m, tdi := d }) tms tdi

/-- R354: the record of a backend call's edges. -/
def logEdges (es : List Edge) (io : Interface) : Interface := { io with wire := io.wire ++ [es] }

/-- R354: the sequence of edges delivered to the target chain. -/
def wireEdges (io : Interface) : List Edge := io.wire.flatten

/-! ### Backend calls -/

/-- The environment's choice for the next backend call; a call after the last listed one completes. -/
def nextOutcome (io : Interface) : BackendDraw := io.outcomes.headD .completes

/-- The choice of this call is used up. -/
def dropOutcome (io : Interface) : Interface := { io with outcomes := io.outcomes.tail }

/-- R185: how a variant's edge-driving call fails under the environment's choice, with the number of edges
delivered (R186); `none` when it completes. Bitbang never times out, and no call of this kind is refused. -/
def failureOf (v : Variant) (d : BackendDraw) : Option (ErrKind × Nat) :=
  match d, v with
  | .timesOut _, .bitbang => none
  | .timesOut k, _ => some (.timeoutError, k)
  | .fails k, _ => some (.busFault, k)
  | _, _ => none

/-- R192, R195, R197: what a variant writes into its own registers or channel before a transfer. -/
def program (tms tdi : BitSeq) (io : Interface) : Interface :=
  match io.backend.spec.variant with
  | .accelerated _ =>
    { io with
      backend :=
        { io.backend with
          regs :=
            { length := tms.length
              direction := Config.offloadDirection tms tdi
              endState := tapRun io.backend.book tms
              inputWords := pack Config.hwWordBits tdi
              outstanding := true
              completion := false
              outputWords := io.backend.regs.outputWords } } }
  | .bitbang => io
  | .bulk _ =>
    { io with
      backend :=
        { io.backend with
          channel :=
            { request :=
                some
                  { opcode := Config.bulkOpcode
                    target := Config.bulkTarget tms tdi
                    direction := Config.bulkDirection tms tdi
                    bitLength := tms.length
                    payload := Config.bulkPayload tms tdi }
              response := none } } }

/-- R192, R194, R197: what a variant's registers or channel hold after a call that completed with the bits `out`. -/
def settle (out : BitSeq) (io : Interface) : Interface :=
  match io.backend.spec.variant with
  | .accelerated _ =>
    { io with
      backend :=
        { io.backend with
          regs :=
            { io.backend.regs with
              outstanding := false, completion := true, outputWords := pack Config.hwWordBits out } } }
  | .bitbang => io
  | .bulk _ =>
    { io with backend := { io.backend with channel := { io.backend.channel with response := some out } } }

/-- R185, R194, R198: what they hold after a call that failed with `k`. A timeout is a completion not signalled, or no
response. Whether the completion was signalled before a `BusFault`, and what response there was, the spec does not say:
each is then a free value (DESIGN CHOICE, log entry 17). The output words stay those of the call before (log entry 17). -/
def settleFailed (k : ErrKind) (io : Interface) : Interface :=
  match io.backend.spec.variant with
  | .accelerated _ =>
    { io with
      backend :=
        { io.backend with
          regs :=
            { io.backend.regs with
              outstanding := false, completion := if k = .busFault then Config.freeBit io.drawn else false } }
      drawn := io.drawn + 1 }
  | .bitbang => io
  | .bulk _ =>
    { io with
      backend :=
        { io.backend with
          channel :=
            { io.backend.channel with response := if k = .busFault then Config.freeResponse io.drawn else none } }
      drawn := io.drawn + 1 }

/-- R32: the levels of the bitbang variant's lines where an edge failed before it was delivered: R188 moves them before
the rising edge and no rule says what a failure leaves on them, so they are free values (log entry 9). -/
def looseLines (io : Interface) : Interface :=
  match io.backend.spec.variant with
  | .bitbang =>
    { io with
      backend :=
        { io.backend with
          lines :=
            { modeSelect := Config.freeBit io.drawn
              clock := Config.freeBit (io.drawn + 1)
              dataIn := Config.freeBit (io.drawn + 2) } }
      drawn := io.drawn + 3 }
  | _ => io

/-- R186, R187, R202: the edges of a call that fails with `n` of them delivered. -/
def driveFailing (es : List Edge) (n : Nat) (io : Interface) : Interface :=
  let io' := logEdges (es.take n) (driveEdges (es.take n) io).2
  if n < es.length then looseLines io' else io'

/-- R181, R184, R186: one edge-driving backend call. It delivers all its edges and returns the bits sampled, or
delivers a prefix of them and fails. A backend that does not keep its contract is refused (R311). -/
def burst (tms tdi : BitSeq) : Prim BitSeq := fun io =>
  let es := edgesOf tms tdi
  let io1 := program tms tdi (dropOutcome io)
  if nextOutcome io = .breaksContract then (.stop .backendContract, io)
  else
    match failureOf io.backend.spec.variant (nextOutcome io) with
    | none => (.ok (driveEdges es io1).1, settle (driveEdges es io1).1 (logEdges es (driveEdges es io1).2))
    | some (k, n) => (.err k, settleFailed k (driveFailing es n io1))

/-- R181 `transfer(modeBits, dataInBits, bitLength)`: its checks, and the call where the backend may be called (R201). -/
def transferPrim (tms tdi : BitSeq) (n : Nat) : Prim BitSeq := fun io =>
  if n = 0 ∨ tms.length ≠ n ∨ tdi.length ≠ n then (.err .invalidArgument, io)
  else if overLimit (maxTransferBits io.backend.spec) n then (.err .unsupportedOperation, io)
  else whenEnabled (burst tms tdi) io

/-- R202 `rawEdgePrim(modeBit, dataInBit)` on a backend that has RAW_EDGE. A failure is a `BusFault`, with the edge
delivered or not; on bitbang an edge that is not delivered leaves the lines free (R188, log entry 9). -/
def rawEdgePrim (tms tdi : Bool) : Prim Bool := whenEnabled fun io =>
  let e : Edge := { tms := tms, tdi := tdi }
  let io1 := dropOutcome io
  match nextOutcome io with
  | .fails n => (.err .busFault, driveFailing [e] n io1)
  | _ => (.ok (driveEdge e io1).1, logEdges [e] (driveEdge e io1).2)

/-- R200: the mode bits `stateSet` delivers. -/
def stateSetBits (book target : TapState) (forceReset : Bool) : BitSeq :=
  if forceReset then ones Config.hardResetEdges ++ tapPath .reset target else tapPath book target

/-- R200 `stateSet(target, forceReset)`; an empty sequence issues no call (D45). -/
def stateSetPrim (target : TapState) (forceReset : Bool) : Prim Unit := whenEnabled fun io =>
  let tms := stateSetBits io.backend.book target forceReset
  if tms.isEmpty then (.ok (), io) else andThen (burst tms (zeros tms.length)) (fun _ => done ()) io

/-- R200 `stateGet()`. -/
def stateGetPrim : Prim TapState := whenEnabled fun io => (.ok io.backend.book, io)

/-- R199 `freqGet()`. -/
def freqGetPrim : Prim Nat := whenEnabled fun io => (.ok io.backend.rate, io)

/-- R199, R190: the error of a `freqSet`; a bitbang backend clamps and refuses no rate. -/
def freqFailure (v : Variant) (d : BackendDraw) : Option ErrKind :=
  match d, v with
  | .refuses, .bitbang => none
  | .refuses, _ => some .unsupportedOperation
  | .fails _, _ => some .busFault
  | _, _ => none

/-- R199 `freqSet(hz)`, `hz ≥ 1`. -/
def freqSetPrim (hz : Nat) : Prim Nat := whenEnabled fun io =>
  let io1 := dropOutcome io
  match freqFailure io.backend.spec.variant (nextOutcome io) with
  | some k => (.err k, io1)
  | none =>
    let rate := Config.achievable io.backend.spec hz
    (.ok rate, { io1 with backend := { io1.backend with rate := rate } })

/-- R201 `enable()`. -/
def enablePrim : Prim Unit := fun io =>
  let io1 := dropOutcome io
  match nextOutcome io with
  | .fails _ => (.err .busFault, io1)
  | _ => (.ok (), { io1 with backend := { io1.backend with enabled := true } })

/-- R201 `disable()`. -/
def disablePrim : Prim Unit := fun io => (.ok (), { io with backend := { io.backend with enabled := false } })

/-! ### Sequences of transfers -/

/-- R227, R230: one transfer per range, in order, stopping at the first failure; the outputs concatenated. -/
def sendRanges (tms tdi : BitSeq) : List (Nat × Nat) → Prim BitSeq
  | [] => done []
  | (a, b) :: rs =>
    andThen (transferPrim (slice a b tms) (slice a b tdi) (b - a)) fun out =>
      andThen (sendRanges tms tdi rs) fun more => done (out ++ more)

/-- R275 `navTransfer(C, tms)`. -/
def navTransfer (tms : BitSeq) : Prim Unit := fun io =>
  andThen (sendRanges tms (zeros tms.length) (navChunks tms.length (maxTransferBits io.backend.spec)))
    (fun _ => done ()) io

/-- R116 `hardReset(C)`: five edges with mode bit 1 and data-in 0; on success the position is Reset and known. -/
def hardReset : Body Unit :=
  andThen
    (callBackend (transferPrim (ones Config.hardResetEdges) (zeros Config.hardResetEdges) Config.hardResetEdges))
    fun _ => update (setKnown .reset)

/-! ### Callers, lock and frame -/

/-- R261: the result goes to the caller and its command is no longer pending. -/
def deliver (c : CallerId) (r : Result) (s : State) : State :=
  { s with results := s.results ++ [(c, r)], inbox := s.inbox.eraseP fun q => q.caller == c }

/-- The result of the caller that moves in this step. -/
def complete (r : Result) (s : State) : State := deliver s.caller r s

/-- The lock is replaced. -/
def setLock (l : Lock) (s : State) : State := { s with ctrl := { s.ctrl with lock := l } }

/-- The engine is replaced. -/
def setEngine (e : Engine) (s : State) : State := { s with toEngine := e }

/-- The interface is replaced. -/
def setIo (io : Interface) (s : State) : State := { s with io := io }

/-- R25: `waiters ∪ {c}`. -/
def addWaiter (c : CallerId) (w : List CallerId) : List CallerId := if c ∈ w then w else w ++ [c]

/-- R25: `waiters \ {c}`. -/
def dropWaiter (c : CallerId) (w : List CallerId) : List CallerId := w.filter (· != c)

/-- R260: the lock is `Idle`, so it may be granted. -/
def lockIdle (s : State) : Bool := s.ctrl.lock.phase == .idle

/-- The caller holds the lock. -/
def ownsLock (s : State) : Bool := s.ctrl.lock.phase == .busy && s.ctrl.lock.owner == some s.caller

/-- R260: the caller is granted the lock. -/
def grant (s : State) : State :=
  setLock { phase := .busy, owner := some s.caller, waiters := dropWaiter s.caller s.ctrl.lock.waiters } s

/-- R260: the caller is queued on the lock. -/
def enqueue (s : State) : State :=
  setLock { s.ctrl.lock with waiters := addWaiter s.caller s.ctrl.lock.waiters } s

/-- R260: the lock-wait timeout of the caller. -/
def expireWait (s : State) : State :=
  let s1 := setLock { s.ctrl.lock with waiters := dropWaiter s.caller s.ctrl.lock.waiters } s
  let s2 := if s.lockTimeoutClears then setEngine (clearKnown s1.toEngine) s1 else s1
  complete (.error .timeoutError) s2

/-- R261: the lock is released and the result delivered, in one step. -/
def release (r : Result) (s : State) : State :=
  complete r (setLock { s.ctrl.lock with phase := .idle, owner := none } s)

/-- R272 `refresh(C)`: after a body that succeeded and drove an edge, on a backend with STATE, the position is the
backend's. `before` and `after` are the engine around the body. -/
def refresh (before after : Engine) : Engine :=
  if hasCap after.io.backend.spec .state ∧ (wireEdges before.io).length ≠ (wireEdges after.io).length then
    setCurrent after.io.backend.book after
  else after

/-- R261, the end of a command whose body has ended. -/
def finishCommand (s : State) (r : Ret Result × Engine) : Host.Outcome State Fault Refusal :=
  match r with
  | (.ok v, e) => .next (release v (setEngine (refresh s.toEngine e) s))
  | (.err k, e) => .next (release (.error k) (setEngine e s))
  | (.stop x, _) => .refused x

/-- R261, R318: the frame that every operation of R87 but `attach` and `detach` runs in: the detached
controller, the lock (R260) under the environment's choice, the body, the refresh, and the release with the result. -/
def command (body : Body Result) (s : State) : Host.Outcome State Fault Refusal :=
  if s.ctrl.attached = false then .next (complete (.error .invalidArgument) s)
  else if ownsLock s then
    match s.draw with
    | .run => finishCommand (grant s) (body (grant s).toEngine)
    | _ => .next s
  else
    match s.draw with
    | .expire => .next (expireWait s)
    | .wait => .next (enqueue s)
    | .hold => .next (if lockIdle s then grant s else enqueue s)
    | .run => if lockIdle s then finishCommand (grant s) (body (grant s).toEngine) else .next (enqueue s)

end Sys2Proof.Machine
end

