-- ==== Sys2Proof/Machine/ScanEngine.lean ====
section
/-! DEFINITION. The scan transaction engine of 43_scan_engine.md: `scanCore` of R232, in the order of its steps. -/

namespace Sys2Proof.Machine

/-- R232 `Etms`: prefix, body and suffix mode bits of a scan that starts in `start`. -/
def scanTms (start : TapState) (p : ScanTarget) (n : Nat) (e : TapState) : BitSeq :=
  tapPath start (shiftOf p) ++ bodyTms n ++ tapPath (exit1Of p) e

/-- R232 `Etdi`: data-in is 0 on the navigation edges (R223, R225). -/
def scanTdi (start : TapState) (p : ScanTarget) (d : Direction) (n : Nat) (e : TapState) (inputBits : BitSeq) : BitSeq :=
  zeros (tapPath start (shiftOf p)).length ++ bodyTdi d n inputBits ++ zeros (tapPath (exit1Of p) e).length

/-- R226: the captured bits of a scan whose prefix has `p` edges. -/
def capturedOf (d : Direction) (p n : Nat) (out : BitSeq) : BitSeq :=
  if includesRead d then slice p (p + n) out else []

/-- R221: the checks before any edge, in their order. -/
def scanChecks (p : ScanTarget) (d : Direction) (n : Nat) (e : TapState) (inputBits : BitSeq) : Body Unit :=
  andThen (check (n != 0) .invalidArgument) fun _ =>
    andThen (check (legalEnd p e) .invalidArgument) fun _ =>
      andThen (check (!includesWrite d || inputBits.length == n) .invalidArgument) fun _ eng =>
        check (!overLimit eng.io.backend.spec.maxScan n) .unsupportedOperation eng

/-- R222: the hard reset first, when the position is not known. -/
def recover : Body Unit := fun eng => if eng.ctrl.stateKnown then (.ok (), eng) else hardReset eng

/-- R223 to R228: the edges of the scan from a known position, the captured bits, and the new position. -/
def scanEdges (p : ScanTarget) (d : Direction) (n : Nat) (e : TapState) (inputBits : BitSeq) : Body BitSeq := fun eng =>
  let start := eng.ctrl.currentState
  let pre := (tapPath start (shiftOf p)).length
  let suf := (tapPath (exit1Of p) e).length
  andThen
    (callBackend
      (sendRanges (scanTms start p n e) (scanTdi start p d n e inputBits)
        (partition pre n suf (maxTransferBits eng.io.backend.spec))))
    (fun out => andThen (update (setCurrent e)) fun _ => done (capturedOf d pre n out)) eng

/-- R232 `scanCore`; any error clears `stateKnown` (R229). -/
def scanCore (p : ScanTarget) (d : Direction) (n : Nat) (e : TapState) (inputBits : BitSeq) : Body BitSeq :=
  clearOnError <|
    andThen (scanChecks p d n e inputBits) fun _ =>
      andThen (update freezeChain) fun _ =>
        andThen recover fun _ => scanEdges p d n e inputBits

end Sys2Proof.Machine
end

