-- ==== Sys2Proof/Machine/ChainOps.lean ====
section
/-! DEFINITION. The chain operations of 41_chain_model.md R141 to R148, run through the façade (44_controller.md R268,
R269). -/

namespace Sys2Proof.Machine

/-- R141, the chain with one more device. -/
def growChain (irLength : Nat) (e : Engine) : Engine :=
  { e with ctrl := { e.ctrl with chain := appendDevice e.ctrl.chain irLength } }

/-- R141. -/
def addDeviceBody (irLength : Nat) : Body Result := fun e =>
  andThen (check (irLength != 0) .invalidArgument)
    (fun _ =>
      andThen (check (!e.ctrl.chainFrozen) .invalidArgument) fun _ =>
        andThen (update (growChain irLength)) fun _ => done .ack) e

/-- R141, R268 `ADD_DEVICE`. -/
def execAddDevice (irLength : Nat) (s : State) : Host.Outcome State Fault Refusal := command (addDeviceBody irLength) s

/-- R143 `buildInstructionPayload`. -/
def buildPayload (t : Nat) (instructionBits : BitSeq) : Body BitSeq := fun e =>
  match e.ctrl.chain[t]? with
  | none => (.err .invalidArgument, e)
  | some d =>
    if instructionBits.length = d.irLength then (.ok (payloadFor d instructionBits), e) else (.err .invalidArgument, e)

/-- R143. -/
def buildInstructionPayloadBody (t : Nat) (instructionBits : BitSeq) : Body Result :=
  andThen (buildPayload t instructionBits) fun b => done (.bits b)

/-- R143, R269 `BUILD_INSTRUCTION_PAYLOAD`. -/
def execBuildInstructionPayload (t : Nat) (instructionBits : BitSeq) (s : State) : Host.Outcome State Fault Refusal :=
  command (buildInstructionPayloadBody t instructionBits) s

/-- R145. -/
def dataPaddingBody (t : Nat) : Body Result := fun e =>
  if t < e.ctrl.chain.length then (.ok (.padding t (e.ctrl.chain.length - 1 - t)), e) else (.err .invalidArgument, e)

/-- R145, R269 `DATA_PADDING`. -/
def execDataPadding (t : Nat) (s : State) : Host.Outcome State Fault Refusal := command (dataPaddingBody t) s

/-- R146, R148: the identifier of device `i` is written. -/
def setIdcode (i : Nat) (v : BitVec 32) (e : Engine) : Engine :=
  { e with ctrl := { e.ctrl with chain := e.ctrl.chain.modify i fun d => { d with idcode := some v } } }

/-- R146, one round: an instruction scan that selects the identifier of device `i` and BYPASS elsewhere, one data
scan, and the identifier read from it (R147). A device already discovered is passed over (R148). -/
def discoverOne (i : Nat) : Body Unit := fun e =>
  match e.ctrl.chain[i]? with
  | none => (.ok (), e)
  | some d =>
    if d.idcode.isSome then (.ok (), e)
    else
      andThen (buildPayload i (idcodeOpcodeOf e.io.opcodes i d.irLength))
        (fun pl =>
          andThen (scanCore .instruction .write (totalIr e.ctrl.chain) .idle pl) fun _ =>
            andThen (scanCore .data .read (Config.idcodeBits + e.ctrl.chain.length - 1) .idle []) fun out =>
              update (setIdcode i (identifierOf i out))) e

/-- R146: the rounds in order, stopping at the first error. -/
def discoverAll : List Nat → Body Unit
  | [] => done ()
  | i :: r => andThen (discoverOne i) fun _ => discoverAll r

/-- R146, and R277, R308 and D11: with the position not known it begins with the hard reset. The first scan does that
(R222); with no device to discover there is no scan, and the reset is all it drives, on an empty chain too (log entry
10). -/
def discoverIdentifiersBody : Body Result := fun e =>
  andThen (discoverAll (List.range e.ctrl.chain.length))
    (fun _ => andThen (clearOnError recover) fun _ => done .ack) e

/-- R146, R269 `DISCOVER_IDENTIFIERS`. -/
def execDiscoverIdentifiers (s : State) : Host.Outcome State Fault Refusal := command discoverIdentifiersBody s

end Sys2Proof.Machine
end

