-- ==== Sys2Proof/Machine/Commands.lean ====
section
/-! DEFINITION. The six commands of the source's command boundary: 44_controller.md R262 to R267. -/

namespace Sys2Proof.Machine

/-- R262. -/
def getFrequencyBody : Body Result := fun e => (.ok (.hz e.ctrl.frequencyHz), e)

/-- R262 `GET_FREQUENCY`. -/
def execGetFrequency (s : State) : Host.Outcome State Fault Refusal := command getFrequencyBody s

/-- R263: the achieved rate is stored, and on bitbang the half period follows it (R189). -/
def storeFrequency (hz : Nat) (e : Engine) : Engine :=
  { e with
    ctrl := { e.ctrl with frequencyHz := hz }
    io :=
      match e.io.backend.spec.variant with
      | .bitbang => { e.io with backend := { e.io.backend with halfPeriodNs := halfPeriodOf hz } }
      | _ => e.io }

/-- R263. -/
def setFrequencyBody (hz : Nat) : Body Result :=
  andThen (needCap .freq) fun _ =>
    andThen (check (hz != 0) .unsupportedOperation) fun _ =>
      andThen (callBackend (freqSetPrim hz)) fun achieved =>
        andThen (update (storeFrequency achieved)) fun _ => done .ack

/-- R263 `SET_FREQUENCY`. -/
def execSetFrequency (hz : Nat) (s : State) : Host.Outcome State Fault Refusal := command (setFrequencyBody hz) s

/-- R264. -/
def getStateBody : Body Result := fun e =>
  (.ok (if e.ctrl.stateKnown then .tap e.ctrl.currentState else .unknown), e)

/-- R264 `GET_STATE`. -/
def execGetState (s : State) : Host.Outcome State Fault Refusal := command getStateBody s

/-- R265, a backend without STATE: the hard reset where it is due, then the path. -/
def setStateByPath (target : TapState) (reset : Bool) : Body Unit :=
  andThen (if reset then hardReset else done ()) fun _ e =>
    callBackend (navTransfer (tapPath e.ctrl.currentState target)) e

/-- R265. -/
def setStateBody (target : TapState) (forceReset : Bool) : Body Result := fun e =>
  let reset := forceReset || !e.ctrl.stateKnown
  andThen (check (stable target) .invalidArgument)
    (fun _ =>
      andThen
        (clearOnError
          (if hasCap e.io.backend.spec .state then callBackend (stateSetPrim target reset)
          else setStateByPath target reset))
        fun _ => andThen (update (setKnown target)) fun _ => done .ack) e

/-- R265 `SET_STATE`. -/
def execSetState (target : TapState) (forceReset : Bool) (s : State) : Host.Outcome State Fault Refusal :=
  command (setStateBody target forceReset) s

/-- R266: the reserved direction code has no other effect; otherwise the scan. -/
def executeScanBody (p : ScanTarget) (d : Direction) (n : Nat) (e : TapState) (inputBits : BitSeq) : Body Result :=
  andThen (check (d != .reserved) .invalidArgument) fun _ =>
    andThen (scanCore p d n e inputBits) fun out => done (.bits out)

/-- R266 `EXECUTE_SCAN`. -/
def execExecuteScan (p : ScanTarget) (d : Direction) (n : Nat) (e : TapState) (inputBits : BitSeq) (s : State) :
    Host.Outcome State Fault Refusal :=
  command (executeScanBody p d n e inputBits) s

/-- R267: the position follows the edge where it is known. -/
def trackEdge (modeBit : Bool) (e : Engine) : Engine :=
  if e.ctrl.stateKnown then setCurrent (tapNext e.ctrl.currentState modeBit) e else e

/-- R267. -/
def rawEdgeBody (modeBit dataInBit : Bool) : Body Result :=
  andThen (needCap .rawEdge) fun _ =>
    andThen (clearOnError (callBackend (rawEdgePrim modeBit dataInBit))) fun b =>
      andThen (update (trackEdge modeBit)) fun _ => done (.bit b)

/-- R267 `RAW_EDGE`. -/
def execRawEdge (modeBit dataInBit : Bool) (s : State) : Host.Outcome State Fault Refusal :=
  command (rawEdgeBody modeBit dataInBit) s

end Sys2Proof.Machine
end

