-- ==== Sys2Proof/Machine/Lifecycle.lean ====
section
/-! DEFINITION. The lifecycle operations: 44_controller.md R270 `attach` and R271 `detach`. -/

namespace Sys2Proof.Machine

/-- R270, R341: a backend instance as it is bound, before `enable()`. Its bookkeeping is a draw (R200, D14); its other
registers are unspecified and never read before written (R341, log entry 3). -/
def freshBackend (spec : BackendSpec) (drawn : Nat) : Backend :=
  { spec := spec
    enabled := false
    rate := spec.rate
    book := Config.freeTap drawn
    halfPeriodNs := 0
    lines := { modeSelect := false, clock := false, dataIn := false }
    regs :=
      { length := 0, direction := .write, endState := .reset, inputWords := [], outstanding := false
        completion := false, outputWords := [] }
    channel := { request := none, response := none } }

/-- R270: the new backend bound to the interface. No edge is driven, so the target keeps its state. -/
def bindBackend (spec : BackendSpec) (io : Interface) : Interface :=
  { io with backend := freshBackend spec io.drawn, drawn := io.drawn + 2 }

/-- R270: `enable()` where the backend has ENABLE. -/
def enableIfAny (spec : BackendSpec) : Prim Unit := if hasCap spec .enable then enablePrim else done ()

/-- R270, D15: the frequency at construction. -/
def initialFrequencyOf (spec : BackendSpec) : Nat :=
  if hasCap spec .freq then spec.rate else Config.initialFrequencyHz

/-- R189, R341: on bitbang the half period at construction. -/
def initialHalfPeriod (spec : BackendSpec) : Nat :=
  match spec.variant with
  | .bitbang => halfPeriodOf (initialFrequencyOf spec)
  | _ => 0

/-- R270, R37: the controller at construction; `currentState` is a draw. -/
def freshController (layout : List Nat) (spec : BackendSpec) (draw : TapState) : Controller :=
  { currentState := draw
    stateKnown := false
    frequencyHz := initialFrequencyOf spec
    chain := chainOfLayout layout
    lock := { phase := .idle, owner := none, waiters := [] }
    chainFrozen := false
    attached := true }

/-- R270: the controller constructed on an interface whose backend is bound and enabled. -/
def construct (layout : List Nat) (spec : BackendSpec) (draw : TapState) (io : Interface) : Engine :=
  { ctrl := freshController layout spec draw
    io := { io with backend := { io.backend with halfPeriodNs := initialHalfPeriod spec } } }

/-- R270 `ATTACH`. A refused attach produces no controller: nothing changes but the result, and the environment's
choice that `enable()` used up. -/
def execAttach (layout : List Nat) (spec : BackendSpec) (s : State) : Host.Outcome State Fault Refusal :=
  if maskAdmitted spec.caps = false then .refused .capabilityMask
  else if layout.any (· == 0) then .next (complete (.error .invalidArgument) s)
  else
    match enableIfAny spec (bindBackend spec s.io) with
    | (.ok _, io) =>
      .next (complete .controller (setEngine (construct layout spec (Config.freeTap (s.io.drawn + 1)) io) s))
    | (.err k, io) => .next (complete (.error k) (setIo { s.io with outcomes := io.outcomes } s))
    | (.stop x, _) => .refused x

/-- R271, D36: every waiting caller's command completes with `InvalidArgument`. R271 goes through the set of waiters and
names no order; they complete in the order in which they came to wait, DESIGN CHOICE (log entry 35). -/
def dismissWaiters (s : State) : State :=
  setLock { s.ctrl.lock with waiters := [] }
    (s.ctrl.lock.waiters.foldl (fun t c => deliver c (.error .invalidArgument) t) s)

/-- R271: the backend disabled where it has ENABLE, and the controller torn down. -/
def tearDown (e : Engine) : Engine :=
  { ctrl := { e.ctrl with attached := false }
    io := if hasCap e.io.backend.spec .enable then (disablePrim e.io).2 else e.io }

/-- R271 `DETACH`. -/
def execDetach (s : State) : Host.Outcome State Fault Refusal :=
  if s.ctrl.attached = false then .next (complete (.error .invalidArgument) s)
  else if s.ctrl.lock.phase == .busy then .refused .detachWhileBusy
  else
    let s1 := dismissWaiters s
    .next (complete .nothing (setEngine (tearDown s1.toEngine) s1))

end Sys2Proof.Machine
end

