-- ==== Sys2Proof/Machine/TapFunctions.lean ====
section
/-! DEFINITION. The function class of R87: 40_tap_fsm.md R110 `NEXT`, R113 `PATH`, R116 `HARD_RESET`, R117 `RUN`. Issued
by a caller, each runs in the command frame (R318); the three pure ones have their value and no other effect (R118). -/

namespace Sys2Proof.Machine

/-- R110 `NEXT`. -/
def execNext (state : TapState) (bit : Bool) (s : State) : Host.Outcome State Fault Refusal :=
  command (done (.tap (tapNext state bit))) s

/-- R113 `PATH`. -/
def execPath (source target : TapState) (s : State) : Host.Outcome State Fault Refusal :=
  command (done (.bits (tapPath source target))) s

/-- R116: the hard reset as an operation of its own; its result is the edges' mode bits, `ones(5)` (R87). A failure
leaves `stateKnown` at 0 (R116, R307). -/
def hardResetBody : Body Result :=
  andThen (clearOnError hardReset) fun _ => done (.bits (ones Config.hardResetEdges))

/-- R116 `HARD_RESET`. -/
def execHardReset (s : State) : Host.Outcome State Fault Refusal := command hardResetBody s

/-- R117 `RUN`. -/
def execRun (state : TapState) (bits : BitSeq) (s : State) : Host.Outcome State Fault Refusal :=
  command (done (.tap (tapRun state bits))) s

end Sys2Proof.Machine
end

