-- ==== Sys2Proof/Machine/TransportOps.lean ====
section
/-! DEFINITION. The backend operations of 42_transport.md issued by a caller: R180, R181, R199 to R202. R318 runs them in
the command frame of R261, and R307 says what their failures leave. -/

namespace Sys2Proof.Machine

/-- R181. -/
def transferBody (modeBits dataInBits : BitSeq) (bitLength : Nat) : Body Result :=
  andThen (clearOnFault (callBackend (transferPrim modeBits dataInBits bitLength))) fun b => done (.bits b)

/-- R181 `TRANSFER`. -/
def execTransfer (modeBits dataInBits : BitSeq) (bitLength : Nat) (s : State) : Host.Outcome State Fault Refusal :=
  command (transferBody modeBits dataInBits bitLength) s

/-- R202. -/
def edgeBody (modeBit dataInBit : Bool) : Body Result :=
  andThen (needCap .rawEdge) fun _ =>
    andThen (clearOnFault (callBackend (rawEdgePrim modeBit dataInBit))) fun b => done (.bit b)

/-- R202 `EDGE`. -/
def execEdge (modeBit dataInBit : Bool) (s : State) : Host.Outcome State Fault Refusal :=
  command (edgeBody modeBit dataInBit) s

/-- R199. -/
def freqGetBody : Body Result := andThen (needCap .freq) fun _ => andThen (callBackend freqGetPrim) fun n => done (.hz n)

/-- R199 `FREQ_GET`. -/
def execFreqGet (s : State) : Host.Outcome State Fault Refusal := command freqGetBody s

/-- R199. A zero rate is beyond the backend's limits (D16). -/
def freqSetBody (hz : Nat) : Body Result :=
  andThen (needCap .freq) fun _ =>
    andThen (check (hz != 0) .unsupportedOperation) fun _ =>
      andThen (callBackend (freqSetPrim hz)) fun n => done (.hz n)

/-- R199 `FREQ_SET`. -/
def execFreqSet (hz : Nat) (s : State) : Host.Outcome State Fault Refusal := command (freqSetBody hz) s

/-- R200. -/
def stateGetBody : Body Result := andThen (needCap .state) fun _ => andThen (callBackend stateGetPrim) fun t => done (.tap t)

/-- R200 `STATE_GET`. -/
def execStateGet (s : State) : Host.Outcome State Fault Refusal := command stateGetBody s

/-- R200. -/
def stateSetBody (target : TapState) (forceReset : Bool) : Body Result :=
  andThen (needCap .state) fun _ =>
    andThen (clearOnFault (callBackend (stateSetPrim target forceReset))) fun _ => done .ack

/-- R200 `STATE_SET`. -/
def execStateSet (target : TapState) (forceReset : Bool) (s : State) : Host.Outcome State Fault Refusal :=
  command (stateSetBody target forceReset) s

/-- R201. -/
def enableBody : Body Result := andThen (needCap .enable) fun _ => andThen (callBackend enablePrim) fun _ => done .ack

/-- R201 `ENABLE`. -/
def execEnable (s : State) : Host.Outcome State Fault Refusal := command enableBody s

/-- R201. -/
def disableBody : Body Result := andThen (needCap .enable) fun _ => andThen (callBackend disablePrim) fun _ => done .ack

/-- R201 `DISABLE`. -/
def execDisable (s : State) : Host.Outcome State Fault Refusal := command disableBody s

/-- R180: whether the mask holds the capability of an index; the indices from 5 up are reserved and read as 0 (R89). -/
def supportsBit (spec : BackendSpec) (cap : BitVec 3) : Bool := decide (cap.toNat < 5) && spec.caps.getLsbD cap.toNat

/-- R180 `supports(cap)`; it never fails. -/
def supportsBody (cap : BitVec 3) : Body Result := fun e => (.ok (.bit (supportsBit e.io.backend.spec cap)), e)

/-- R180 `SUPPORTS`. -/
def execSupports (cap : BitVec 3) (s : State) : Host.Outcome State Fault Refusal := command (supportsBody cap) s

end Sys2Proof.Machine
end

