-- ==== Sys2Proof/Syntax.lean ====
section
/-! DEFINITION. The operations of 30_encoding.md R87, one constructor per row of spec/opcode_table.json, operands in
the order R87 lists them. -/

namespace Sys2Proof

/-- An operation with its operands (R86, R87). -/
inductive Instr where
  | getFrequency
  | setFrequency (hz : Nat)
  | getState
  | setState (target : TapState) (forceReset : Bool)
  | executeScan (target : ScanTarget) (direction : Direction) (bitLength : Nat) (endState : TapState)
      (inputBits : BitSeq)
  | rawEdge (modeBit dataInBit : Bool)
  | addDevice (irLength : Nat)
  | buildInstructionPayload (targetIndex : Nat) (instructionBits : BitSeq)
  | discoverIdentifiers
  | dataPadding (targetIndex : Nat)
  | attach (layout : List Nat) (backend : BackendSpec)
  | detach
  | transfer (modeBits dataInBits : BitSeq) (bitLength : Nat)
  | edge (modeBit dataInBit : Bool)
  | freqGet
  | freqSet (hz : Nat)
  | stateGet
  | stateSet (target : TapState) (forceReset : Bool)
  | enable
  | disable
  | supports (cap : BitVec 3)
  | next (state : TapState) (bit : Bool)
  | path (source target : TapState)
  | hardReset
  | run (state : TapState) (bits : BitSeq)
  deriving DecidableEq, Repr

end Sys2Proof
end

