-- ==== Sys2Proof/Machine/Dispatch.lean ====
section
/-! DEFINITION. One arm per operation of R87, each one call of its meaning. -/

namespace Sys2Proof.Machine

def exec (i : Instr) (s : State) : Host.Outcome State Fault Refusal :=
  match i with
  | .getFrequency => Sys2Proof.Machine.execGetFrequency s
  | .setFrequency hz => Sys2Proof.Machine.execSetFrequency hz s
  | .getState => Sys2Proof.Machine.execGetState s
  | .setState target forceReset => Sys2Proof.Machine.execSetState target forceReset s
  | .executeScan target direction bitLength endState inputBits => Sys2Proof.Machine.execExecuteScan target direction bitLength endState inputBits s
  | .rawEdge modeBit dataInBit => Sys2Proof.Machine.execRawEdge modeBit dataInBit s
  | .addDevice irLength => Sys2Proof.Machine.execAddDevice irLength s
  | .buildInstructionPayload targetIndex instructionBits => Sys2Proof.Machine.execBuildInstructionPayload targetIndex instructionBits s
  | .discoverIdentifiers => Sys2Proof.Machine.execDiscoverIdentifiers s
  | .dataPadding targetIndex => Sys2Proof.Machine.execDataPadding targetIndex s
  | .attach layout backend => Sys2Proof.Machine.execAttach layout backend s
  | .detach => Sys2Proof.Machine.execDetach s
  | .transfer modeBits dataInBits bitLength => Sys2Proof.Machine.execTransfer modeBits dataInBits bitLength s
  | .edge modeBit dataInBit => Sys2Proof.Machine.execEdge modeBit dataInBit s
  | .freqGet => Sys2Proof.Machine.execFreqGet s
  | .freqSet hz => Sys2Proof.Machine.execFreqSet hz s
  | .stateGet => Sys2Proof.Machine.execStateGet s
  | .stateSet target forceReset => Sys2Proof.Machine.execStateSet target forceReset s
  | .enable => Sys2Proof.Machine.execEnable s
  | .disable => Sys2Proof.Machine.execDisable s
  | .supports cap => Sys2Proof.Machine.execSupports cap s
  | .next state bit => Sys2Proof.Machine.execNext state bit s
  | .path source target => Sys2Proof.Machine.execPath source target s
  | .hardReset => Sys2Proof.Machine.execHardReset s
  | .run state bits => Sys2Proof.Machine.execRun state bits s

end Sys2Proof.Machine
end

