-- ==== Sys2Proof/WellFormed.lean ====
section
/-! DEFINITION. When an operation is well formed. Operands are typed (R91, D47), so only the parameters that travel
with the backend of an `attach` can break a constraint of R8 or R204. An operand that a rule rejects with an error
result or a refusal (a zero length, a reserved direction code, a mask that is not admitted) is NOT ill formed: it is
executed. -/

namespace Sys2Proof

/-- R8: `MAX_TRANSFER_BITS` is at least 6 when it is set. -/
def Variant.limitOk : Variant → Bool
  | .accelerated (some m) => 6 ≤ m
  | .bulk (some m) => 6 ≤ m
  | _ => true

/-- R204, R191: an admitted bitbang backend contains RAW_EDGE and not STATE. A mask that is not admitted is left to
`attach`, which refuses it (R91, R270). -/
def BackendSpec.bitbangCapsOk (b : BackendSpec) : Bool :=
  match b.variant with
  | .bitbang => !Machine.maskAdmitted b.caps || (b.caps.getLsbD 3 && !b.caps.getLsbD 2)
  | _ => true

/-- R8, R204: the constraints on the parameters of a backend instance. -/
def BackendSpec.wf (b : BackendSpec) : Bool :=
  b.variant.limitOk && b.bitbangCapsOk &&
    (match b.maxScan with | some m => decide (1 ≤ m) | none => true) && decide (1 ≤ b.rate)

/-- Well-formedness of an operation. -/
def Instr.wf : Instr → Bool
  | .attach _ b => b.wf
  | .getFrequency | .setFrequency _ | .getState | .setState _ _ | .executeScan _ _ _ _ _ | .rawEdge _ _
  | .addDevice _ | .buildInstructionPayload _ _ | .discoverIdentifiers | .dataPadding _ | .detach
  | .transfer _ _ _ | .edge _ _ | .freqGet | .freqSet _ | .stateGet | .stateSet _ _ | .enable | .disable
  | .supports _ | .next _ _ | .path _ _ | .hardReset | .run _ _ => true

end Sys2Proof
end

