-- ==== Sys2Proof/Decode.lean ====
section
/-! DEFINITION. The decoder and the encoder of command records (R86, R87). A record is the 8-bit operation code and
the operand fields in R87's order, each with the width the spec gives it, least significant bit first (R12, R56),
packed without gaps and filled with zero bits to a whole byte. The spec gives no layout for its unbounded naturals
(R9), its sequences and the backend operand: log entry 2 fixes them. -/

namespace Sys2Proof

open Sys2Proof.Machine

/-- Why the decoder rejects a record. -/
inductive Reject where
  /-- R91, R261: an operation code that R87 does not list. -/
  | unknownOperation (code : Nat)
  /-- The record ends before its operands do. -/
  | truncated
  /-- Code 3 of the backend's variant field. -/
  | reservedVariant
  /-- R8, R204: the backend operand breaks a constraint on its parameters. -/
  | illFormedBackend
  deriving DecidableEq, Repr

/-- A field read from the front of a bit sequence, with what follows it. -/
abbrev RecordField (α : Type) := BitSeq → Option (α × BitSeq)

/-- One field after another. -/
def fieldThen {α β : Type} (m : RecordField α) (f : α → RecordField β) : RecordField β := fun b =>
  match m b with
  | some (a, r) => f a r
  | none => none

/-- The end of the fields. -/
def fieldDone {α : Type} (a : α) : RecordField α := fun b => some (a, b)

/-- R82: a bit is encoded as itself. -/
def takeBit : RecordField Bool
  | b :: r => some (b, r)
  | [] => none

/-- `n` bits, in order. -/
def takeBits : Nat → RecordField BitSeq
  | 0 => fieldDone []
  | n + 1 => fieldThen takeBit fun b => fieldThen (takeBits n) fun r => fieldDone (b :: r)

/-- A field of `n` bits read as a number (R12). -/
def takeFixed (n : Nat) : RecordField Nat := fieldThen (takeBits n) fun b => fieldDone (bitsToNat b)

/-- R80: a state, 4 bits. -/
def takeTap : RecordField TapState := fieldThen (takeFixed 4) fun c => fieldDone (tapOfCode c)

/-- Log entry 2: a natural number, its binary digits least significant first, each after a bit 1, ended by a bit 0. -/
def takeNat : RecordField Nat
  | false :: r => some (0, r)
  | true :: b :: r =>
    match takeNat r with
    | some (n, r') => some (b.toNat + 2 * n, r')
    | none => none
  | [true] => none
  | [] => none

/-- R86: a bit sequence carries its own length. -/
def takeSeq : RecordField BitSeq := fieldThen takeNat fun n => takeBits n

/-- `n` natural numbers. -/
def takeNats : Nat → RecordField (List Nat)
  | 0 => fieldDone []
  | n + 1 => fieldThen takeNat fun a => fieldThen (takeNats n) fun r => fieldDone (a :: r)

/-- R83: the scan target, 1 bit. -/
def takeTarget : RecordField ScanTarget := fieldThen takeBit fun b => fieldDone (if b then .data else .instruction)

/-- R83: the direction of a 2-bit code. -/
def directionOfCode : Nat → Direction
  | 0 => .write
  | 1 => .read
  | 2 => .readWrite
  | _ => .reserved

/-- R83: the scan direction, 2 bits. -/
def takeDirection : RecordField Direction := fieldThen (takeFixed 2) fun c => fieldDone (directionOfCode c)

/-- Log entry 2: an optional limit, a bit that says whether it is set, then its excess over the least value `low`. -/
def takeLimit (low : Nat) : RecordField (Option Nat) :=
  fieldThen takeBit fun b => if b then fieldThen takeNat fun n => fieldDone (some (n + low)) else fieldDone none

/-- Log entry 2: the variant, 2 bits, with the limit of a variant that has one; `none` for the reserved code. -/
def takeVariant : RecordField (Option Variant) :=
  fieldThen (takeFixed 2) fun c =>
    match c with
    | 0 => fieldThen (takeLimit 6) fun m => fieldDone (some (.accelerated m))
    | 1 => fieldDone (some .bitbang)
    | 2 => fieldThen (takeLimit 6) fun m => fieldDone (some (.bulk m))
    | _ => fieldDone none

/-- R87 `attach`'s operands: the layout, then the backend: its mask, variant, scan limit and rate. -/
def takeAttach : RecordField (Except Reject Instr) :=
  fieldThen takeNat fun n => fieldThen (takeNats n) fun layout =>
    fieldThen (takeFixed 8) fun caps => fieldThen takeVariant fun v =>
      fieldThen (takeLimit 1) fun maxScan => fieldThen takeNat fun rate =>
        fieldDone <|
          match v with
          | none => .error .reservedVariant
          | some v =>
            let b : BackendSpec := { variant := v, caps := BitVec.ofNat 8 caps, maxScan := maxScan, rate := rate + 1 }
            if b.wf then .ok (.attach layout b) else .error .illFormedBackend

/-- A field that is a whole instruction. -/
def instrOf (m : RecordField Instr) : RecordField (Except Reject Instr) := fieldThen m fun i => fieldDone (.ok i)

/-- R87: the operands that follow an operation code; `none` for a code the map does not list. -/
def operandsOf : Nat → Option (RecordField (Except Reject Instr))
  | 0x01 => some (instrOf (fieldDone .getFrequency))
  | 0x02 => some (instrOf (fieldThen takeNat fun hz => fieldDone (.setFrequency hz)))
  | 0x03 => some (instrOf (fieldDone .getState))
  | 0x04 => some (instrOf (fieldThen takeTap fun t => fieldThen takeBit fun f => fieldDone (.setState t f)))
  | 0x05 =>
    some (instrOf (fieldThen takeTarget fun p => fieldThen takeDirection fun d => fieldThen takeNat fun n =>
      fieldThen takeTap fun e => fieldThen takeSeq fun b => fieldDone (.executeScan p d n e b)))
  | 0x06 => some (instrOf (fieldThen takeBit fun m => fieldThen takeBit fun d => fieldDone (.rawEdge m d)))
  | 0x10 => some (instrOf (fieldThen takeNat fun n => fieldDone (.addDevice n)))
  | 0x11 =>
    some (instrOf (fieldThen takeNat fun t => fieldThen takeSeq fun b =>
      fieldDone (.buildInstructionPayload t b)))
  | 0x12 => some (instrOf (fieldDone .discoverIdentifiers))
  | 0x13 => some (instrOf (fieldThen takeNat fun t => fieldDone (.dataPadding t)))
  | 0x20 => some takeAttach
  | 0x21 => some (instrOf (fieldDone .detach))
  | 0x30 =>
    some (instrOf (fieldThen takeSeq fun m => fieldThen takeSeq fun d => fieldThen takeNat fun n =>
      fieldDone (.transfer m d n)))
  | 0x31 => some (instrOf (fieldThen takeBit fun m => fieldThen takeBit fun d => fieldDone (.edge m d)))
  | 0x32 => some (instrOf (fieldDone .freqGet))
  | 0x33 => some (instrOf (fieldThen takeNat fun hz => fieldDone (.freqSet hz)))
  | 0x34 => some (instrOf (fieldDone .stateGet))
  | 0x35 => some (instrOf (fieldThen takeTap fun t => fieldThen takeBit fun f => fieldDone (.stateSet t f)))
  | 0x36 => some (instrOf (fieldDone .enable))
  | 0x37 => some (instrOf (fieldDone .disable))
  | 0x38 => some (instrOf (fieldThen (takeFixed 3) fun c => fieldDone (.supports (BitVec.ofNat 3 c))))
  | 0x40 => some (instrOf (fieldThen takeTap fun s => fieldThen takeBit fun b => fieldDone (.next s b)))
  | 0x41 => some (instrOf (fieldThen takeTap fun a => fieldThen takeTap fun b => fieldDone (.path a b)))
  | 0x42 => some (instrOf (fieldDone .hardReset))
  | 0x43 => some (instrOf (fieldThen takeTap fun s => fieldThen takeSeq fun b => fieldDone (.run s b)))
  | _ => none

/-- The bits of the bytes of a record, the first byte first, each least significant bit first. -/
def bytesToBits (bytes : List Byte) : BitSeq := bytes.flatMap fun b => natToBits b.toNat 8

/-- R86: the instruction a record holds. What follows its operands is not read. -/
def decode : List Byte → Except Reject Instr
  | [] => .error .truncated
  | code :: rest =>
    match operandsOf code.toNat with
    | none => .error (.unknownOperation code.toNat)
    | some field =>
      match field (bytesToBits rest) with
      | some (r, _) => r
      | none => .error .truncated

/-! ### The encoder -/

/-- Log entry 2: the digits of a natural number, with fuel at least the number. -/
def putNatWith : Nat → Nat → BitSeq
  | 0, _ => [false]
  | fuel + 1, n => if n = 0 then [false] else true :: (n % 2 == 1) :: putNatWith fuel (n / 2)

/-- The field of a natural number. -/
def putNat (n : Nat) : BitSeq := putNatWith n n

/-- The field of a state. -/
def putTap (s : TapState) : BitSeq := natToBits (tapCode s) 4

/-- The field of a bit sequence. -/
def putSeq (b : BitSeq) : BitSeq := putNat b.length ++ b

/-- The field of a layout. -/
def putLayout (l : List Nat) : BitSeq := putNat l.length ++ l.flatMap putNat

/-- The field of a scan target. -/
def putTarget (p : ScanTarget) : BitSeq := [p == .data]

/-- R83: the code of a direction. -/
def directionCode : Direction → Nat
  | .write => 0
  | .read => 1
  | .readWrite => 2
  | .reserved => 3

/-- The field of a direction. -/
def putDirection (d : Direction) : BitSeq := natToBits (directionCode d) 2

/-- The field of an optional limit. -/
def putLimit (low : Nat) : Option Nat → BitSeq
  | none => [false]
  | some m => true :: putNat (m - low)

/-- The field of a variant. -/
def putVariant : Variant → BitSeq
  | .accelerated m => natToBits 0 2 ++ putLimit 6 m
  | .bitbang => natToBits 1 2
  | .bulk m => natToBits 2 2 ++ putLimit 6 m

/-- The field of a backend. -/
def putBackend (b : BackendSpec) : BitSeq :=
  natToBits b.caps.toNat 8 ++ putVariant b.variant ++ putLimit 1 b.maxScan ++ putNat (b.rate - 1)

/-- R87: the operation code. -/
def opcodeOf : Instr → Nat
  | .getFrequency => 0x01
  | .setFrequency _ => 0x02
  | .getState => 0x03
  | .setState _ _ => 0x04
  | .executeScan _ _ _ _ _ => 0x05
  | .rawEdge _ _ => 0x06
  | .addDevice _ => 0x10
  | .buildInstructionPayload _ _ => 0x11
  | .discoverIdentifiers => 0x12
  | .dataPadding _ => 0x13
  | .attach _ _ => 0x20
  | .detach => 0x21
  | .transfer _ _ _ => 0x30
  | .edge _ _ => 0x31
  | .freqGet => 0x32
  | .freqSet _ => 0x33
  | .stateGet => 0x34
  | .stateSet _ _ => 0x35
  | .enable => 0x36
  | .disable => 0x37
  | .supports _ => 0x38
  | .next _ _ => 0x40
  | .path _ _ => 0x41
  | .hardReset => 0x42
  | .run _ _ => 0x43

/-- R87: the operand fields in order. -/
def operandBits : Instr → BitSeq
  | .setFrequency hz => putNat hz
  | .setState t f => putTap t ++ [f]
  | .executeScan p d n e b => putTarget p ++ putDirection d ++ putNat n ++ putTap e ++ putSeq b
  | .rawEdge m d => [m, d]
  | .addDevice n => putNat n
  | .buildInstructionPayload t b => putNat t ++ putSeq b
  | .dataPadding t => putNat t
  | .attach l b => putLayout l ++ putBackend b
  | .transfer m d n => putSeq m ++ putSeq d ++ putNat n
  | .edge m d => [m, d]
  | .freqSet hz => putNat hz
  | .stateSet t f => putTap t ++ [f]
  | .supports c => natToBits c.toNat 3
  | .next s b => putTap s ++ [b]
  | .path a b => putTap a ++ putTap b
  | .run s b => putTap s ++ putSeq b
  | .getFrequency | .getState | .discoverIdentifiers | .detach | .freqGet | .stateGet | .enable | .disable
  | .hardReset => []

/-- The bits in bytes, filled with zero bits, with fuel at least their number. -/
def packBytes : Nat → BitSeq → List Byte
  | 0, _ => []
  | fuel + 1, b => if b.isEmpty then [] else BitVec.ofNat 8 (bitsToNat (b.take 8)) :: packBytes fuel (b.drop 8)

/-- R86: the record of an instruction. -/
def encode (i : Instr) : List Byte :=
  BitVec.ofNat 8 (opcodeOf i) :: packBytes (operandBits i).length (operandBits i)

/-- `n` bytes of a number, the least significant first. -/
def natToBytes : Nat → Nat → List Byte
  | 0, _ => []
  | n + 1, w => BitVec.ofNat 8 w :: natToBytes n (w / 256)

/-- A record whose first `nbits` bits are those of `w`, bit 0 the least significant bit of the first byte, and whose
operand bits above them are zeros. -/
def recordOfWord (nbits w : Nat) : List Byte := natToBytes ((nbits + 7) / 8) w ++ List.replicate 16 0#8

/-- What the decoder reads from a record given as the opcode table numbers its bits. -/
def decodeTableWord (nbits w : Nat) : Option Instr :=
  match decode (recordOfWord nbits w) with
  | .ok i => some i
  | .error _ => none

end Sys2Proof
end

