-- ==== Sys2Proof/Machine/Scheduling.lean ====
section
/-! DEFINITION. The callers' side of a step: which caller moves, which record is fetched, and how the host issues a
command (R17, R261, R318). -/

namespace Sys2Proof.Machine

/-- The oldest command of a caller. -/
def requestOf (c : CallerId) (s : State) : Option Request := s.inbox.find? fun q => q.caller == c

/-- The command that moves when the environment lists no turn: that of the lock's owner, else the oldest. -/
def defaultRequest (s : State) : Option Request :=
  match s.ctrl.lock.owner with
  | some c =>
    match requestOf c s with
    | some q => some q
    | none => s.inbox.head?
  | none => s.inbox.head?

/-- The first listed turn is used up. -/
def dropTurn (s : State) : State := { s with turns := s.turns.tail }

/-- The caller that moves in this step, and its choice at the lock. -/
def setMover (c : CallerId) (d : LockDraw) (s : State) : State := { s with caller := c, draw := d }

/-- What the next step does: the record it fetches and the state in which it runs, or only the state it leaves. -/
def fetch (s : State) : Option (List Byte) × State :=
  match s.turns with
  | [] =>
    match defaultRequest s with
    | some q => (some q.record, setMover q.caller .run s)
    | none => (none, s)
  | .lateCompletion :: _ => (none, dropTurn s)
  | .move c d :: _ =>
    match requestOf c s with
    | some q => (some q.record, setMover c d (dropTurn s))
    | none => (none, dropTurn s)

/-- R91, R261, R300: a record that is no operation of R87, or is malformed, is rejected with `InvalidArgument`
without taking the lock and has no other effect. -/
def rejectRecord (s : State) : State := complete (.error .invalidArgument) s

/-- R318: the host issues a command. -/
def issue (c : CallerId) (record : List Byte) (s : State) : State :=
  { s with inbox := s.inbox ++ [{ caller := c, record := record }] }

/-- The command of caller 0 put before every other, and its turn before every other turn. -/
def placeFirst (record : List Byte) (s : State) : State :=
  { s with inbox := { caller := 0, record := record } :: s.inbox, turns := .move 0 .run :: s.turns }

end Sys2Proof.Machine
end

