-- ==== Sys2Proof/Machine/Step.lean ====
section
/-! DEFINITION. One step of the machine: the next move of the environment, the record it fetches, and its
execution. With no command issued the engine performs no step (R340): the state stays as it is. -/

namespace Sys2Proof.Machine

/-- One step. -/
def step (s : State) : Host.Outcome State Fault Refusal :=
  match fetch s with
  | (none, s') => .next s'
  | (some record, s') =>
    match decode record with
    | .ok i => exec i s'
    | .error _ => .next (rejectRecord s')

/-- `s` with the instruction of a table word where the next step fetches it (log entry 4). -/
def State.withFetchWord (s : State) (nbits w : Nat) : State := placeFirst (recordOfWord nbits w) s

end Sys2Proof.Machine
end

