-- ==== Sys2Proof/Machine/Fleet.lean ====
section
/-! DEFINITION. Several controllers on distinct physical interfaces (R17, R66, R273): a list of machines, one of which
steps at a time, in any order. -/

namespace Sys2Proof.Machine

/-- R273: independent controllers. Each draws its free values by its own counter `drawn`, from the one set of constants of
`Config`: two controllers whose counters are equal draw the same value there, where the spec leaves open whether they
do. DESIGN CHOICE (log entries 5 and 19); the counters are data of each state, so a fleet can hold different ones. -/
abbrev Fleet := List State

/-- R66: machine `i` takes a step; a machine that stops by a refusal keeps its state, and the refusal is told. -/
def stepAt (i : Nat) (f : Fleet) : Fleet × Option Refusal :=
  match f[i]? with
  | none => (f, none)
  | some s =>
    match step s with
    | .next s' => (f.set i s', none)
    | .refused r => (f, some r)
    | .fault _ => (f, none)

end Sys2Proof.Machine
end

