-- ==== Sys2Proof/Safety.lean ====
section
/-! DEFINITION. The terms statements about the machine are made in: the launch premises of R355, the end of a run of
R354, the state a completed operation leaves, and the invariants. -/

namespace Sys2Proof

open Sys2Proof.Machine

/-! ### Classes of operations -/

/-- R318: the operations that run in the command frame (R261): all of R87 but the two of the lifecycle. -/
def Instr.takesLock : Instr → Bool
  | .attach _ _ | .detach => false
  | .getFrequency | .setFrequency _ | .getState | .setState _ _ | .executeScan _ _ _ _ _ | .rawEdge _ _
  | .addDevice _ | .buildInstructionPayload _ _ | .discoverIdentifiers | .dataPadding _ | .transfer _ _ _ | .edge _ _
  | .freqGet | .freqSet _ | .stateGet | .stateSet _ _ | .enable | .disable | .supports _ | .next _ _ | .path _ _
  | .hardReset | .run _ _ => true

/-- R87: the operations of class backend. -/
def Instr.isBackend : Instr → Bool
  | .transfer _ _ _ | .edge _ _ | .freqGet | .freqSet _ | .stateGet | .stateSet _ _ | .enable | .disable
  | .supports _ => true
  | .getFrequency | .setFrequency _ | .getState | .setState _ _ | .executeScan _ _ _ _ _ | .rawEdge _ _
  | .addDevice _ | .buildInstructionPayload _ _ | .discoverIdentifiers | .dataPadding _ | .attach _ _ | .detach
  | .next _ _ | .path _ _ | .hardReset | .run _ _ => false

/-! ### Launch premises (R355) and the end of a run (R354) -/

/-- R355: the controller is attached. -/
abbrev Attached (s : State) : Prop := s.ctrl.attached = true

/-- R355: the lock is `Idle` with no waiters. -/
abbrev LockQuiet (s : State) : Prop :=
  s.ctrl.lock.phase = .idle ∧ s.ctrl.lock.owner = none ∧ s.ctrl.lock.waiters = []

/-- R355: no transfer is outstanding (R34). -/
abbrev NothingOutstanding (io : Interface) : Prop := io.backend.regs.outstanding = false

/-- R355: `stateKnown` has the stated value `v`. -/
abbrev KnownIs (v : Bool) (e : Engine) : Prop := e.ctrl.stateKnown = v

/-- R355: if `stateKnown` is 1, `currentState` equals the target chain's common TAP state. -/
abbrev PositionTrue (e : Engine) : Prop := KnownIs true e → e.ctrl.currentState = e.io.target.tap

/-- R200, R272: on a backend with STATE the bookkeeping is consistent too, wherever the position is known. -/
abbrev BookTrue (e : Engine) : Prop :=
  hasCap e.io.backend.spec .state = true → KnownIs true e → e.io.backend.book = e.io.target.tap

/-- R355's clause on the position, and a consistent backend (R272). -/
abbrev Synced (e : Engine) : Prop := PositionTrue e ∧ BookTrue e

/-- R355: the target chain is the reference chain with these devices. -/
abbrev TargetIs (devices : List RefDevice) (s : State) : Prop := s.io.target.devices = some devices

/-- R355: the target chain is left unconstrained. -/
abbrev TargetOpen (s : State) : Prop := s.io.target.devices = none

/-- R354: the run is over. -/
abbrev RunEnded (s : State) : Prop := s.inbox = [] ∧ LockQuiet s ∧ NothingOutstanding s.io

/-! ### When an operation executes normally -/

/-- R260, R261: a command issued in this state reaches its body: the controller is attached, and the caller obtains
the lock (it is `Idle`, or the caller holds it already) and goes on. -/
abbrev Ready (s : State) : Prop :=
  s.ctrl.attached = true ∧ s.draw = .run ∧ (lockIdle s = true ∨ ownsLock s = true)

/-- D29: the environment fails none of the next backend calls. -/
abbrev NoFailure (io : Interface) : Prop := ∀ d ∈ io.outcomes, d = .completes

/-- R31, R201: the backend may be called: it has no ENABLE, or it is enabled. -/
abbrev Usable (io : Interface) : Prop := usable io.backend = true

/-- R201, D29: the next backend calls are made, and the environment fails none of them. -/
abbrev Serves (io : Interface) : Prop := Usable io ∧ NoFailure io

/-- R8: `MAX_TRANSFER_BITS` is at least 6 where it is set. -/
abbrev LimitOk (io : Interface) : Prop := ∀ m, maxTransferBits io.backend.spec = some m → 6 ≤ m

/-- R260, R318: the next turn lets caller `c` obtain the idle lock of an attached controller and hold it, with a command
issued that runs in the frame. -/
def Starts (c : CallerId) (s : State) : Prop :=
  s.ctrl.attached = true ∧ lockIdle s = true ∧ ∃ ts q i, s.turns = .move c .hold :: ts ∧ requestOf c s = some q ∧
    decode q.record = .ok i ∧ i.takesLock = true

/-- R25, R59: caller `c` holds the lock, and its command is in flight. -/
def Holds (c : CallerId) (s : State) : Prop :=
  s.ctrl.lock.phase = .busy ∧ s.ctrl.lock.owner = some c ∧ ∃ q, requestOf c s = some q

/-! ### What a completed operation leaves -/

/-- R261: the state after a command of the moving caller that ended with the engine `e` and the result `r`: the lock
released, the result delivered, the command no longer pending, and all else as it was. -/
def answer (s : State) (e : Engine) (r : Result) : State :=
  { s with
    ctrl :=
      { e.ctrl with lock := { phase := .idle, owner := none, waiters := dropWaiter s.caller s.ctrl.lock.waiters } }
    io := e.io
    results := s.results ++ [(s.caller, r)]
    inbox := s.inbox.eraseP fun q => q.caller == s.caller }

/-- The state after an operation or a rejection outside the frame, with the interface `io` and the result `r`. -/
def answerUnlocked (s : State) (io : Interface) (r : Result) : State :=
  { s with
    io := io
    results := s.results ++ [(s.caller, r)]
    inbox := s.inbox.eraseP fun q => q.caller == s.caller }

/-- The target chain after a sequence of edges (R35, R152). -/
def targetRun : List Edge → Target → Target
  | [], t => t
  | e :: es, t => targetRun es (targetEdge e t)

/-- R51: the register of a device that a path reaches. -/
def pathRegister (p : ScanTarget) (d : RefDevice) : BitSeq :=
  match p with
  | .data => d.drShift
  | .instruction => d.irShift

/-- R51: the serial concatenation of the registers a path reaches, the cell nearest data-out first. -/
def serial (p : ScanTarget) (ds : List RefDevice) : BitSeq := ds.flatMap (pathRegister p)

/-- What driving the edges `es` does to an interface, whatever the number of backend calls: the edges are recorded in
order, the target and the backend's bookkeeping follow them, and the instance's settings stay (R181, R200, R354), and
so do the registers that only another variant has (R32, R33). -/
structure Drives (es : List Edge) (io io' : Interface) : Prop where
  wire : wireEdges io' = wireEdges io ++ es
  target : io'.target = targetRun es io.target
  book : io'.backend.book = tapRun io.backend.book (es.map (·.tms))
  spec : io'.backend.spec = io.backend.spec
  enabled : io'.backend.enabled = io.backend.enabled
  rate : io'.backend.rate = io.backend.rate
  halfPeriod : io'.backend.halfPeriodNs = io.backend.halfPeriodNs
  opcodes : io'.opcodes = io.opcodes
  lines : io.backend.spec.variant ≠ .bitbang → io'.backend.lines = io.backend.lines
  regs : (∀ m, io.backend.spec.variant ≠ .accelerated m) → io'.backend.regs = io.backend.regs
  channel : (∀ m, io.backend.spec.variant ≠ .bulk m) → io'.backend.channel = io.backend.channel

/-- The five edges of the hard reset (R116). -/
def resetEdges : List Edge := edgesOf (ones Config.hardResetEdges) (zeros Config.hardResetEdges)

/-- R222, R265: the edges a navigation or scan command drives first: five when the position is not known. -/
def recoveryEdges (e : Engine) : List Edge := if e.ctrl.stateKnown then [] else resetEdges

/-- R222: the position a scan starts from. -/
def scanStart (e : Engine) : TapState := if e.ctrl.stateKnown then e.ctrl.currentState else .reset

/-- R223 to R226: every edge of a scan command, the recovery reset included. -/
def scanCommandEdges (eng : Engine) (p : ScanTarget) (d : Direction) (n : Nat) (e : TapState) (inputBits : BitSeq) :
    List Edge :=
  recoveryEdges eng ++ edgesOf (scanTms (scanStart eng) p n e) (scanTdi (scanStart eng) p d n e inputBits)

/-- R221: the checks of a scan, all passed. -/
abbrev ScanAccepted (io : Interface) (p : ScanTarget) (d : Direction) (n : Nat) (e : TapState) (inputBits : BitSeq) :
    Prop :=
  n ≠ 0 ∧ legalEnd p e = true ∧ (includesWrite d = true → inputBits.length = n) ∧
    overLimit io.backend.spec.maxScan n = false

/-- R226: the bits a scan command captures, out of those sampled on all its edges one by one. -/
def scanBits (eng : Engine) (p : ScanTarget) (d : Direction) (n : Nat) (e : TapState) (inputBits : BitSeq) : BitSeq :=
  capturedOf d ((recoveryEdges eng).length + (tapPath (scanStart eng) (shiftOf p)).length) n
    (driveEdges (scanCommandEdges eng p d n e inputBits) eng.io).1

/-- R146: the edges of one round of the discovery that starts in `start`, for device `i` of the chain: the instruction
scan that selects its identifier, and the data scan. -/
def discoveryRound (opcodes : List BitSeq) (chain : List ChainDevice) (start : TapState) (i : Nat) (d : ChainDevice) :
    List Edge :=
  let n := totalIr chain
  let m := Config.idcodeBits + chain.length - 1
  let payload := payloadFor d (idcodeOpcodeOf opcodes i d.irLength)
  edgesOf (scanTms start .instruction n .idle) (scanTdi start .instruction .write n .idle payload) ++
    edgesOf (scanTms .idle .data m .idle) (scanTdi .idle .data .read m .idle [])

/-- R146, R148: the edges of the rounds for the devices of these positions, in order; a device that has its identifier
is passed over. -/
def discoveryEdges (opcodes : List BitSeq) (chain : List ChainDevice) : TapState → List Nat → List Edge
  | _, [] => []
  | start, i :: r =>
    match chain[i]? with
    | none => discoveryEdges opcodes chain start r
    | some d =>
      if d.idcode.isSome then discoveryEdges opcodes chain start r
      else discoveryRound opcodes chain start i d ++ discoveryEdges opcodes chain .idle r

/-- R272: the position a command that drove edges leaves: the backend's where it has STATE. -/
def refreshed (io : Interface) (t : TapState) : TapState := if hasCap io.backend.spec .state then io.backend.book else t

/-- R265, R200: the mode bits of a `setState`; on a backend with STATE the path starts from its bookkeeping. -/
def setStateBits (e : Engine) (target : TapState) (forceReset : Bool) : BitSeq :=
  if forceReset || !e.ctrl.stateKnown then ones Config.hardResetEdges ++ tapPath .reset target
  else tapPath (if hasCap e.io.backend.spec .state then e.io.backend.book else e.ctrl.currentState) target

/-- R233: how many of the edges are taken in the state `q`, by a TAP that starts in `s`. -/
def takenIn (q : TapState) : TapState → BitSeq → Nat
  | _, [] => 0
  | s, b :: r => (if s = q then 1 else 0) + takenIn q (tapNext s b) r

/-! ### The tables of the spec -/

/-- R110: the rows of the transition table: a state, its successor on 0, its successor on 1. -/
def transitionTable : List (TapState × TapState × TapState) :=
  [(.reset, .idle, .reset), (.idle, .idle, .selectDR), (.selectDR, .captureDR, .selectIR),
    (.captureDR, .shiftDR, .exit1DR), (.shiftDR, .shiftDR, .exit1DR), (.exit1DR, .pauseDR, .updateDR),
    (.pauseDR, .pauseDR, .exit2DR), (.exit2DR, .shiftDR, .updateDR), (.updateDR, .idle, .selectDR)] ++
  [(.selectIR, .captureIR, .reset), (.captureIR, .shiftIR, .exit1IR), (.shiftIR, .shiftIR, .exit1IR),
    (.exit1IR, .pauseIR, .updateIR), (.pauseIR, .pauseIR, .exit2IR), (.exit2IR, .shiftIR, .updateIR),
    (.updateIR, .idle, .selectDR)]

/-- R112: the number of one-edges that first reaches Reset. -/
def onesToReset : TapState → Nat
  | .reset => 0
  | .selectIR => 1
  | .selectDR => 2
  | .idle | .updateDR | .updateIR => 3
  | .exit1DR | .exit2DR | .exit1IR | .exit2IR => 4
  | .captureDR | .shiftDR | .pauseDR | .captureIR | .shiftIR | .pauseIR => 5

/-- R348, R350: the segment {Capture, Shift, Exit1, Pause, Exit2} of a path. -/
def segment : ScanTarget → List TapState
  | .data => [.captureDR, .shiftDR, .exit1DR, .pauseDR, .exit2DR]
  | .instruction => [.captureIR, .shiftIR, .exit1IR, .pauseIR, .exit2IR]

/-- The Update state of a path. -/
def updateOf : ScanTarget → TapState
  | .data => .updateDR
  | .instruction => .updateIR

/-- R87: the operation codes. -/
def listedCodes : List Nat :=
  [0x01, 0x02, 0x03, 0x04, 0x05, 0x06, 0x10, 0x11, 0x12, 0x13, 0x20, 0x21] ++
    [0x30, 0x31, 0x32, 0x33, 0x34, 0x35, 0x36, 0x37, 0x38, 0x40, 0x41, 0x42, 0x43]

/-! ### Invariants -/

/-- R28: the padding of every device is the one its position gives it, and no length is zero. -/
abbrev ChainOk (c : List ChainDevice) : Prop := recompute c = c ∧ ∀ d ∈ c, 1 ≤ d.irLength

/-- R25: the owner is set exactly when the phase is `Busy`, and the waiters are a set that does not hold the owner. -/
abbrev LockOk (l : Lock) : Prop :=
  (l.phase = .busy ↔ l.owner.isSome) ∧ l.waiters.Nodup ∧ ∀ c, l.owner = some c → c ∉ l.waiters

/-- R150: the registers of a reference device have the lengths the rule gives them. -/
abbrev RefDeviceOk (d : RefDevice) : Prop :=
  1 ≤ d.irLength ∧ d.op.length = d.irLength ∧ d.irShift.length = d.irLength ∧ d.irLatch.length = d.irLength ∧
    (d.drShift.length = 1 ∨ d.drShift.length = 32)

/-- R150, R154: the states in which the data shift stage of a device is that of the register its instruction selects:
from the edge that loads it until the instruction can change. -/
def dataShiftStates : List TapState := [.shiftDR, .exit1DR, .pauseDR, .exit2DR]

/-- R150: a reference chain. The registers have their lengths, `op` is `IDCODE_OPCODE` of the position, and between a
load and the next Update the data shift stage has the length of the register selected. -/
abbrev ReferenceOk (opcodes : List BitSeq) (t : Target) : Prop :=
  ∀ ds, t.devices = some ds → ∀ j d, ds[j]? = some d →
    RefDeviceOk d ∧ d.op = idcodeOpcodeOf opcodes j d.irLength ∧
      (t.tap ∈ dataShiftStates → d.drShift.length = selectedLength d)

/-- R158: a device of a reference chain at its start: the data shift stage has the length of the register selected,
whatever the TAP state. -/
abbrev StartsSelected (d : RefDevice) : Prop := d.drShift.length = selectedLength d

/-- R8, R22, R25, R28, R34, R150: the data of the machine keep the form the spec gives them. -/
structure MachineOk (s : State) : Prop where
  chain : ChainOk s.ctrl.chain
  lock : LockOk s.ctrl.lock
  frequency : 1 ≤ s.ctrl.frequencyHz
  rate : 1 ≤ s.io.backend.rate
  limit : LimitOk s.io
  outstanding : NothingOutstanding s.io
  devices : ReferenceOk s.io.opcodes s.io.target

end Sys2Proof
end

