-- ==== Sys2Proof/Certificates/Slice0/Obligations.lean ====
section
/-! DEFINITION. The statements about the machine, made from the numbered rules of the spec. `answer` and
`answerUnlocked` (Safety) give the whole state after an operation, so a statement that equates `exec` with one of them
states the frame too: nothing else changes. `Ready` says that the command frame of R261 reaches the operation's body,
`Serves` that the backend may be called (R201) and the environment fails none of the calls (D29).
`Drives` gives the interface after edges. -/

open Sys2Proof Sys2Proof.Machine

/-! ### The TAP State Machine -/

/-- R110, R318: `NEXT`, where the command frame reaches it, answers the successor and changes no state; the graph is the
rule's table, which has a row for every state, the states with a self-loop are `STABLE`, and the only edges into Reset
are its self-loop and `next(SelectIR, 1)`. -/
def Obligations.NextFollowsTheGraph : Prop :=
  (∀ s state bit, Ready s → exec (.next state bit) s = .next (answer s s.toEngine (.tap (tapNext state bit)))) ∧
    (∀ row ∈ transitionTable, tapNext row.1 false = row.2.1 ∧ tapNext row.1 true = row.2.2) ∧
    (∀ state, ∃ row ∈ transitionTable, row.1 = state) ∧
    (∀ state, stable state = true ↔ tapNext state false = state ∨ tapNext state true = state) ∧
    (∀ state bit, tapNext state bit = .reset ↔ bit = true ∧ (state = .reset ∨ state = .selectIR)) ∧
    ∀ state bit, opcodeOf (.next state bit) = 0x40

/-- R117, R318: `RUN`, where the command frame reaches it, answers the state after a sequence of mode bits, one `next`
for each. -/
def Obligations.RunFollowsNext : Prop :=
  (∀ s state bits, Ready s → exec (.run state bits) s = .next (answer s s.toEngine (.tap (tapRun state bits)))) ∧
    (∀ state, tapRun state [] = state) ∧
    (∀ state b rest, tapRun state (b :: rest) = tapRun (tapNext state b) rest) ∧
    (∀ state a b, tapRun state (a ++ b) = tapRun (tapRun state a) b) ∧
    tapRun .idle [true, false, false] = .shiftDR ∧ ∀ state bits, opcodeOf (.run state bits) = 0x43

/-- R113, R318: `PATH`, where the command frame reaches it, answers the canonical path, which is the one shortest
sequence of mode bits to its target. -/
def Obligations.PathIsTheShortest : Prop :=
  (∀ s a b, Ready s → exec (.path a b) s = .next (answer s s.toEngine (.bits (tapPath a b)))) ∧
    (∀ a b, tapRun a (tapPath a b) = b ∧ (tapPath a b).length ≤ 8) ∧
    (∀ a b p, tapRun a p = b → p = tapPath a b ∨ (tapPath a b).length < p.length) ∧
    (∀ a, tapPath a a = [] ∧ tapPath a .reset = ones (onesToReset a) ∧ onesToReset a ≤ 5) ∧
    tapPath .shiftDR .exit2IR = [true, true, true, true, false, true, false, true] ∧
    tapPath .idle .shiftDR = [true, false, false] ∧ tapPath .idle .shiftIR = [true, true, false, false] ∧
    ∀ a b, opcodeOf (.path a b) = 0x41

/-- R115: the laws of canonical paths that the Scan Engine relies on. -/
def Obligations.CanonicalPathLaws : Prop :=
  (∀ a b, tapRun a (tapPath a b) = b ∧ ∀ n < (tapPath a b).length, tapRun a ((tapPath a b).take n) ≠ b) ∧
    (∀ s, (tapPath s .shiftDR).length ≤ 5 ∧ (tapPath s .shiftIR).length ≤ 6) ∧
    (∀ p, tapPath (exit1Of p) .reset = [true, true, true, true] ∧ tapPath (exit1Of p) .idle = [true, false] ∧
      tapPath (exit1Of p) (pauseOf p) = [false]) ∧
    (∀ s, s = .captureDR ∨ s = .shiftDR ∨ s = .pauseDR ↔ (tapPath s .shiftIR).length = 6) ∧
    (∀ s, s = .captureDR ∨ s = .shiftDR ∨ s = .pauseDR → tapPath s .shiftIR = ones 4 ++ zeros 2) ∧
    tapPath .pauseIR .shiftDR = [true, true, true, false, false] ∧
    ∀ p q s, p ≠ q → s = pauseOf p ∨ s = shiftOf p →
      ∃ n ≤ (tapPath s (shiftOf q)).length, tapRun s ((tapPath s (shiftOf q)).take n) = updateOf p

/-- R112: five one-edges reach Reset from every state, each state first at its own count, no smaller count works from
every state, and Reset is kept. -/
def Obligations.FiveOnesReachReset : Prop :=
  (∀ s, tapRun s (ones 5) = .reset) ∧
    (∀ s, tapRun s (ones (onesToReset s)) = .reset ∧ ∀ k < onesToReset s, tapRun s (ones k) ≠ .reset) ∧
    (∀ m, (∀ s, tapRun s (ones m) = .reset) → 5 ≤ m) ∧ ∀ m, tapRun .reset (ones m) = .reset

/-- R350: a sequence of mode bits, of any length, that leads out of the segment of a path passes the path's Update
state. -/
def Obligations.NavigationPassesUpdate : Prop :=
  ∀ (p : ScanTarget) (s : TapState) (bits : BitSeq), s ∈ segment p → tapRun s bits ∉ segment p →
    ∃ n ≤ bits.length, tapRun s (bits.take n) = updateOf p

/-! ### Records -/

/-- R86, R87: the decoder reads back every operand of every well-formed operation from its record. The layout of the
operand fields is log entry 2, the model's choice. -/
def Obligations.DecodeInvertsEncode : Prop := ∀ i : Instr, i.wf = true → decode (encode i) = .ok i

/-- R87, R80: records written out from the operation codes of R87 and the state codes of R80 decode to the operations
they stand for. The bytes beyond each operation code rest on the layout of log entry 2, the model's choice. -/
def Obligations.SampleRecordsDecode : Prop :=
  decode [0x01#8] = .ok .getFrequency ∧ decode [0x04#8, 0x10#8] = .ok (.setState .reset true) ∧
    decode [0x06#8, 0x01#8] = .ok (.rawEdge true false) ∧ decode [0x10#8, 0x35#8] = .ok (.addDevice 4) ∧
    decode [0x21#8] = .ok .detach ∧ decode [0x31#8, 0x02#8] = .ok (.edge false true) ∧
    decode [0x38#8, 0x02#8] = .ok (.supports 2#3) ∧ decode [0x40#8, 0x12#8] = .ok (.next .selectDR true) ∧
    decode [0x41#8, 0xb1#8] = .ok (.path .idle .shiftIR) ∧ decode [0x42#8] = .ok .hardReset

/-- R8, R204: whatever the decoder reads is well formed. That the decoder, and not the attach, rejects an admitted
bitbang mask that breaks R204 is log entry 33, the model's choice. -/
def Obligations.DecodedIsWellFormed : Prop := ∀ (record : List Byte) (i : Instr), decode record = .ok i → i.wf = true

/-- R91, R261: a record with an operation code that R87 does not list is answered `InvalidArgument` without the lock
and with no other effect; so is a record that is malformed (log entry 2, the model's choice). -/
def Obligations.RejectedRecordsAnswerInvalidArgument : Prop :=
  (∀ (code : Byte) (rest : List Byte), code.toNat ∉ listedCodes →
      decode (code :: rest) = .error (.unknownOperation code.toNat)) ∧
    ∀ (s s' : State) (record : List Byte) (e : Reject), fetch s = (some record, s') → decode record = .error e →
      step s = .next (answerUnlocked s' s'.io (.error .invalidArgument))

/-! ### A step -/

/-- R17, R261, R318: a step runs the operation that the record of the moving caller decodes to, with that caller and
its choice at the lock; around it a step only
uses up the turn. With no turn listed, the lock's owner or else the oldest command moves, log entry 7, the model's
choice. -/
def Obligations.StepRunsTheDecodedOperation : Prop :=
  (∀ (s : State) (c : CallerId) (d : LockDraw) (ts : List Turn) (q : Request) (i : Instr),
      s.turns = .move c d :: ts → requestOf c s = some q → decode q.record = .ok i →
        step s = exec i { s with turns := ts, caller := c, draw := d }) ∧
    ∀ (s : State) (q : Request) (i : Instr), s.turns = [] → defaultRequest s = some q → decode q.record = .ok i →
      step s = exec i { s with caller := q.caller, draw := .run }

/-- R340, R310: with no command issued the machine performs no step, and a completion signal that comes after its
transfer timed out is ignored; only the environment's turn is used up. -/
def Obligations.IdleStepsChangeNothing : Prop :=
  (∀ s : State, s.inbox = [] → step s = .next { s with turns := s.turns.tail }) ∧
    ∀ (s : State) (ts : List Turn), s.turns = .lateCompletion :: ts → step s = .next { s with turns := ts }

/-! ### The Chain Model -/

/-- R140, R28, R29: the padding that a recomputation gives every device: its index, the lengths before it and the
lengths after it; with its own length they make the total. A second recomputation changes nothing, and one is made
after every append. -/
def Obligations.RecomputeGivesPadding : Prop :=
  (∀ (ch : List ChainDevice) (i : Nat), (recompute ch)[i]? = ch[i]?.map fun d =>
      { d with
        positionIndex := i, bypassBeforeBits := ((ch.take i).map (·.irLength)).sum
        bypassAfterBits := ((ch.drop (i + 1)).map (·.irLength)).sum }) ∧
    (∀ (ch : List ChainDevice) (d : ChainDevice), recompute ch = ch → d ∈ ch →
      d.bypassBeforeBits + d.irLength + d.bypassAfterBits = totalIr ch) ∧
    (∀ ch : List ChainDevice, recompute (recompute ch) = recompute ch) ∧
    (∀ ch : List ChainDevice, totalIr ch = (ch.map (·.irLength)).sum) ∧
    ∀ (ch : List ChainDevice) (n : Nat), ∃ d : ChainDevice, d.irLength = n ∧ d.idcode = none ∧
      appendDevice ch n = recompute (ch ++ [d])

/-- R141, R268: `addDevice` appends a device without identifier and recomputes the padding of all of them; it rejects
a zero length and a frozen chain with no effect. -/
def Obligations.AddDeviceAppends : Prop :=
  (∀ (s : State) (n : Nat), Ready s → n ≠ 0 → s.ctrl.chainFrozen = false →
      exec (.addDevice n) s =
        .next (answer s { s.toEngine with ctrl := { s.ctrl with chain := appendDevice s.ctrl.chain n } } .ack)) ∧
    (∀ (s : State) (n : Nat), Ready s → n = 0 ∨ s.ctrl.chainFrozen = true →
      exec (.addDevice n) s = .next (answer s s.toEngine (.error .invalidArgument))) ∧
    ∀ (ch : List ChainDevice) (n : Nat),
      (appendDevice ch n).map (fun d => (d.irLength, d.idcode)) =
          ch.map (fun d => (d.irLength, d.idcode)) ++ [(n, none)] ∧
        recompute (appendDevice ch n) = appendDevice ch n ∧ opcodeOf (.addDevice n) = 0x10

/-- R143, R269: `buildInstructionPayload` puts ones around the instruction bits, `totalIr` bits in all, and rejects an
index out of range and an instruction of another length; it changes no state. -/
def Obligations.PayloadPadsWithOnes : Prop :=
  (∀ (s : State) (t : Nat) (ib : BitSeq) (d : ChainDevice), Ready s → s.ctrl.chain[t]? = some d →
      ib.length = d.irLength →
        exec (.buildInstructionPayload t ib) s =
          .next (answer s s.toEngine (.bits (ones d.bypassBeforeBits ++ ib ++ ones d.bypassAfterBits)))) ∧
    (∀ (s : State) (t : Nat) (ib : BitSeq), Ready s → (∀ d, s.ctrl.chain[t]? = some d → ib.length ≠ d.irLength) →
      exec (.buildInstructionPayload t ib) s = .next (answer s s.toEngine (.error .invalidArgument))) ∧
    ∀ (ch : List ChainDevice) (t : Nat) (ib : BitSeq) (d : ChainDevice), recompute ch = ch → ch[t]? = some d →
      ib.length = d.irLength →
        (ones d.bypassBeforeBits ++ ib ++ ones d.bypassAfterBits).length = totalIr ch ∧
          opcodeOf (.buildInstructionPayload t ib) = 0x11

/-- R145, R269: `dataPadding` counts the devices before and after, and rejects an index out of range. -/
def Obligations.DataPaddingCountsDevices : Prop :=
  ∀ (s : State) (t : Nat), Ready s →
    (t < s.ctrl.chain.length →
        exec (.dataPadding t) s = .next (answer s s.toEngine (.padding t (s.ctrl.chain.length - 1 - t)))) ∧
      (s.ctrl.chain.length ≤ t →
        exec (.dataPadding t) s = .next (answer s s.toEngine (.error .invalidArgument))) ∧
      opcodeOf (.dataPadding t) = 0x13

/-- R146, R148, R277: `discoverIdentifiers`, where the backend serves and no scan is over the backend's limit,
gives every device an identifier, keeps those already written and every other field of the chain, and drives exactly
the recovery edges and then, for every device without identifier in order, the edges of its instruction scan and of its
data scan; it ends in Idle with the position known (on a backend with STATE, where its bookkeeping says). With every
identifier written, or no device, the recovery edges are all it drives, the position is known then, and a position that
was known is kept: that an empty chain is reset too is log entry 10, the model's choice. -/
def Obligations.DiscoveryFillsIdentifiers : Prop :=
  ∀ s : State, Ready s → Serves s.io → LimitOk s.io → ChainOk s.ctrl.chain →
    overLimit s.io.backend.spec.maxScan (totalIr s.ctrl.chain) = false →
      overLimit s.io.backend.spec.maxScan (31 + s.ctrl.chain.length) = false →
        ∃ e es, exec .discoverIdentifiers s = .next (answer s e .ack) ∧ Drives es s.io e.io ∧
          e.ctrl.chain.map (fun d : ChainDevice => { d with idcode := none }) =
            s.ctrl.chain.map (fun d : ChainDevice => { d with idcode := none }) ∧
          (∀ (k : Nat) (d d' : ChainDevice), s.ctrl.chain[k]? = some d → e.ctrl.chain[k]? = some d' →
            d'.idcode.isSome = true ∧ (d.idcode.isSome = true → d'.idcode = d.idcode)) ∧
          es = recoveryEdges s.toEngine ++
            discoveryEdges s.io.opcodes s.ctrl.chain (scanStart s.toEngine) (List.range s.ctrl.chain.length) ∧
          ((∀ d ∈ s.ctrl.chain, d.idcode.isSome = true) →
            es = recoveryEdges s.toEngine ∧
              e.ctrl = { s.ctrl with currentState := scanStart s.toEngine, stateKnown := true } ∧
              (s.ctrl.stateKnown = true → e = s.toEngine)) ∧
          ((∃ d ∈ s.ctrl.chain, d.idcode = none) →
            e.ctrl =
              { s.ctrl with
                currentState := refreshed e.io .idle, stateKnown := true, chainFrozen := true, chain := e.ctrl.chain })

/-- R146, R269, R307, R231, R277: a `discoverIdentifiers` that ends in an error has met it in the round of some device
`j` without identifier, or, with no such device, in the hard reset of a position that was not known. The position is not
known then; the edges of the rounds before and a prefix of those of round `j` have been delivered; the devices before `j`
have their identifiers, device `j` and those after it are as they were, and no identifier written before has changed. A
backend failure of a round leaves the chain frozen, and nothing else of the controller changes. -/
def Obligations.FailedDiscoveryKeepsWhatItFound : Prop :=
  ∀ (s t : State) (k : ErrKind), Ready s → LimitOk s.io → exec .discoverIdentifiers s = .next t →
    t.results = s.results ++ [(s.caller, .error k)] →
      ∃ e es, t = answer s e (.error k) ∧ Drives es s.io e.io ∧
        es <+: recoveryEdges s.toEngine ++
          discoveryEdges s.io.opcodes s.ctrl.chain (scanStart s.toEngine) (List.range s.ctrl.chain.length) ∧
        (((∀ d ∈ s.ctrl.chain, d.idcode.isSome = true) ∧ s.ctrl.stateKnown = false ∧ e.ctrl = s.ctrl) ∨
          ∃ j d, s.ctrl.chain[j]? = some d ∧ d.idcode = none ∧
            e.ctrl =
              { s.ctrl with
                currentState := e.ctrl.currentState, stateKnown := false, chainFrozen := e.ctrl.chainFrozen
                chain := e.ctrl.chain } ∧
            (s.ctrl.chainFrozen = true ∨ k = .timeoutError ∨ k = .busFault → e.ctrl.chainFrozen = true) ∧
            e.ctrl.chain.map (fun d : ChainDevice => { d with idcode := none }) =
              s.ctrl.chain.map (fun d : ChainDevice => { d with idcode := none }) ∧
            ∀ (i : Nat) (x x' : ChainDevice), s.ctrl.chain[i]? = some x → e.ctrl.chain[i]? = some x' →
              (i < j → x'.idcode.isSome = true) ∧ (j ≤ i ∨ x.idcode.isSome = true → x'.idcode = x.idcode))

/-- R142, R148, R26: whatever a step of an operation other than `attach` does, the chain keeps its devices in order
with their lengths, an identifier once written stays, a frozen chain grows no more, and the freeze stays. -/
def Obligations.ChainIsAppendOnly : Prop :=
  ∀ (i : Instr) (s t : State), (∀ layout b, i ≠ .attach layout b) → exec i s = .next t →
    (∀ (k : Nat) (d : ChainDevice), s.ctrl.chain[k]? = some d → ∃ d', t.ctrl.chain[k]? = some d' ∧
        d'.irLength = d.irLength ∧ (d.idcode.isSome = true → d'.idcode = d.idcode)) ∧
      (s.ctrl.chainFrozen = true → t.ctrl.chainFrozen = true ∧ t.ctrl.chain.length = s.ctrl.chain.length)

/-! ### The target chain -/

/-- R234: a scan body of `n` edges over a path of reference devices samples the first `n` bits of the path's registers
followed by the bits shifted in, and leaves the rest in the registers; nothing else of a device changes. -/
def Obligations.ShiftLaw : Prop :=
  ∀ (p : ScanTarget) (io : Interface) (ds : List RefDevice) (tdi : BitSeq), tdi ≠ [] →
    io.target = { tap := shiftOf p, devices := some ds } → ds ≠ [] → (∀ d ∈ ds, pathRegister p d ≠ []) →
      (driveEdges (edgesOf (bodyTms tdi.length) tdi) io).1 = (serial p ds ++ tdi).take tdi.length ∧
        ∃ ds', (driveEdges (edgesOf (bodyTms tdi.length) tdi) io).2.target =
            { tap := exit1Of p, devices := some ds' } ∧
          serial p ds' = (serial p ds ++ tdi).drop tdi.length ∧
          ds'.map (fun d => (pathRegister p d).length) = ds.map (fun d => (pathRegister p d).length) ∧
          ds'.map (fun d => (d.irLength, d.idc, d.op, d.irLatch)) =
            ds.map (fun d => (d.irLength, d.idc, d.op, d.irLatch)) ∧
          ∀ q, q ≠ p → ds'.map (pathRegister q) = ds.map (pathRegister q)

/-- R144: an instruction scan of the payload for device `i`, `totalIr` bits ending in Idle, gives device `i` the
instruction and every other device all ones, on a reference chain of the controller's layout and from any position the
controller and the target agree on, or an unknown one. -/
def Obligations.PayloadReachesItsDevice : Prop :=
  ∀ (s : State) (ds : List RefDevice) (i : Nat) (ib : BitSeq) (d : ChainDevice), Ready s → Serves s.io →
    LimitOk s.io → ChainOk s.ctrl.chain → PositionTrue s.toEngine → TargetIs ds s →
      (∀ x ∈ ds, RefDeviceOk x) → ds.map (·.irLength) = s.ctrl.chain.map (·.irLength) →
        s.ctrl.chain[i]? = some d → ib.length = d.irLength →
          overLimit s.io.backend.spec.maxScan (totalIr s.ctrl.chain) = false →
            ∃ t ds',
              exec (.executeScan .instruction .write (totalIr s.ctrl.chain) .idle (payloadFor d ib)) s = .next t ∧
                t.results = s.results ++ [(s.caller, .bits [])] ∧ t.io.target.devices = some ds' ∧
                ds'.map (·.irLength) = ds.map (·.irLength) ∧
                ∀ (j : Nat) (x : RefDevice), ds'[j]? = some x →
                  x.irLatch = if j = i then ib else ones x.irLength

/-- R146, R147, R154: on a reference chain of the controller's layout, where no device with an identifier takes BYPASS
for its own identification instruction, `IDCODE_OPCODE` of its position, discovery writes exactly the identifier of
every device that has one and was not yet discovered, for every 32-bit identifier. -/
def Obligations.IdentificationRoundTrip : Prop :=
  ∀ (s : State) (ds : List RefDevice), Ready s → Serves s.io → LimitOk s.io → ChainOk s.ctrl.chain →
    PositionTrue s.toEngine → TargetIs ds s → ReferenceOk s.io.opcodes s.io.target →
      ds.map (·.irLength) = s.ctrl.chain.map (·.irLength) →
        (∀ x ∈ ds, x.idc.isSome = true → x.op ≠ ones x.irLength) →
          overLimit s.io.backend.spec.maxScan (totalIr s.ctrl.chain) = false →
            overLimit s.io.backend.spec.maxScan (31 + s.ctrl.chain.length) = false →
              ∃ e, exec .discoverIdentifiers s = .next (answer s e .ack) ∧
                ∀ (k : Nat) (x : RefDevice) (d : ChainDevice) (v : BitVec 32), ds[k]? = some x →
                  s.ctrl.chain[k]? = some d → x.idc = some v → d.idcode = none →
                    ∃ d', e.ctrl.chain[k]? = some d' ∧ d'.idcode = some v

/-! ### The Transport Backend -/

/-- R181, R182, R354: a `transfer` of admitted operands within the limit, where the backend serves, drives
its edges in index order and answers the bits sampled; it writes nothing in the controller, but that the frame refreshes
the position on a backend with STATE (R272, log entry 31 where it is not known). -/
def Obligations.TransferDrivesItsEdges : Prop :=
  ∀ (s : State) (m d : BitSeq) (n : Nat), Ready s → Serves s.io → n ≠ 0 → m.length = n → d.length = n →
    overLimit (maxTransferBits s.io.backend.spec) n = false →
      ∃ io', exec (.transfer m d n) s =
          .next (answer s
            { ctrl := { s.ctrl with currentState := refreshed io' s.ctrl.currentState }, io := io' }
            (.bits (driveEdges (edgesOf m d) s.io).1)) ∧
        Drives (edgesOf m d) s.io io'

/-- R181, R185, R186, R193, R197, R303, R307: a `transfer` that violates its contract, or is over the limit, is rejected
in that order and drives no edge; one whose bounded wait ends, or that faults, has delivered a prefix of its edges,
clears `stateKnown` and answers exactly the one error of its kind and no bits; a bitbang backend has no bounded wait.
The model's choices: a rejected `transfer` leaves `stateKnown` as it was (log entry 8), and the outcome `timesOut` on
bitbang makes the call complete (log entry 28). -/
def Obligations.TransferFailures : Prop :=
  (∀ (s : State) (m d : BitSeq) (n : Nat), Ready s →
      (n = 0 ∨ m.length ≠ n ∨ d.length ≠ n →
          exec (.transfer m d n) s = .next (answer s s.toEngine (.error .invalidArgument))) ∧
        (n ≠ 0 → m.length = n → d.length = n → overLimit (maxTransferBits s.io.backend.spec) n = true →
          exec (.transfer m d n) s = .next (answer s s.toEngine (.error .unsupportedOperation)))) ∧
    ∀ (s : State) (m d : BitSeq) (n k : Nat), Ready s → Usable s.io → n ≠ 0 → m.length = n → d.length = n →
      overLimit (maxTransferBits s.io.backend.spec) n = false →
        (nextOutcome s.io = .fails k → ∃ io',
            exec (.transfer m d n) s =
              .next (answer s { ctrl := { s.ctrl with stateKnown := false }, io := io' } (.error .busFault)) ∧
            Drives ((edgesOf m d).take k) s.io io') ∧
          (nextOutcome s.io = .timesOut k → s.io.backend.spec.variant ≠ .bitbang → ∃ io',
            exec (.transfer m d n) s =
              .next (answer s { ctrl := { s.ctrl with stateKnown := false }, io := io' } (.error .timeoutError)) ∧
            Drives ((edgesOf m d).take k) s.io io') ∧
          (nextOutcome s.io = .timesOut k → s.io.backend.spec.variant = .bitbang → ∃ out io',
            exec (.transfer m d n) s =
              .next (answer s
                { ctrl := { s.ctrl with currentState := refreshed io' s.ctrl.currentState }, io := io' }
                (.bits out)) ∧
            Drives (edgesOf m d) s.io io')

/-- R183: two transfers one after the other, where the backend serves, deliver the edges of one transfer of the concatenated sequences, in the
same order, and their outputs concatenate. -/
def Obligations.TransfersCompose : Prop :=
  ∀ (s : State) (a x b y : BitSeq), Ready s → Serves s.io → a ≠ [] → b ≠ [] → x.length = a.length →
    y.length = b.length →
      overLimit (maxTransferBits s.io.backend.spec) (a.length + b.length) = false →
        ∃ t u w out1 out2, exec (.transfer a x a.length) s = .next t ∧ exec (.transfer b y b.length) t = .next u ∧
          exec (.transfer (a ++ b) (x ++ y) (a.length + b.length)) s = .next w ∧
          u.results = s.results ++ [(s.caller, .bits out1), (s.caller, .bits out2)] ∧
          w.results = s.results ++ [(s.caller, .bits (out1 ++ out2))] ∧ wireEdges u.io = wireEdges w.io ∧
          u.io.target = w.io.target

/-- R184: a successful `transfer` of any variant answers the bits of the edge-by-edge reference semantics and leaves
the target as it does. -/
def Obligations.BurstsEqualSingleEdges : Prop :=
  ∀ (s t : State) (m d out : BitSeq) (n : Nat), exec (.transfer m d n) s = .next t →
    t.results = s.results ++ [(s.caller, .bits out)] →
      out = (driveEdges (edgesOf m d) s.io).1 ∧ t.io.target = (driveEdges (edgesOf m d) s.io).2.target

/-- R202, R307: the raw single-edge primitive drives exactly its edge and answers the bit sampled before it; the frame
refreshes the position on a backend with STATE (R272, log entry 31 where it is not known). A failure is a `BusFault`,
with the edge delivered or not, and clears `stateKnown`. -/
def Obligations.EdgeDrivesOneEdge : Prop :=
  ∀ (s : State) (m d : Bool), Ready s → Usable s.io → hasCap s.io.backend.spec .rawEdge = true →
    (Serves s.io →
        ∃ io', exec (.edge m d) s =
            .next (answer s
              { ctrl := { s.ctrl with currentState := refreshed io' s.ctrl.currentState }, io := io' }
              (.bit (driveEdge { tms := m, tdi := d } s.io).1)) ∧
          Drives [{ tms := m, tdi := d }] s.io io') ∧
      ∀ k, nextOutcome s.io = .fails k →
        ∃ io', exec (.edge m d) s =
            .next (answer s { ctrl := { s.ctrl with stateKnown := false }, io := io' } (.error .busFault)) ∧
          Drives (List.take k [{ tms := m, tdi := d }]) s.io io'

/-- R199, R190: `freqGet` answers the rate the backend runs at; `freqSet` of a positive rate sets it to the achievable
rate and answers that, and changes nothing else of the instance; the backend's refusal is `UnsupportedOperation` and its
fault `BusFault`, which leave the rate and `stateKnown` as they were. On bitbang a fault is possible and the outcome
`refuses` makes the call complete (log entries 14 and 28, the model's choices). -/
def Obligations.FrequencyPrimitives : Prop :=
  ∀ s : State, Ready s → Usable s.io → hasCap s.io.backend.spec .freq = true →
    exec .freqGet s = .next (answer s s.toEngine (.hz s.io.backend.rate)) ∧
      ∀ hz, hz ≠ 0 →
        (Serves s.io ∨ (nextOutcome s.io = .refuses ∧ s.io.backend.spec.variant = .bitbang) →
            exec (.freqSet hz) s =
              .next (answer s
                { s.toEngine with
                  io :=
                    { s.io with
                      outcomes := s.io.outcomes.tail
                      backend := { s.io.backend with rate := Config.achievable s.io.backend.spec hz } } }
                (.hz (Config.achievable s.io.backend.spec hz)))) ∧
          (nextOutcome s.io = .refuses → s.io.backend.spec.variant ≠ .bitbang →
            exec (.freqSet hz) s =
              .next (answer s { s.toEngine with io := { s.io with outcomes := s.io.outcomes.tail } }
                (.error .unsupportedOperation))) ∧
          ∀ k, nextOutcome s.io = .fails k →
            exec (.freqSet hz) s =
              .next (answer s { s.toEngine with io := { s.io with outcomes := s.io.outcomes.tail } }
                (.error .busFault))

/-- R200, R186, R307: `stateGet` answers the backend's bookkeeping; `stateSet` drives the canonical edges, five ones
first when a reset is asked for, with data-in 0, after which the bookkeeping is the target state, and so is the position
where an edge was driven (R272, log entry 31). A `stateSet` with edges can fail as a transfer does: a prefix of them is
delivered and `stateKnown` cleared. The model's inferences: one without edges cannot fail (log entry 29), and one of more
edges than `MAX_TRANSFER_BITS` runs (log entry 30). -/
def Obligations.StatePrimitives : Prop :=
  ∀ s : State, Ready s → Usable s.io → hasCap s.io.backend.spec .state = true →
    exec .stateGet s = .next (answer s s.toEngine (.tap s.io.backend.book)) ∧
      ∀ target forceReset tms,
        tms = (if forceReset then ones 5 ++ tapPath .reset target else tapPath s.io.backend.book target) →
          (tms = [] → exec (.stateSet target forceReset) s = .next (answer s s.toEngine .ack)) ∧
            (tms ≠ [] → Serves s.io → ∃ io',
              exec (.stateSet target forceReset) s =
                .next (answer s { ctrl := { s.ctrl with currentState := target }, io := io' } .ack) ∧
              Drives (edgesOf tms (zeros tms.length)) s.io io' ∧ io'.backend.book = target) ∧
            ∀ k, tms ≠ [] →
              (nextOutcome s.io = .fails k → ∃ io',
                exec (.stateSet target forceReset) s =
                  .next (answer s { ctrl := { s.ctrl with stateKnown := false }, io := io' } (.error .busFault)) ∧
                Drives ((edgesOf tms (zeros tms.length)).take k) s.io io') ∧
              (nextOutcome s.io = .timesOut k → s.io.backend.spec.variant ≠ .bitbang → ∃ io',
                exec (.stateSet target forceReset) s =
                  .next (answer s { ctrl := { s.ctrl with stateKnown := false }, io := io' } (.error .timeoutError)) ∧
                Drives ((edgesOf tms (zeros tms.length)).take k) s.io io')

/-- R201: `enable` and `disable` write the backend's `enabled` and drive no edge; a failing `enable` writes nothing. -/
def Obligations.EnablePrimitives : Prop :=
  ∀ s : State, Ready s → hasCap s.io.backend.spec .enable = true →
    exec .disable s =
        .next (answer s
          { s.toEngine with io := { s.io with backend := { s.io.backend with enabled := false } } } .ack) ∧
      (NoFailure s.io → exec .enable s =
        .next (answer s
          { s.toEngine with
            io :=
              { s.io with
                outcomes := s.io.outcomes.tail
                backend := { s.io.backend with enabled := true } } } .ack)) ∧
      ∀ k, nextOutcome s.io = .fails k →
        exec .enable s =
          .next (answer s { s.toEngine with io := { s.io with outcomes := s.io.outcomes.tail } } (.error .busFault))

/-- R180, R89: `supports` answers whether the capability is in the mask, without failing. That the three indices that
name no capability answer 0 is log entry 25, the model's choice. -/
def Obligations.SupportsAnswersTheMask : Prop :=
  (∀ (s : State) (cap : BitVec 3), Ready s →
      exec (.supports cap) s = .next (answer s s.toEngine (.bit (supportsBit s.io.backend.spec cap)))) ∧
    (∀ (b : BackendSpec) (c : Capability), supportsBit b (BitVec.ofNat 3 (capIndex c)) = hasCap b c) ∧
    (∀ (b : BackendSpec) (cap : BitVec 3), 5 ≤ cap.toNat → supportsBit b cap = false) ∧
    (∀ b : BackendSpec, maskAdmitted b.caps = true → supportsBit b 0#3 = true) ∧
    (∀ b : BackendSpec, b.caps = defaultCaps .bitbang → supportsBit b 2#3 = false) ∧
    ∀ cap : BitVec 3, opcodeOf (.supports cap) = 0x38

/-- Log entry 13, the model's choice, in every clause: a bare primitive issued to a backend that lacks its capability
answers `UnsupportedOperation` and has no effect, and so does a bare `freqSet` of zero. R300 gives the kind its meaning
("requested capability absent, or parameters exceed backend limits"); R302's list of causes names none of these. -/
def Obligations.AbsentCapabilityIsUnsupported : Prop :=
  ∀ s : State, Ready s →
    (hasCap s.io.backend.spec .rawEdge = false → ∀ m d,
        exec (.edge m d) s = .next (answer s s.toEngine (.error .unsupportedOperation))) ∧
      (hasCap s.io.backend.spec .freq = false →
        exec .freqGet s = .next (answer s s.toEngine (.error .unsupportedOperation)) ∧
          ∀ hz, exec (.freqSet hz) s = .next (answer s s.toEngine (.error .unsupportedOperation))) ∧
      (hasCap s.io.backend.spec .state = false →
        exec .stateGet s = .next (answer s s.toEngine (.error .unsupportedOperation)) ∧
          ∀ target f, exec (.stateSet target f) s = .next (answer s s.toEngine (.error .unsupportedOperation))) ∧
      (hasCap s.io.backend.spec .enable = false →
        exec .enable s = .next (answer s s.toEngine (.error .unsupportedOperation)) ∧
          exec .disable s = .next (answer s s.toEngine (.error .unsupportedOperation))) ∧
      exec (.freqSet 0) s = .next (answer s s.toEngine (.error .unsupportedOperation))

/-- R201, D37: while `enabled` is 0 no primitive but `enable` and `disable` is called. On a backend that has ENABLE and is
disabled every other operation of the frame runs to an answer and leaves the whole interface as it was: no edge, no
bookkeeping, no outcome used. One that needs a call ends in a `BusFault`, after its own checks, and R307 clears
`stateKnown` where its rule says; a `setState` to the position held needs none without STATE, and answers `Ack`. That the
error is a `BusFault` is log entry 12, the model's choice. -/
def Obligations.DisabledBackendIsNotCalled : Prop :=
  ∀ s : State, Ready s → ¬Usable s.io →
    (∀ i : Instr, i.takesLock = true → i ≠ .enable → i ≠ .disable →
        ∃ t r, exec i s = .next t ∧ t.io = s.io ∧ t.results = s.results ++ [(s.caller, r)]) ∧
      (∀ m d, m ≠ [] → d.length = m.length → overLimit (maxTransferBits s.io.backend.spec) m.length = false →
        exec (.transfer m d m.length) s = .next (answer s (clearKnown s.toEngine) (.error .busFault))) ∧
      (∀ m d, hasCap s.io.backend.spec .rawEdge = true →
        exec (.edge m d) s = .next (answer s (clearKnown s.toEngine) (.error .busFault)) ∧
          exec (.rawEdge m d) s = .next (answer s (clearKnown s.toEngine) (.error .busFault))) ∧
      (hasCap s.io.backend.spec .freq = true →
        exec .freqGet s = .next (answer s s.toEngine (.error .busFault)) ∧
          ∀ hz, hz ≠ 0 →
            exec (.freqSet hz) s = .next (answer s s.toEngine (.error .busFault)) ∧
              exec (.setFrequency hz) s = .next (answer s s.toEngine (.error .busFault))) ∧
      (hasCap s.io.backend.spec .state = true →
        exec .stateGet s = .next (answer s s.toEngine (.error .busFault)) ∧
          ∀ target f,
            exec (.stateSet target f) s = .next (answer s (clearKnown s.toEngine) (.error .busFault))) ∧
      (LimitOk s.io →
        exec .hardReset s = .next (answer s (clearKnown s.toEngine) (.error .busFault)) ∧
          (∀ p d n e b, d ≠ .reserved → ScanAccepted s.io p d n e b →
            exec (.executeScan p d n e b) s =
              .next (answer s (clearKnown (freezeChain s.toEngine)) (.error .busFault))) ∧
          ∀ target f, stable target = true →
            exec (.setState target f) s =
              if hasCap s.io.backend.spec .state = true ∨ setStateBits s.toEngine target f ≠ [] then
                .next (answer s (clearKnown s.toEngine) (.error .busFault))
              else .next (answer s s.toEngine .ack))

/-- R195: the words of a packed stream hold its bits in order, the unused high bits 0, and unpacking them and cutting
to the length gives the stream back. -/
def Obligations.WordPackingRoundTrip : Prop :=
  ∀ (w : Nat) (b : BitSeq), 1 ≤ w →
    (∀ (k : Nat) (v : Nat) (x : Bool), b[k]? = some x → (pack w b)[k / w]? = some v → v.testBit (k % w) = x) ∧
      (pack w b).length = (b.length + w - 1) / w ∧
      (∀ (j k v : Nat), (pack w b)[j]? = some v → v.testBit k = true → k < w ∧ j * w + k < b.length) ∧
      unpack w (pack w b) b.length = b

/-- R185, R303: no operation on a bitbang backend answers `TimeoutError`, but for the wait for the lock. -/
def Obligations.BitbangNeverTimesOut : Prop :=
  ∀ (i : Instr) (s t : State), s.io.backend.spec.variant = .bitbang → s.draw ≠ .expire → exec i s = .next t →
    ∃ more, t.results = s.results ++ more ∧ ∀ r ∈ more, r.2 ≠ .error .timeoutError

/-- R181, R199, R200, R202, R272, R307: an operation of class backend that runs writes nothing of the controller but the
position, which the frame refreshes on a backend with STATE, and `stateKnown`, which it clears exactly when one of the
three that drive edges ends in a `TimeoutError` or a `BusFault` (log entry 8 for the other errors); it releases the lock
and answers exactly once. -/
def Obligations.BackendOperationsLeaveTheController : Prop :=
  ∀ (i : Instr) (s t : State), i.isBackend = true → Ready s → exec i s = .next t →
    ∃ pos known r, t = answer s { ctrl := { s.ctrl with currentState := pos, stateKnown := known }, io := t.io } r ∧
      (pos = s.ctrl.currentState ∨ (hasCap t.io.backend.spec .state = true ∧ pos = t.io.backend.book)) ∧
      (known = false ↔ s.ctrl.stateKnown = false ∨
        (r = .error .timeoutError ∨ r = .error .busFault) ∧
          ((∃ m d n, i = .transfer m d n) ∨ (∃ m d, i = .edge m d) ∨ ∃ target f, i = .stateSet target f))

/-! ### The Scan Transaction Engine -/

/-- R232, R222 to R228, R231, R266: an accepted scan, where the backend serves, drives exactly the recovery
edges, the prefix, the body and the suffix, answers the bits sampled on the body when it includes read, freezes the
chain and ends at the end state with the position known (on a backend with STATE, where its bookkeeping says). -/
def Obligations.ExecuteScanCompletes : Prop :=
  ∀ (s : State) (p : ScanTarget) (d : Direction) (n : Nat) (e : TapState) (b : BitSeq), Ready s → d ≠ .reserved →
    ScanAccepted s.io p d n e b → Serves s.io → LimitOk s.io →
      ∃ io', exec (.executeScan p d n e b) s =
          .next (answer s
            { ctrl := { s.ctrl with currentState := refreshed io' e, stateKnown := true, chainFrozen := true }
              io := io' }
            (.bits (scanBits s.toEngine p d n e b))) ∧
        Drives (scanCommandEdges s.toEngine p d n e b) s.io io'

/-- R221, R266, R301, R302: what a scan rejects before any edge, in order; every rejection but that of the reserved
direction code clears `stateKnown`, and none freezes the chain. -/
def Obligations.ScanValidation : Prop :=
  ∀ (s : State) (p : ScanTarget) (d : Direction) (n : Nat) (e : TapState) (b : BitSeq), Ready s →
    exec (.executeScan p .reserved n e b) s = .next (answer s s.toEngine (.error .invalidArgument)) ∧
      (d ≠ .reserved →
        (n = 0 ∨ legalEnd p e = false ∨ (includesWrite d = true ∧ b.length ≠ n) →
            exec (.executeScan p d n e b) s =
              .next (answer s (clearKnown s.toEngine) (.error .invalidArgument))) ∧
          (n ≠ 0 → legalEnd p e = true → (includesWrite d = true → b.length = n) →
            overLimit s.io.backend.spec.maxScan n = true →
              exec (.executeScan p d n e b) s =
                .next (answer s (clearKnown s.toEngine) (.error .unsupportedOperation))))

/-- R229, R230, R231, R307: a scan that ends in an error, for whatever reason, has cleared `stateKnown`; the edges
delivered are a prefix of the scan's edges and nothing is rolled back, the chain is frozen exactly if it was or the
request was accepted, and nothing else of the controller changes; a request that is not accepted drives no edge. -/
def Obligations.FailedScanClearsStateKnown : Prop :=
  ∀ (s t : State) (p : ScanTarget) (d : Direction) (n : Nat) (e : TapState) (b : BitSeq) (k : ErrKind), Ready s →
    d ≠ .reserved → LimitOk s.io → exec (.executeScan p d n e b) s = .next t →
      t.results = s.results ++ [(s.caller, .error k)] →
        (ScanAccepted s.io p d n e b → ∃ pos io' es, Drives es s.io io' ∧
            es <+: scanCommandEdges s.toEngine p d n e b ∧
            t = answer s
              { ctrl := { s.ctrl with currentState := pos, stateKnown := false, chainFrozen := true }, io := io' }
              (.error k)) ∧
          (¬ScanAccepted s.io p d n e b → t = answer s (clearKnown s.toEngine) (.error k))

/-- R233: a successful scan delivers five edges if the position was not known, the prefix, `bitLength` edges and the
suffix, and of the edges after the recovery exactly `bitLength` are taken in the Shift state of its path. -/
def Obligations.ScanEdgeCount : Prop :=
  ∀ (s t : State) (p : ScanTarget) (d : Direction) (n : Nat) (e : TapState) (b out : BitSeq), Ready s →
    LimitOk s.io → exec (.executeScan p d n e b) s = .next t →
      t.results = s.results ++ [(s.caller, .bits out)] →
        (wireEdges t.io).length = (wireEdges s.io).length + (if s.ctrl.stateKnown then 0 else 5) +
            (tapPath (scanStart s.toEngine) (shiftOf p)).length + n + (tapPath (exit1Of p) e).length ∧
          takenIn (shiftOf p) (scanStart s.toEngine)
            (((wireEdges t.io).drop ((wireEdges s.io).length + if s.ctrl.stateKnown then 0 else 5)).map (·.tms)) = n ∧
          out.length = if includesRead d then n else 0

/-- R227, R356: the transfers of a scan cover its edges in order, none is empty or over the limit, every one but the
last ends in the Shift state of the path, and the exact partition is the rule's. -/
def Obligations.PartitionOfAScan : Prop :=
  (∀ (st : TapState) (q : ScanTarget) (n : Nat) (e : TapState) (limit : Option Nat), n ≠ 0 → legalEnd q e = true →
      (∀ m, limit = some m → 6 ≤ m) →
        let p := (tapPath st (shiftOf q)).length
        let s := (tapPath (exit1Of q) e).length
        (partition p n s limit).flatMap (fun r => List.range' r.1 (r.2 - r.1)) = List.range (p + n + s) ∧
          (∀ r ∈ partition p n s limit, r.1 < r.2 ∧ ∀ m, limit = some m → r.2 - r.1 ≤ m) ∧
          (∀ r ∈ (partition p n s limit).dropLast,
            r.2 < p + n ∧ tapRun st ((scanTms st q n e).take r.2) = shiftOf q)) ∧
    (∀ p n s, partition p n s none = (if p = 0 then [] else [(0, p)]) ++ [(p, p + n + s)]) ∧
    (∀ p n s m, n + s ≤ m → partition p n s (some m) = (if p = 0 then [] else [(0, p)]) ++ [(p, p + n + s)]) ∧
    ∀ p n s m, 0 < m → m < n + s →
      partition p n s (some m) =
        (if p = 0 then [] else [(0, p)]) ++
            (List.range ((n - min n (m - s) + m - 1) / m)).map
              (fun k => (p + k * m, p + min ((k + 1) * m) (n - min n (m - s)))) ++
          [(p + (n - min n (m - s)), p + n + s)]

/-- R235: two scans of the same request on the same target, with backends that split it differently, deliver the same
edges in the same order and have the same captured bits and the same final state. -/
def Obligations.FragmentationInvariance : Prop :=
  ∀ (s s' : State) (p : ScanTarget) (d : Direction) (n : Nat) (e : TapState) (b : BitSeq), Ready s → Ready s' →
    d ≠ .reserved → ScanAccepted s.io p d n e b → ScanAccepted s'.io p d n e b →
      Serves s.io → Serves s'.io → LimitOk s.io → LimitOk s'.io → Synced s.toEngine → Synced s'.toEngine →
        s'.ctrl.stateKnown = s.ctrl.stateKnown → s'.ctrl.currentState = s.ctrl.currentState →
          s'.io.target = s.io.target → s'.io.drawn = s.io.drawn →
            ∃ t t' out es, exec (.executeScan p d n e b) s = .next t ∧ exec (.executeScan p d n e b) s' = .next t' ∧
              t.results = s.results ++ [(s.caller, .bits out)] ∧
              t'.results = s'.results ++ [(s'.caller, .bits out)] ∧ wireEdges t.io = wireEdges s.io ++ es ∧
              wireEdges t'.io = wireEdges s'.io ++ es ∧ t.io.target = t'.io.target ∧ t.ctrl.currentState = e ∧
              t'.ctrl.currentState = e

/-! ### The Controller Façade -/

/-- R262, R264, R274: `getFrequency` and `getState` answer the cached values and change no state of the engine, so
asked twice they answer the same. -/
def Obligations.ReadsAnswerTheCache : Prop :=
  ∀ s : State, Ready s →
    exec .getFrequency s = .next (answer s s.toEngine (.hz s.ctrl.frequencyHz)) ∧
      exec .getState s =
        .next (answer s s.toEngine (if s.ctrl.stateKnown then .tap s.ctrl.currentState else .unknown)) ∧
      ∀ t c, exec .getFrequency s = .next t ∨ exec .getState s = .next t →
        exec .getFrequency { t with caller := c, draw := .run } =
            .next (answer { t with caller := c, draw := .run } s.toEngine (.hz s.ctrl.frequencyHz)) ∧
          exec .getState { t with caller := c, draw := .run } =
            .next (answer { t with caller := c, draw := .run } s.toEngine
              (if s.ctrl.stateKnown then .tap s.ctrl.currentState else .unknown))

/-- R263, R189, R190, R302, R353: `setFrequency` stores the rate the backend achieves, in the backend and in the
controller, and on bitbang the half period follows; no edge is driven. A missing capability and a zero rate are rejected
with no call; on any error the frequency and the position stay as they were. That on bitbang the call can fail with
`BusFault` is log entry 14 (between R190 and the vector CTL-18), and that the outcome `refuses`, which a bitbang backend
never has, makes the call complete is log entry 28, the model's choices. -/
def Obligations.SetFrequencyStoresTheAchievedRate : Prop :=
  ∀ (s : State) (hz : Nat), Ready s →
    (hasCap s.io.backend.spec .freq = false ∨ hz = 0 →
        exec (.setFrequency hz) s = .next (answer s s.toEngine (.error .unsupportedOperation))) ∧
      (Usable s.io → hasCap s.io.backend.spec .freq = true → hz ≠ 0 →
        (Serves s.io ∨ (nextOutcome s.io = .refuses ∧ s.io.backend.spec.variant = .bitbang) →
            exec (.setFrequency hz) s =
              .next (answer s
                { ctrl := { s.ctrl with frequencyHz := Config.achievable s.io.backend.spec hz }
                  io :=
                    { s.io with
                      outcomes := s.io.outcomes.tail
                      backend :=
                        { s.io.backend with
                          rate := Config.achievable s.io.backend.spec hz
                          halfPeriodNs :=
                            if s.io.backend.spec.variant = .bitbang then
                              halfPeriodOf (Config.achievable s.io.backend.spec hz)
                            else s.io.backend.halfPeriodNs } } }
                .ack)) ∧
          (nextOutcome s.io = .refuses → s.io.backend.spec.variant ≠ .bitbang →
            exec (.setFrequency hz) s =
              .next (answer s { s.toEngine with io := { s.io with outcomes := s.io.outcomes.tail } }
                (.error .unsupportedOperation))) ∧
          ∀ k, nextOutcome s.io = .fails k →
            exec (.setFrequency hz) s =
              .next (answer s { s.toEngine with io := { s.io with outcomes := s.io.outcomes.tail } }
                (.error .busFault)))

/-- R265, R275, R200: `setState` to a stable state, where the backend serves, drives five ones first when a
reset is asked for or the position is not known, then the canonical path, with data-in 0, and leaves the position
known and at its target. -/
def Obligations.SetStateCompletes : Prop :=
  ∀ (s : State) (target : TapState) (forceReset : Bool), Ready s → stable target = true →
    Serves s.io → LimitOk s.io →
      ∃ io', exec (.setState target forceReset) s =
          .next (answer s
            { ctrl := { s.ctrl with currentState := target, stateKnown := true }, io := io' } .ack) ∧
        Drives (edgesOf (setStateBits s.toEngine target forceReset)
          (zeros (setStateBits s.toEngine target forceReset).length)) s.io io'

/-- R265, R307: `setState` to a state that is not stable answers `InvalidArgument` and changes nothing; one to a stable
state that ends in an error has delivered a prefix of its edges, cleared `stateKnown` and changed nothing else of the
controller but the position. -/
def Obligations.SetStateFailures : Prop :=
  (∀ (s : State) (target : TapState) (forceReset : Bool), Ready s → stable target = false →
      exec (.setState target forceReset) s = .next (answer s s.toEngine (.error .invalidArgument))) ∧
    ∀ (s t : State) (target : TapState) (forceReset : Bool) (k : ErrKind), Ready s → LimitOk s.io →
      stable target = true → exec (.setState target forceReset) s = .next t →
        t.results = s.results ++ [(s.caller, .error k)] →
        ∃ pos io' es, t = answer s { ctrl := { s.ctrl with currentState := pos, stateKnown := false }, io := io' }
          (.error k) ∧ Drives es s.io io' ∧
          es <+: edgesOf (setStateBits s.toEngine target forceReset)
            (zeros (setStateBits s.toEngine target forceReset).length)

/-- R267: `rawEdge` drives exactly the one edge, with no reset before it, and the position follows it where it is
known; without the capability it has no effect; a failing primitive clears `stateKnown`. On a backend with STATE the frame
refreshes the position (R272), also while it is not known: log entry 31, the model's inference. -/
def Obligations.RawEdgeCompletes : Prop :=
  ∀ (s : State) (m d : Bool), Ready s →
    (hasCap s.io.backend.spec .rawEdge = false →
        exec (.rawEdge m d) s = .next (answer s s.toEngine (.error .unsupportedOperation))) ∧
      (hasCap s.io.backend.spec .rawEdge = true → Serves s.io →
        ∃ io', exec (.rawEdge m d) s =
            .next (answer s
              { ctrl :=
                  { s.ctrl with
                    currentState := refreshed io'
                      (if s.ctrl.stateKnown then tapNext s.ctrl.currentState m else s.ctrl.currentState) }
                io := io' }
              (.bit (driveEdge { tms := m, tdi := d } s.io).1)) ∧
          Drives [{ tms := m, tdi := d }] s.io io') ∧
      ∀ k, Usable s.io → hasCap s.io.backend.spec .rawEdge = true → nextOutcome s.io = .fails k →
        ∃ io', exec (.rawEdge m d) s =
            .next (answer s { ctrl := { s.ctrl with stateKnown := false }, io := io' } (.error .busFault)) ∧
          Drives (List.take k [{ tms := m, tdi := d }]) s.io io'

/-- R270, R37, R341: `attach` constructs the controller, whatever the state before: the chain of the layout without
identifiers, the frequency, the position not known, the lock idle, the chain not frozen, the backend enabled where it
has ENABLE, on bitbang the half period; no edge is driven. That it does so on an attached controller too, and while
commands are pending, is log entry 11, the model's choice. -/
def Obligations.AttachConstructs : Prop :=
  ∀ (s : State) (layout : List Nat) (b : BackendSpec), maskAdmitted b.caps = true → (∀ n ∈ layout, n ≠ 0) →
    NoFailure s.io →
      ∃ t, exec (.attach layout b) s = .next t ∧ t.results = s.results ++ [(s.caller, .controller)] ∧
        t.ctrl.chain.map (·.irLength) = layout ∧ (∀ d ∈ t.ctrl.chain, d.idcode = none) ∧
        recompute t.ctrl.chain = t.ctrl.chain ∧ t.ctrl.stateKnown = false ∧
        t.ctrl.frequencyHz = (if hasCap b .freq then b.rate else Config.initialFrequencyHz) ∧
        t.ctrl.lock = { phase := .idle, owner := none, waiters := [] } ∧ t.ctrl.chainFrozen = false ∧
        t.ctrl.attached = true ∧ t.io.backend.spec = b ∧ t.io.backend.rate = b.rate ∧
        t.io.backend.enabled = hasCap b .enable ∧
        (b.variant = .bitbang → t.io.backend.halfPeriodNs = halfPeriodOf t.ctrl.frequencyHz) ∧
        t.io.wire = s.io.wire ∧ t.io.target = s.io.target

/-- R270, R91, R311: what `attach` refuses, in order: a mask that is not admitted is refused by name; a zero in the
layout and a failing `enable` are answered with their error, and no controller is produced. That the run goes on with
the controller of before, where R311 lists the zero among the refusals, is log entry 11, the model's choice. -/
def Obligations.AttachRefusals : Prop :=
  ∀ (s : State) (layout : List Nat) (b : BackendSpec),
    (maskAdmitted b.caps = false → exec (.attach layout b) s = .refused .capabilityMask) ∧
      (maskAdmitted b.caps = true → 0 ∈ layout →
        exec (.attach layout b) s = .next (answerUnlocked s s.io (.error .invalidArgument))) ∧
      ∀ k, maskAdmitted b.caps = true → 0 ∉ layout → hasCap b .enable = true → nextOutcome s.io = .fails k →
        exec (.attach layout b) s =
          .next (answerUnlocked s { s.io with outcomes := s.io.outcomes.tail } (.error .busFault))

/-- R271, R27: `detach` of an idle controller completes every waiting caller's command with `InvalidArgument`, empties
the waiters, disables the backend where it has ENABLE and leaves the controller detached; while a command holds the
lock the model refuses it (D48). That the waiters' results come in the order in which they came to wait is log entry 35,
the model's choice. -/
def Obligations.DetachTearsDown : Prop :=
  ∀ s : State, Attached s →
    (s.ctrl.lock.phase = .idle →
        ∃ t, exec .detach s = .next t ∧
          t.ctrl = { s.ctrl with attached := false, lock := { s.ctrl.lock with waiters := [] } } ∧
          t.results = s.results ++ s.ctrl.lock.waiters.map (fun c => (c, .error .invalidArgument)) ++
            [(s.caller, .nothing)] ∧
          t.io = { s.io with backend := { s.io.backend with
            enabled := if hasCap s.io.backend.spec .enable then false else s.io.backend.enabled } }) ∧
      (s.ctrl.lock.phase = .busy → exec .detach s = .refused .detachWhileBusy)

/-- R27, R261, R271, R306, R301: after detach every operation but `attach` is answered `InvalidArgument` and has no
other effect. That a second `detach` is answered so too is log entry 27, the model's inference. -/
def Obligations.DetachedAnswersInvalidArgument : Prop :=
  ∀ (i : Instr) (s : State), s.ctrl.attached = false → (∀ layout b, i ≠ .attach layout b) →
    exec i s = .next (answerUnlocked s s.io (.error .invalidArgument))

/-- R116, R342, R307: the hard reset, where the backend serves, drives five edges with mode bit 1 and data-in
0; the position is then Reset and known, nothing else of the controller changes, and the target is in Reset with every
reference device at its default instruction. One that fails has delivered a prefix of the five edges and cleared
`stateKnown`. -/
def Obligations.HardResetCompletes : Prop :=
  ∀ s : State, Ready s → LimitOk s.io →
    (Serves s.io →
        ∃ io', exec .hardReset s =
            .next (answer s { ctrl := { s.ctrl with currentState := .reset, stateKnown := true }, io := io' }
              (.bits (ones 5))) ∧
          Drives (List.replicate 5 { tms := true, tdi := false }) s.io io' ∧ io'.target.tap = .reset ∧
          ∀ ds, s.io.target.devices = some ds → ∃ ds', io'.target.devices = some ds' ∧
            ds'.map (·.irLatch) = ds.map defaultInstruction) ∧
      ∀ k, Usable s.io →
        (nextOutcome s.io = .fails k →
            ∃ io', exec .hardReset s =
                .next (answer s { ctrl := { s.ctrl with stateKnown := false }, io := io' } (.error .busFault)) ∧
              Drives ((List.replicate 5 { tms := true, tdi := false }).take k) s.io io') ∧
          (nextOutcome s.io = .timesOut k → s.io.backend.spec.variant ≠ .bitbang →
            ∃ io', exec .hardReset s =
                .next (answer s { ctrl := { s.ctrl with stateKnown := false }, io := io' } (.error .timeoutError)) ∧
              Drives ((List.replicate 5 { tms := true, tdi := false }).take k) s.io io')

/-- R260, R61, R274, R276, R318: while another caller holds the lock an operation drives no edge and is not granted the lock:
it is queued and answered nothing. A caller whose wait ends is answered `TimeoutError` and is no longer queued; the
TAP is untouched, and `stateKnown` is cleared only under `LOCK_TIMEOUT_CLEARS_STATE`. -/
def Obligations.LockContention : Prop :=
  (∀ (i : Instr) (s t : State) (c : CallerId), i.takesLock = true → Attached s → s.ctrl.lock.phase = .busy →
      s.ctrl.lock.owner = some c → c ≠ s.caller → exec i s = .next t →
        t.io = s.io ∧ t.ctrl.lock.phase = .busy ∧ t.ctrl.lock.owner = some c ∧
          (s.draw ≠ .expire → t.results = s.results ∧ t.inbox = s.inbox ∧ s.caller ∈ t.ctrl.lock.waiters)) ∧
    ∀ (i : Instr) (s : State), i.takesLock = true → Attached s → ownsLock s = false → s.draw = .expire →
      ∃ t, exec i s = .next t ∧ t.results = s.results ++ [(s.caller, .error .timeoutError)] ∧ t.io = s.io ∧
        t.ctrl =
          { s.ctrl with
            stateKnown := s.ctrl.stateKnown && !s.lockTimeoutClears
            lock := { s.ctrl.lock with waiters := s.ctrl.lock.waiters.filter (· != s.caller) } }

/-- R261: a command that runs releases the lock and answers its caller exactly once, in one step, whether its body
succeeds or fails. -/
def Obligations.CommandsReleaseTheLock : Prop :=
  ∀ (i : Instr) (s t : State), i.takesLock = true → Ready s → exec i s = .next t →
    t.ctrl.lock = { phase := .idle, owner := none, waiters := s.ctrl.lock.waiters.filter (· != s.caller) } ∧
      ∃ r, t.results = s.results ++ [(s.caller, r)] ∧ t.inbox = s.inbox.eraseP fun q => q.caller == s.caller

/-- R277, R222, R308: while the position is not known, a `setState`, scan or discovery that succeeds begins with the five
edges of the hard reset and leaves the position known. That a discovery on an empty chain does so too is log entry 10,
the model's choice. -/
def Obligations.RecoveryBeginsWithReset : Prop :=
  ∀ (i : Instr) (s t : State) (r : Result), Ready s → s.ctrl.stateKnown = false → LimitOk s.io →
    exec i s = .next t → t.results = s.results ++ [(s.caller, r)] → (∀ k, r ≠ .error k) →
      ((∃ target f, i = .setState target f) ∨ (∃ p d n e b, i = .executeScan p d n e b) ∨
          i = .discoverIdentifiers) →
        t.ctrl.stateKnown = true ∧
          ∃ es, wireEdges t.io = wireEdges s.io ++ List.replicate 5 { tms := true, tdi := false } ++ es

/-- R273, R66: controllers on distinct interfaces may execute concurrently. Two of them can each have a command in
flight at once, each holding its own lock, with both interfaces untouched by the grants; one then runs to its end,
releasing its lock and answering its caller, while the other still holds its own. A step of one leaves every other as it
was, and steps of two commute. -/
def Obligations.ControllersAreIndependent : Prop :=
  ∀ (i j : Nat) (f : Fleet), i ≠ j →
    ((stepAt i f).1[j]? = f[j]? ∧ (stepAt j (stepAt i f).1).1 = (stepAt i (stepAt j f).1).1) ∧
      ∀ (a b : State) (c d : CallerId) (rest : List Turn), f[i]? = some a → f[j]? = some b → Starts c a → Starts d b →
        a.turns = .move c .hold :: .move c .run :: rest →
          ∃ a' b', (stepAt j (stepAt i f).1).1[i]? = some a' ∧ (stepAt j (stepAt i f).1).1[j]? = some b' ∧
            Holds c a' ∧ Holds d b' ∧ a'.io = a.io ∧ b'.io = b.io ∧
            ∀ t, step a' = .next t →
              t.ctrl.lock.phase = .idle ∧ t.ctrl.lock.owner = none ∧
                (∃ r, t.results = a.results ++ [(c, r)]) ∧
                (stepAt i (stepAt j (stepAt i f).1).1).1[i]? = some t ∧
                (stepAt i (stepAt j (stepAt i f).1).1).1[j]? = some b'

/-! ### The machine as a whole -/

/-- R37, R340, R355: the machine after construction. The frequency, the chain of one device and the bitbang backend are
those of log entry 1, the model's choice. -/
def Obligations.ConstructionState : Prop :=
  Attached State.reset ∧ LockQuiet State.reset ∧ NothingOutstanding State.reset.io ∧
    State.reset.ctrl.stateKnown = false ∧ State.reset.ctrl.chainFrozen = false ∧
    State.reset.ctrl.frequencyHz = State.reset.io.backend.rate ∧
    State.reset.io.backend.halfPeriodNs = halfPeriodOf State.reset.ctrl.frequencyHz ∧
    (∀ d ∈ State.reset.ctrl.chain, d.idcode = none) ∧ RunEnded State.reset

/-- R22, R25, R28, R34, R150, R158: the invariant holds after construction (with the configuration of log entry 1, the
model's choice), and a reference chain of any fixture, connected to any interface, starts as R158 says: the lengths and
parameters of its devices, and data shift stages of the register selected. -/
def Obligations.ConstructionMeetsTheInvariant : Prop :=
  MachineOk State.reset ∧
    ∀ (fixture : Fixture) (io : Interface), (∀ x ∈ fixture, 1 ≤ x.1) →
      ReferenceOk io.opcodes (connectReference fixture io).target ∧
        ∃ ds, (connectReference fixture io).target.devices = some ds ∧
          ds.map (fun d => (d.irLength, d.idc)) = fixture ∧ ∀ d ∈ ds, StartsSelected d

/-- R8, R22, R25, R28, R34, R150: every step keeps the invariant. -/
def Obligations.StepKeepsTheInvariant : Prop := ∀ s t : State, MachineOk s → step s = .next t → MachineOk t

/-- R34, R355, R229, R272: every operation keeps the controller's known position equal to the target's TAP state, and on
a backend with STATE to the backend's bookkeeping; only TRANSFER and EDGE on a backend without STATE, which write
nothing in the controller (R181, R202), are left out. -/
def Obligations.CommandsKeepTheKnownPosition : Prop :=
  ∀ (i : Instr) (s t : State),
    (hasCap s.io.backend.spec .state = false → (∀ m d n, i ≠ .transfer m d n) ∧ ∀ m d, i ≠ .edge m d) →
      LimitOk s.io → Synced s.toEngine → exec i s = .next t → Synced t.toEngine
end

