-- ==== Sys2Proof/Laws/State.lean ====
section
/-! SUPPORT. One lemma per field of each update of the state, each true by definition: later proofs rewrite with these
and never unfold an update. -/

namespace Sys2Proof.Machine

/-! ### `clearKnown` -/

@[simp] theorem clearKnown_ctrl_currentState (e : Engine) : (clearKnown e).ctrl.currentState = e.ctrl.currentState := rfl
@[simp] theorem clearKnown_ctrl_stateKnown (e : Engine) : (clearKnown e).ctrl.stateKnown = false := rfl
@[simp] theorem clearKnown_ctrl_frequencyHz (e : Engine) : (clearKnown e).ctrl.frequencyHz = e.ctrl.frequencyHz := rfl
@[simp] theorem clearKnown_ctrl_chain (e : Engine) : (clearKnown e).ctrl.chain = e.ctrl.chain := rfl
@[simp] theorem clearKnown_ctrl_lock (e : Engine) : (clearKnown e).ctrl.lock = e.ctrl.lock := rfl
@[simp] theorem clearKnown_ctrl_chainFrozen (e : Engine) : (clearKnown e).ctrl.chainFrozen = e.ctrl.chainFrozen := rfl
@[simp] theorem clearKnown_ctrl_attached (e : Engine) : (clearKnown e).ctrl.attached = e.ctrl.attached := rfl
@[simp] theorem clearKnown_io (e : Engine) : (clearKnown e).io = e.io := rfl

/-! ### `setKnown` -/

@[simp] theorem setKnown_ctrl_currentState (t : TapState) (e : Engine) : (setKnown t e).ctrl.currentState = t := rfl
@[simp] theorem setKnown_ctrl_stateKnown (t : TapState) (e : Engine) : (setKnown t e).ctrl.stateKnown = true := rfl
@[simp] theorem setKnown_ctrl_frequencyHz (t : TapState) (e : Engine) : (setKnown t e).ctrl.frequencyHz = e.ctrl.frequencyHz := rfl
@[simp] theorem setKnown_ctrl_chain (t : TapState) (e : Engine) : (setKnown t e).ctrl.chain = e.ctrl.chain := rfl
@[simp] theorem setKnown_ctrl_lock (t : TapState) (e : Engine) : (setKnown t e).ctrl.lock = e.ctrl.lock := rfl
@[simp] theorem setKnown_ctrl_chainFrozen (t : TapState) (e : Engine) : (setKnown t e).ctrl.chainFrozen = e.ctrl.chainFrozen := rfl
@[simp] theorem setKnown_ctrl_attached (t : TapState) (e : Engine) : (setKnown t e).ctrl.attached = e.ctrl.attached := rfl
@[simp] theorem setKnown_io (t : TapState) (e : Engine) : (setKnown t e).io = e.io := rfl

/-! ### `setCurrent` -/

@[simp] theorem setCurrent_ctrl_currentState (t : TapState) (e : Engine) : (setCurrent t e).ctrl.currentState = t := rfl
@[simp] theorem setCurrent_ctrl_stateKnown (t : TapState) (e : Engine) : (setCurrent t e).ctrl.stateKnown = e.ctrl.stateKnown := rfl
@[simp] theorem setCurrent_ctrl_frequencyHz (t : TapState) (e : Engine) : (setCurrent t e).ctrl.frequencyHz = e.ctrl.frequencyHz := rfl
@[simp] theorem setCurrent_ctrl_chain (t : TapState) (e : Engine) : (setCurrent t e).ctrl.chain = e.ctrl.chain := rfl
@[simp] theorem setCurrent_ctrl_lock (t : TapState) (e : Engine) : (setCurrent t e).ctrl.lock = e.ctrl.lock := rfl
@[simp] theorem setCurrent_ctrl_chainFrozen (t : TapState) (e : Engine) : (setCurrent t e).ctrl.chainFrozen = e.ctrl.chainFrozen := rfl
@[simp] theorem setCurrent_ctrl_attached (t : TapState) (e : Engine) : (setCurrent t e).ctrl.attached = e.ctrl.attached := rfl
@[simp] theorem setCurrent_io (t : TapState) (e : Engine) : (setCurrent t e).io = e.io := rfl

/-! ### `freezeChain` -/

@[simp] theorem freezeChain_ctrl_currentState (e : Engine) : (freezeChain e).ctrl.currentState = e.ctrl.currentState := rfl
@[simp] theorem freezeChain_ctrl_stateKnown (e : Engine) : (freezeChain e).ctrl.stateKnown = e.ctrl.stateKnown := rfl
@[simp] theorem freezeChain_ctrl_frequencyHz (e : Engine) : (freezeChain e).ctrl.frequencyHz = e.ctrl.frequencyHz := rfl
@[simp] theorem freezeChain_ctrl_chain (e : Engine) : (freezeChain e).ctrl.chain = e.ctrl.chain := rfl
@[simp] theorem freezeChain_ctrl_lock (e : Engine) : (freezeChain e).ctrl.lock = e.ctrl.lock := rfl
@[simp] theorem freezeChain_ctrl_chainFrozen (e : Engine) : (freezeChain e).ctrl.chainFrozen = true := rfl
@[simp] theorem freezeChain_ctrl_attached (e : Engine) : (freezeChain e).ctrl.attached = e.ctrl.attached := rfl
@[simp] theorem freezeChain_io (e : Engine) : (freezeChain e).io = e.io := rfl

/-! ### `deliver` -/

@[simp] theorem deliver_toEngine (c : CallerId) (r : Result) (s : State) : (deliver c r s).toEngine = s.toEngine := rfl
@[simp] theorem deliver_lockTimeoutClears (c : CallerId) (r : Result) (s : State) : (deliver c r s).lockTimeoutClears = s.lockTimeoutClears := rfl
@[simp] theorem deliver_inbox (c : CallerId) (r : Result) (s : State) : (deliver c r s).inbox = s.inbox.eraseP fun q => q.caller == c := rfl
@[simp] theorem deliver_turns (c : CallerId) (r : Result) (s : State) : (deliver c r s).turns = s.turns := rfl
@[simp] theorem deliver_caller (c : CallerId) (r : Result) (s : State) : (deliver c r s).caller = s.caller := rfl
@[simp] theorem deliver_draw (c : CallerId) (r : Result) (s : State) : (deliver c r s).draw = s.draw := rfl
@[simp] theorem deliver_results (c : CallerId) (r : Result) (s : State) : (deliver c r s).results = s.results ++ [(c, r)] := rfl

/-! ### `complete` -/

@[simp] theorem complete_toEngine (r : Result) (s : State) : (complete r s).toEngine = s.toEngine := rfl
@[simp] theorem complete_lockTimeoutClears (r : Result) (s : State) : (complete r s).lockTimeoutClears = s.lockTimeoutClears := rfl
@[simp] theorem complete_inbox (r : Result) (s : State) : (complete r s).inbox = s.inbox.eraseP fun q => q.caller == s.caller := rfl
@[simp] theorem complete_turns (r : Result) (s : State) : (complete r s).turns = s.turns := rfl
@[simp] theorem complete_caller (r : Result) (s : State) : (complete r s).caller = s.caller := rfl
@[simp] theorem complete_draw (r : Result) (s : State) : (complete r s).draw = s.draw := rfl
@[simp] theorem complete_results (r : Result) (s : State) : (complete r s).results = s.results ++ [(s.caller, r)] := rfl

/-! ### `setEngine` -/

@[simp] theorem setEngine_toEngine (e : Engine) (s : State) : (setEngine e s).toEngine = e := rfl
@[simp] theorem setEngine_lockTimeoutClears (e : Engine) (s : State) : (setEngine e s).lockTimeoutClears = s.lockTimeoutClears := rfl
@[simp] theorem setEngine_inbox (e : Engine) (s : State) : (setEngine e s).inbox = s.inbox := rfl
@[simp] theorem setEngine_turns (e : Engine) (s : State) : (setEngine e s).turns = s.turns := rfl
@[simp] theorem setEngine_caller (e : Engine) (s : State) : (setEngine e s).caller = s.caller := rfl
@[simp] theorem setEngine_draw (e : Engine) (s : State) : (setEngine e s).draw = s.draw := rfl
@[simp] theorem setEngine_results (e : Engine) (s : State) : (setEngine e s).results = s.results := rfl

/-! ### `setIo` -/

@[simp] theorem setIo_ctrl (io : Interface) (s : State) : (setIo io s).ctrl = s.ctrl := rfl
@[simp] theorem setIo_io (io : Interface) (s : State) : (setIo io s).io = io := rfl
@[simp] theorem setIo_lockTimeoutClears (io : Interface) (s : State) : (setIo io s).lockTimeoutClears = s.lockTimeoutClears := rfl
@[simp] theorem setIo_inbox (io : Interface) (s : State) : (setIo io s).inbox = s.inbox := rfl
@[simp] theorem setIo_turns (io : Interface) (s : State) : (setIo io s).turns = s.turns := rfl
@[simp] theorem setIo_caller (io : Interface) (s : State) : (setIo io s).caller = s.caller := rfl
@[simp] theorem setIo_draw (io : Interface) (s : State) : (setIo io s).draw = s.draw := rfl
@[simp] theorem setIo_results (io : Interface) (s : State) : (setIo io s).results = s.results := rfl

/-! ### `setLock` -/

@[simp] theorem setLock_ctrl_currentState (l : Lock) (s : State) : (setLock l s).ctrl.currentState = s.ctrl.currentState := rfl
@[simp] theorem setLock_ctrl_stateKnown (l : Lock) (s : State) : (setLock l s).ctrl.stateKnown = s.ctrl.stateKnown := rfl
@[simp] theorem setLock_ctrl_frequencyHz (l : Lock) (s : State) : (setLock l s).ctrl.frequencyHz = s.ctrl.frequencyHz := rfl
@[simp] theorem setLock_ctrl_chain (l : Lock) (s : State) : (setLock l s).ctrl.chain = s.ctrl.chain := rfl
@[simp] theorem setLock_ctrl_lock (l : Lock) (s : State) : (setLock l s).ctrl.lock = l := rfl
@[simp] theorem setLock_ctrl_chainFrozen (l : Lock) (s : State) : (setLock l s).ctrl.chainFrozen = s.ctrl.chainFrozen := rfl
@[simp] theorem setLock_ctrl_attached (l : Lock) (s : State) : (setLock l s).ctrl.attached = s.ctrl.attached := rfl
@[simp] theorem setLock_io (l : Lock) (s : State) : (setLock l s).io = s.io := rfl
@[simp] theorem setLock_lockTimeoutClears (l : Lock) (s : State) : (setLock l s).lockTimeoutClears = s.lockTimeoutClears := rfl
@[simp] theorem setLock_inbox (l : Lock) (s : State) : (setLock l s).inbox = s.inbox := rfl
@[simp] theorem setLock_turns (l : Lock) (s : State) : (setLock l s).turns = s.turns := rfl
@[simp] theorem setLock_caller (l : Lock) (s : State) : (setLock l s).caller = s.caller := rfl
@[simp] theorem setLock_draw (l : Lock) (s : State) : (setLock l s).draw = s.draw := rfl
@[simp] theorem setLock_results (l : Lock) (s : State) : (setLock l s).results = s.results := rfl

/-! ### `grant` -/

@[simp] theorem grant_ctrl_currentState (s : State) : (grant s).ctrl.currentState = s.ctrl.currentState := rfl
@[simp] theorem grant_ctrl_stateKnown (s : State) : (grant s).ctrl.stateKnown = s.ctrl.stateKnown := rfl
@[simp] theorem grant_ctrl_frequencyHz (s : State) : (grant s).ctrl.frequencyHz = s.ctrl.frequencyHz := rfl
@[simp] theorem grant_ctrl_chain (s : State) : (grant s).ctrl.chain = s.ctrl.chain := rfl
@[simp] theorem grant_ctrl_lock (s : State) : (grant s).ctrl.lock = { phase := .busy, owner := some s.caller, waiters := dropWaiter s.caller s.ctrl.lock.waiters } := rfl
@[simp] theorem grant_ctrl_chainFrozen (s : State) : (grant s).ctrl.chainFrozen = s.ctrl.chainFrozen := rfl
@[simp] theorem grant_ctrl_attached (s : State) : (grant s).ctrl.attached = s.ctrl.attached := rfl
@[simp] theorem grant_io (s : State) : (grant s).io = s.io := rfl
@[simp] theorem grant_lockTimeoutClears (s : State) : (grant s).lockTimeoutClears = s.lockTimeoutClears := rfl
@[simp] theorem grant_inbox (s : State) : (grant s).inbox = s.inbox := rfl
@[simp] theorem grant_turns (s : State) : (grant s).turns = s.turns := rfl
@[simp] theorem grant_caller (s : State) : (grant s).caller = s.caller := rfl
@[simp] theorem grant_draw (s : State) : (grant s).draw = s.draw := rfl
@[simp] theorem grant_results (s : State) : (grant s).results = s.results := rfl

/-! ### `enqueue` -/

@[simp] theorem enqueue_ctrl_currentState (s : State) : (enqueue s).ctrl.currentState = s.ctrl.currentState := rfl
@[simp] theorem enqueue_ctrl_stateKnown (s : State) : (enqueue s).ctrl.stateKnown = s.ctrl.stateKnown := rfl
@[simp] theorem enqueue_ctrl_frequencyHz (s : State) : (enqueue s).ctrl.frequencyHz = s.ctrl.frequencyHz := rfl
@[simp] theorem enqueue_ctrl_chain (s : State) : (enqueue s).ctrl.chain = s.ctrl.chain := rfl
@[simp] theorem enqueue_ctrl_lock (s : State) : (enqueue s).ctrl.lock = { s.ctrl.lock with waiters := addWaiter s.caller s.ctrl.lock.waiters } := rfl
@[simp] theorem enqueue_ctrl_chainFrozen (s : State) : (enqueue s).ctrl.chainFrozen = s.ctrl.chainFrozen := rfl
@[simp] theorem enqueue_ctrl_attached (s : State) : (enqueue s).ctrl.attached = s.ctrl.attached := rfl
@[simp] theorem enqueue_io (s : State) : (enqueue s).io = s.io := rfl
@[simp] theorem enqueue_lockTimeoutClears (s : State) : (enqueue s).lockTimeoutClears = s.lockTimeoutClears := rfl
@[simp] theorem enqueue_inbox (s : State) : (enqueue s).inbox = s.inbox := rfl
@[simp] theorem enqueue_turns (s : State) : (enqueue s).turns = s.turns := rfl
@[simp] theorem enqueue_caller (s : State) : (enqueue s).caller = s.caller := rfl
@[simp] theorem enqueue_draw (s : State) : (enqueue s).draw = s.draw := rfl
@[simp] theorem enqueue_results (s : State) : (enqueue s).results = s.results := rfl

/-! ### `release` -/

@[simp] theorem release_ctrl_currentState (r : Result) (s : State) : (release r s).ctrl.currentState = s.ctrl.currentState := rfl
@[simp] theorem release_ctrl_stateKnown (r : Result) (s : State) : (release r s).ctrl.stateKnown = s.ctrl.stateKnown := rfl
@[simp] theorem release_ctrl_frequencyHz (r : Result) (s : State) : (release r s).ctrl.frequencyHz = s.ctrl.frequencyHz := rfl
@[simp] theorem release_ctrl_chain (r : Result) (s : State) : (release r s).ctrl.chain = s.ctrl.chain := rfl
@[simp] theorem release_ctrl_lock (r : Result) (s : State) : (release r s).ctrl.lock = { s.ctrl.lock with phase := .idle, owner := none } := rfl
@[simp] theorem release_ctrl_chainFrozen (r : Result) (s : State) : (release r s).ctrl.chainFrozen = s.ctrl.chainFrozen := rfl
@[simp] theorem release_ctrl_attached (r : Result) (s : State) : (release r s).ctrl.attached = s.ctrl.attached := rfl
@[simp] theorem release_io (r : Result) (s : State) : (release r s).io = s.io := rfl
@[simp] theorem release_lockTimeoutClears (r : Result) (s : State) : (release r s).lockTimeoutClears = s.lockTimeoutClears := rfl
@[simp] theorem release_inbox (r : Result) (s : State) : (release r s).inbox = s.inbox.eraseP fun q => q.caller == s.caller := rfl
@[simp] theorem release_turns (r : Result) (s : State) : (release r s).turns = s.turns := rfl
@[simp] theorem release_caller (r : Result) (s : State) : (release r s).caller = s.caller := rfl
@[simp] theorem release_draw (r : Result) (s : State) : (release r s).draw = s.draw := rfl
@[simp] theorem release_results (r : Result) (s : State) : (release r s).results = s.results ++ [(s.caller, r)] := rfl

/-! ### `dropTurn` -/

@[simp] theorem dropTurn_toEngine (s : State) : (dropTurn s).toEngine = s.toEngine := rfl
@[simp] theorem dropTurn_lockTimeoutClears (s : State) : (dropTurn s).lockTimeoutClears = s.lockTimeoutClears := rfl
@[simp] theorem dropTurn_inbox (s : State) : (dropTurn s).inbox = s.inbox := rfl
@[simp] theorem dropTurn_turns (s : State) : (dropTurn s).turns = s.turns.tail := rfl
@[simp] theorem dropTurn_caller (s : State) : (dropTurn s).caller = s.caller := rfl
@[simp] theorem dropTurn_draw (s : State) : (dropTurn s).draw = s.draw := rfl
@[simp] theorem dropTurn_results (s : State) : (dropTurn s).results = s.results := rfl

/-! ### `setMover` -/

@[simp] theorem setMover_toEngine (c : CallerId) (d : LockDraw) (s : State) : (setMover c d s).toEngine = s.toEngine := rfl
@[simp] theorem setMover_lockTimeoutClears (c : CallerId) (d : LockDraw) (s : State) : (setMover c d s).lockTimeoutClears = s.lockTimeoutClears := rfl
@[simp] theorem setMover_inbox (c : CallerId) (d : LockDraw) (s : State) : (setMover c d s).inbox = s.inbox := rfl
@[simp] theorem setMover_turns (c : CallerId) (d : LockDraw) (s : State) : (setMover c d s).turns = s.turns := rfl
@[simp] theorem setMover_caller (c : CallerId) (d : LockDraw) (s : State) : (setMover c d s).caller = c := rfl
@[simp] theorem setMover_draw (c : CallerId) (d : LockDraw) (s : State) : (setMover c d s).draw = d := rfl
@[simp] theorem setMover_results (c : CallerId) (d : LockDraw) (s : State) : (setMover c d s).results = s.results := rfl

/-! ### `logEdges` -/

@[simp] theorem logEdges_backend (es : List Edge) (io : Interface) : (logEdges es io).backend = io.backend := rfl
@[simp] theorem logEdges_target (es : List Edge) (io : Interface) : (logEdges es io).target = io.target := rfl
@[simp] theorem logEdges_outcomes (es : List Edge) (io : Interface) : (logEdges es io).outcomes = io.outcomes := rfl
@[simp] theorem logEdges_drawn (es : List Edge) (io : Interface) : (logEdges es io).drawn = io.drawn := rfl
@[simp] theorem logEdges_wire (es : List Edge) (io : Interface) : (logEdges es io).wire = io.wire ++ [es] := rfl
@[simp] theorem logEdges_opcodes (es : List Edge) (io : Interface) : (logEdges es io).opcodes = io.opcodes := rfl

/-! ### `dropOutcome` -/

@[simp] theorem dropOutcome_backend (io : Interface) : (dropOutcome io).backend = io.backend := rfl
@[simp] theorem dropOutcome_target (io : Interface) : (dropOutcome io).target = io.target := rfl
@[simp] theorem dropOutcome_outcomes (io : Interface) : (dropOutcome io).outcomes = io.outcomes.tail := rfl
@[simp] theorem dropOutcome_drawn (io : Interface) : (dropOutcome io).drawn = io.drawn := rfl
@[simp] theorem dropOutcome_wire (io : Interface) : (dropOutcome io).wire = io.wire := rfl
@[simp] theorem dropOutcome_opcodes (io : Interface) : (dropOutcome io).opcodes = io.opcodes := rfl

/-! ### `clockEdge` -/

@[simp] theorem clockEdge_backend (e : Edge) (io : Interface) : (clockEdge e io).backend = { io.backend with book := tapNext io.backend.book e.tms, lines := linesAfter io.backend e } := rfl
@[simp] theorem clockEdge_target (e : Edge) (io : Interface) : (clockEdge e io).target = targetEdge e io.target := rfl
@[simp] theorem clockEdge_outcomes (e : Edge) (io : Interface) : (clockEdge e io).outcomes = io.outcomes := rfl
@[simp] theorem clockEdge_drawn (e : Edge) (io : Interface) : (clockEdge e io).drawn = io.drawn := rfl
@[simp] theorem clockEdge_wire (e : Edge) (io : Interface) : (clockEdge e io).wire = io.wire := rfl
@[simp] theorem clockEdge_opcodes (e : Edge) (io : Interface) : (clockEdge e io).opcodes = io.opcodes := rfl

end Sys2Proof.Machine
end

