-- ==== Sys2Proof/Laws/Tap.lean ====
section
/-! SUPPORT. Laws of the TAP State Machine and of runs over it. -/

namespace Sys2Proof.Machine

@[simp] theorem tapRun_nil (s : TapState) : tapRun s [] = s := rfl

@[simp] theorem tapRun_cons (s : TapState) (b : Bool) (r : BitSeq) : tapRun s (b :: r) = tapRun (tapNext s b) r := rfl

/-- R117: `run(s, a ++ b) = run(run(s, a), b)`. -/
theorem tapRun_append (a b : BitSeq) (s : TapState) : tapRun s (a ++ b) = tapRun (tapRun s a) b := by
  induction a generalizing s with
  | nil => rfl
  | cons x r ih => exact ih _

theorem tapOfCode_tapCode (s : TapState) : tapOfCode (tapCode s) = s := by cases s <;> rfl

theorem tapCode_lt (s : TapState) : tapCode s < 16 := by cases s <;> decide

/-- R115: a canonical path ends at its target. -/
theorem tapRun_tapPath (a b : TapState) : tapRun a (tapPath a b) = b := by cases a <;> cases b <;> rfl

/-- R113: a canonical path has at most 8 bits. -/
theorem tapPath_length_le (a b : TapState) : (tapPath a b).length ≤ 8 := by cases a <;> cases b <;> decide

theorem tapPath_self (s : TapState) : tapPath s s = [] := by cases s <;> rfl

/-- R115: the prefix of a scan has at most 6 bits. -/
theorem tapPath_shiftOf_length_le (s : TapState) (p : ScanTarget) : (tapPath s (shiftOf p)).length ≤ 6 := by
  cases s <;> cases p <;> decide

/-- R115: the suffix of a scan has 1 to 4 bits. -/
theorem suffix_length {p : ScanTarget} {e : TapState} (h : legalEnd p e = true) :
    1 ≤ (tapPath (exit1Of p) e).length ∧ (tapPath (exit1Of p) e).length ≤ 4 := by
  revert h; cases p <;> cases e <;> decide

/-- R112: five one-edges reach Reset. -/
theorem tapRun_ones_five (s : TapState) : tapRun s (ones Config.hardResetEdges) = .reset := by cases s <;> rfl

/-- The Shift states hold on mode bit 0. -/
theorem tapRun_shiftOf_zeros (p : ScanTarget) (n : Nat) : tapRun (shiftOf p) (zeros n) = shiftOf p := by
  induction n with
  | zero => rfl
  | succ n ih => cases p <;> exact ih

end Sys2Proof.Machine
end

