-- ==== Sys2Proof/Laws/Edges.lean ====
section
/-! SUPPORT. What driving edges does: the bits sampled, and the interface left (R181, R182). -/

namespace Sys2Proof.Machine

@[simp] theorem ones_length (n : Nat) : (ones n).length = n := List.length_replicate

@[simp] theorem zeros_length (n : Nat) : (zeros n).length = n := List.length_replicate

theorem slice_length {α : Type} (i j : Nat) (b : List α) (h : j ≤ b.length) : (slice i j b).length = j - i := by
  simp [slice]; omega

/-- Two adjacent slices make one. -/
theorem slice_append {α : Type} {i j k : Nat} (b : List α) (h : i ≤ j) (h' : j ≤ k) :
    slice i j b ++ slice j k b = slice i k b := by
  unfold slice
  have e : b.drop j = (b.drop i).drop (j - i) := by simp; congr 1; omega
  rw [e, show k - i = (j - i) + (k - j) by omega, List.take_add]

theorem slice_all {α : Type} (b : List α) : slice 0 b.length b = b := by simp [slice]

theorem edgesOf_append {a b x y : BitSeq} (h : a.length = x.length) :
    edgesOf (a ++ b) (x ++ y) = edgesOf a x ++ edgesOf b y := by
  unfold edgesOf; exact List.zipWith_append h

@[simp] theorem edgesOf_length (a x : BitSeq) : (edgesOf a x).length = min a.length x.length := by simp [edgesOf]

/-- The mode bits of the edges of a transfer. -/
theorem edgesOf_tms {a x : BitSeq} (h : a.length = x.length) : (edgesOf a x).map (·.tms) = a := by
  unfold edgesOf
  induction a generalizing x with
  | nil => rfl
  | cons b r ih =>
    cases x with
    | nil => cases h
    | cons y s => simp only [List.zipWith_cons_cons, List.map_cons]; rw [ih (by simpa using h)]

theorem edgesOf_slice {a x : BitSeq} (h : a.length = x.length) {i j k : Nat} (hij : i ≤ j) (hjk : j ≤ k)
    (hk : k ≤ a.length) :
    edgesOf (slice i j a) (slice i j x) ++ edgesOf (slice j k a) (slice j k x) =
      edgesOf (slice i k a) (slice i k x) := by
  rw [← edgesOf_append (by rw [slice_length _ _ _ (by omega), slice_length _ _ _ (by omega)]),
    slice_append _ hij hjk, slice_append _ hij hjk]

/-! ### `targetRun` and `driveEdges` -/

@[simp] theorem targetRun_nil (t : Target) : targetRun [] t = t := rfl

@[simp] theorem targetRun_cons (e : Edge) (es : List Edge) (t : Target) :
    targetRun (e :: es) t = targetRun es (targetEdge e t) := rfl

theorem targetRun_append (a b : List Edge) (t : Target) : targetRun (a ++ b) t = targetRun b (targetRun a t) := by
  induction a generalizing t with
  | nil => rfl
  | cons e r ih => exact ih _

/-- R35: the target's TAP state after a sequence of edges. -/
theorem targetRun_tap (es : List Edge) (t : Target) : (targetRun es t).tap = tapRun t.tap (es.map (·.tms)) := by
  induction es generalizing t with
  | nil => rfl
  | cons e r ih => exact ih _

@[simp] theorem driveEdges_nil (io : Interface) : driveEdges [] io = ([], io) := rfl

theorem driveEdges_cons (e : Edge) (es : List Edge) (io : Interface) :
    driveEdges (e :: es) io =
      ((driveEdge e io).1 :: (driveEdges es (driveEdge e io).2).1, (driveEdges es (driveEdge e io).2).2) := rfl

/-- One edge: the target and the bookkeeping move, and nothing else of the setting changes. -/
theorem driveEdge_fields (e : Edge) (io : Interface) :
    (driveEdge e io).2.target = targetEdge e io.target ∧
      (driveEdge e io).2.backend.book = tapNext io.backend.book e.tms ∧
        (driveEdge e io).2.backend.spec = io.backend.spec ∧ (driveEdge e io).2.backend.enabled = io.backend.enabled ∧
          (driveEdge e io).2.backend.rate = io.backend.rate ∧
            (driveEdge e io).2.backend.halfPeriodNs = io.backend.halfPeriodNs ∧
              (driveEdge e io).2.backend.regs = io.backend.regs ∧
                (driveEdge e io).2.backend.channel = io.backend.channel ∧
                  (driveEdge e io).2.wire = io.wire ∧ (driveEdge e io).2.outcomes = io.outcomes ∧
                    (driveEdge e io).2.opcodes = io.opcodes := by
  unfold driveEdge sampleOut
  cases dataOut io.target <;> simp

/-- R181: what a sequence of edges does. -/
theorem driveEdges_fields (es : List Edge) (io : Interface) :
    (driveEdges es io).2.target = targetRun es io.target ∧
      (driveEdges es io).2.backend.book = tapRun io.backend.book (es.map (·.tms)) ∧
        (driveEdges es io).2.backend.spec = io.backend.spec ∧ (driveEdges es io).2.backend.enabled = io.backend.enabled ∧
          (driveEdges es io).2.backend.rate = io.backend.rate ∧
            (driveEdges es io).2.backend.halfPeriodNs = io.backend.halfPeriodNs ∧
              (driveEdges es io).2.backend.regs = io.backend.regs ∧
                (driveEdges es io).2.backend.channel = io.backend.channel ∧
                  (driveEdges es io).2.wire = io.wire ∧ (driveEdges es io).2.outcomes = io.outcomes ∧
                    (driveEdges es io).2.opcodes = io.opcodes := by
  induction es generalizing io with
  | nil => simp
  | cons e r ih =>
    obtain ⟨a1, a2, a3, a4, a5, a6, a7, a8, a9, a10, a11⟩ := driveEdge_fields e io
    obtain ⟨b1, b2, b3, b4, b5, b6, b7, b8, b9, b10, b11⟩ := ih (driveEdge e io).2
    rw [driveEdges_cons]
    exact ⟨b1.trans (by rw [a1]; rfl), b2.trans (by rw [a2]; rfl), b3.trans a3, b4.trans a4, b5.trans a5,
      b6.trans a6, b7.trans a7, b8.trans a8, b9.trans a9, b10.trans a10, b11.trans a11⟩

/-- R32: only a bitbang backend has lines to move. -/
theorem driveEdges_lines (es : List Edge) {io : Interface} (h : io.backend.spec.variant ≠ .bitbang) :
    (driveEdges es io).2.backend.lines = io.backend.lines := by
  induction es generalizing io with
  | nil => rfl
  | cons e r ih =>
    have hs := (driveEdge_fields e io).2.2.1
    have h1 : (driveEdge e io).2.backend.lines = io.backend.lines := by
      have : ∀ b : Backend, b.spec = io.backend.spec → linesAfter b e = b.lines := by
        intro b hb; unfold linesAfter; rw [hb]; split
        · rename_i hv; exact absurd hv h
        · rfl
      unfold driveEdge sampleOut
      cases dataOut io.target <;> exact this _ rfl
    rw [driveEdges_cons]
    exact (ih (by rw [hs]; exact h)).trans h1

/-- R181: one bit is sampled for each edge. -/
@[simp] theorem driveEdges_length (es : List Edge) (io : Interface) : (driveEdges es io).1.length = es.length := by
  induction es generalizing io with
  | nil => rfl
  | cons e r ih => rw [driveEdges_cons]; simp [ih]

/-- R183: edges one after another are one sequence of edges. -/
theorem driveEdges_append (a b : List Edge) (io : Interface) :
    driveEdges (a ++ b) io =
      ((driveEdges a io).1 ++ (driveEdges b (driveEdges a io).2).1, (driveEdges b (driveEdges a io).2).2) := by
  induction a generalizing io with
  | nil => rfl
  | cons e r ih => simp only [List.cons_append, driveEdges_cons, ih]

/-- What an interface has in common with another as far as sampling goes: the target and the count of draws. -/
def SamplesAs (io io' : Interface) : Prop := io.target = io'.target ∧ io.drawn = io'.drawn

theorem driveEdge_samples {io io' : Interface} (h : SamplesAs io io') (e : Edge) :
    (driveEdge e io).1 = (driveEdge e io').1 ∧ SamplesAs (driveEdge e io).2 (driveEdge e io').2 := by
  obtain ⟨h1, h2⟩ := h
  unfold driveEdge sampleOut SamplesAs
  rw [← h1]
  cases dataOut io.target <;> simp [h1, h2]

/-- The bits sampled depend on the target and the count of draws only. -/
theorem driveEdges_samples {io io' : Interface} (h : SamplesAs io io') (es : List Edge) :
    (driveEdges es io).1 = (driveEdges es io').1 ∧ SamplesAs (driveEdges es io).2 (driveEdges es io').2 := by
  induction es generalizing io io' with
  | nil => exact ⟨rfl, h⟩
  | cons e r ih =>
    have ⟨a, b⟩ := driveEdge_samples h e
    have ⟨c, d⟩ := ih b
    rw [driveEdges_cons, driveEdges_cons]
    exact ⟨by rw [a, c], d⟩

/-! ### `Drives` -/

theorem drives_refl (io : Interface) : Drives [] io io :=
  ⟨by simp, rfl, rfl, rfl, rfl, rfl, rfl, rfl, fun _ => rfl, fun _ => rfl, fun _ => rfl⟩

theorem drives_trans {a b : List Edge} {io io1 io2 : Interface} (h : Drives a io io1) (h' : Drives b io1 io2) :
    Drives (a ++ b) io io2 where
  wire := by rw [h'.wire, h.wire, List.append_assoc]
  target := by rw [h'.target, h.target, targetRun_append]
  book := by rw [h'.book, h.book, List.map_append, tapRun_append]
  spec := h'.spec.trans h.spec
  enabled := h'.enabled.trans h.enabled
  rate := h'.rate.trans h.rate
  halfPeriod := h'.halfPeriod.trans h.halfPeriod
  opcodes := h'.opcodes.trans h.opcodes
  lines := fun v => (h'.lines (by rw [h.spec]; exact v)).trans (h.lines v)
  regs := fun v => (h'.regs (by rw [h.spec]; exact v)).trans (h.regs v)
  channel := fun v => (h'.channel (by rw [h.spec]; exact v)).trans (h.channel v)

end Sys2Proof.Machine
end

