-- ==== Sys2Proof/Laws/Transport.lean ====
section
/-! SUPPORT. What each backend primitive can do, said once: its result, the edges it delivers, and what it leaves. -/

namespace Sys2Proof.Machine

/-! ### Computations -/

@[simp] theorem done_apply {σ α : Type} (a : α) (s : σ) : done a s = (.ok a, s) := rfl

@[simp] theorem update_apply {σ : Type} (f : σ → σ) (s : σ) : update f s = (.ok (), f s) := rfl

@[simp] theorem check_true {σ : Type} (k : ErrKind) (s : σ) : check true k s = (.ok (), s) := rfl

@[simp] theorem check_false {σ : Type} (k : ErrKind) (s : σ) : check false k s = (.err k, s) := rfl

theorem andThen_ok {σ α β : Type} {m : Act σ α} {f : α → Act σ β} {s s' : σ} {a : α} (h : m s = (.ok a, s')) :
    andThen m f s = f a s' := by unfold andThen; rw [h]

theorem andThen_err {σ α β : Type} {m : Act σ α} {f : α → Act σ β} {s s' : σ} {k : ErrKind} (h : m s = (.err k, s')) :
    andThen m f s = (.err k, s') := by unfold andThen; rw [h]

theorem andThen_stop {σ α β : Type} {m : Act σ α} {f : α → Act σ β} {s s' : σ} {x : Refusal} (h : m s = (.stop x, s')) :
    andThen m f s = (.stop x, s') := by unfold andThen; rw [h]

/-- Everything `andThen` can do. -/
theorem andThen_cases {σ α β : Type} (m : Act σ α) (f : α → Act σ β) (s : σ) :
    (∃ a s', m s = (.ok a, s') ∧ andThen m f s = f a s') ∨ (∃ k s', m s = (.err k, s') ∧ andThen m f s = (.err k, s')) ∨
      ∃ x s', m s = (.stop x, s') ∧ andThen m f s = (.stop x, s') := by
  rcases h : m s with ⟨a | k | x, s'⟩
  · exact .inl ⟨a, s', rfl, andThen_ok h⟩
  · exact .inr (.inl ⟨k, s', rfl, andThen_err h⟩)
  · exact .inr (.inr ⟨x, s', rfl, andThen_stop h⟩)

/-! ### A backend call -/

/-- R201: a backend that may be called is called. -/
theorem whenEnabled_usable {α : Type} (p : Prim α) {io : Interface} (h : Usable io) : whenEnabled p io = p io :=
  if_pos h

/-- R201: one that may not be is not called; the interface stays as it was. -/
theorem whenEnabled_disabled {α : Type} (p : Prim α) {io : Interface} (h : ¬Usable io) :
    whenEnabled p io = (.err .busFault, io) := if_neg h

/-- Edges leave `enabled` and the capabilities as they were, so whether the backend may be called (R201). -/
theorem drives_usable {es : List Edge} {io io' : Interface} (h : Drives es io io') : Usable io' ↔ Usable io := by
  unfold Usable usable; rw [h.spec, h.enabled]

/-- What a variant writes into its own registers or channel before a transfer shows in nothing that sampling reads. -/
theorem program_fields (tms tdi : BitSeq) (io : Interface) :
    (program tms tdi io).target = io.target ∧ (program tms tdi io).drawn = io.drawn ∧
      (program tms tdi io).outcomes = io.outcomes := by
  unfold program
  split <;> exact ⟨rfl, rfl, rfl⟩

/-- Nor what they hold after it. -/
theorem settle_fields (out : BitSeq) (io : Interface) :
    (settle out io).target = io.target ∧ (settle out io).drawn = io.drawn ∧
      (settle out io).outcomes = io.outcomes := by
  unfold settle
  split <;> exact ⟨rfl, rfl, rfl⟩

/-- R192, R197: writing the registers or the channel of a variant drives no edge. -/
theorem program_drives (tms tdi : BitSeq) (io : Interface) : Drives [] io (program tms tdi io) := by
  unfold program
  split <;> rename_i hv
  · exact ⟨by simp [wireEdges], rfl, rfl, rfl, rfl, rfl, rfl, rfl, fun _ => rfl, fun h => absurd hv (h _), fun _ => rfl⟩
  · exact drives_refl io
  · exact ⟨by simp [wireEdges], rfl, rfl, rfl, rfl, rfl, rfl, rfl, fun _ => rfl, fun _ => rfl, fun h => absurd hv (h _)⟩

theorem settle_drives (out : BitSeq) (io : Interface) : Drives [] io (settle out io) := by
  unfold settle
  split <;> rename_i hv
  · exact ⟨by simp [wireEdges], rfl, rfl, rfl, rfl, rfl, rfl, rfl, fun _ => rfl, fun h => absurd hv (h _), fun _ => rfl⟩
  · exact drives_refl io
  · exact ⟨by simp [wireEdges], rfl, rfl, rfl, rfl, rfl, rfl, rfl, fun _ => rfl, fun _ => rfl, fun h => absurd hv (h _)⟩

theorem settleFailed_drives (k : ErrKind) (io : Interface) : Drives [] io (settleFailed k io) := by
  unfold settleFailed
  split <;> rename_i hv
  · exact ⟨by simp [wireEdges], rfl, rfl, rfl, rfl, rfl, rfl, rfl, fun _ => rfl, fun h => absurd hv (h _), fun _ => rfl⟩
  · exact drives_refl io
  · exact ⟨by simp [wireEdges], rfl, rfl, rfl, rfl, rfl, rfl, rfl, fun _ => rfl, fun _ => rfl, fun h => absurd hv (h _)⟩

/-- R181, R354: a call's edges, driven and recorded. -/
theorem logged_drives (es : List Edge) (io : Interface) : Drives es io (logEdges es (driveEdges es io).2) := by
  obtain ⟨d1, d2, d3, d4, d5, d6, d7, d8, d9, -, d11⟩ := driveEdges_fields es io
  exact ⟨by simp [wireEdges, d9], d1, d2, d3, d4, d5, d6, d11, driveEdges_lines es, fun _ => d7, fun _ => d8⟩

/-- R32: free lines show nowhere but on the lines of a bitbang backend. -/
theorem loose_drives {es : List Edge} {io io' : Interface} (h : Drives es io io') : Drives es io (looseLines io') := by
  unfold looseLines
  split
  · rename_i hv
    exact ⟨h.wire, h.target, h.book, h.spec, h.enabled, h.rate, h.halfPeriod, h.opcodes,
      fun v => absurd (h.spec ▸ hv) v, h.regs, h.channel⟩
  · exact h

/-- R186: the edges delivered by a call that fails. -/
theorem failing_drives (es : List Edge) (n : Nat) (io : Interface) : Drives (es.take n) io (driveFailing es n io) := by
  unfold driveFailing
  dsimp only
  split
  · exact loose_drives (logged_drives _ _)
  · exact logged_drives _ _

theorem dropOutcome_drives (io : Interface) : Drives [] io (dropOutcome io) :=
  ⟨by simp [wireEdges], rfl, rfl, rfl, rfl, rfl, rfl, rfl, fun _ => rfl, fun _ => rfl, fun _ => rfl⟩

/-- Programmed before the edges and settled after them: the edges, as `Drives` says. -/
theorem call_drives {es : List Edge} {tms tdi : BitSeq} {io io1 io2 : Interface}
    (h : Drives es (program tms tdi (dropOutcome io)) io1) (h' : Drives [] io1 io2) : Drives es io io2 := by
  have := drives_trans (drives_trans (drives_trans (dropOutcome_drives io) (program_drives tms tdi _)) h) h'
  simpa using this

theorem burst_samples (es : List Edge) (tms tdi : BitSeq) (out : BitSeq) {io io' : Interface}
    (h : SamplesAs io io') :
    (driveEdges es (program tms tdi (dropOutcome io))).1 = (driveEdges es io').1 ∧
      SamplesAs (settle out (logEdges es (driveEdges es (program tms tdi (dropOutcome io))).2)) (driveEdges es io').2 := by
  obtain ⟨p1, p2, -⟩ := program_fields tms tdi (dropOutcome io)
  have ⟨a, b⟩ := driveEdges_samples (io := program tms tdi (dropOutcome io)) (io' := io')
    ⟨p1.trans h.1, p2.trans h.2⟩ es
  obtain ⟨s1, s2, -⟩ := settle_fields out (logEdges es (driveEdges es (program tms tdi (dropOutcome io))).2)
  exact ⟨a, s1.trans b.1, s2.trans b.2⟩

/-- R181, R185, R186: everything one edge-driving backend call can do: all its edges and one bit for each, or a prefix
of them and a `TimeoutError` or a `BusFault`; or the refusal of R311. -/
theorem burst_cases (tms tdi : BitSeq) (io : Interface) :
    (∃ out io', burst tms tdi io = (.ok out, io') ∧ out.length = (edgesOf tms tdi).length ∧
        Drives (edgesOf tms tdi) io io') ∨
      (∃ k n io', burst tms tdi io = (.err k, io') ∧ (k = .timeoutError ∨ k = .busFault) ∧
        Drives ((edgesOf tms tdi).take n) io io') ∨ burst tms tdi io = (.stop .backendContract, io) := by
  unfold burst
  by_cases hb : nextOutcome io = .breaksContract
  · exact .inr (.inr (by rw [if_pos hb]))
  rw [if_neg hb]
  cases h : failureOf io.backend.spec.variant (nextOutcome io) with
  | none => exact .inl ⟨_, _, rfl, driveEdges_length _ _, call_drives (logged_drives _ _) (settle_drives _ _)⟩
  | some kn =>
    obtain ⟨k, n⟩ := kn
    refine .inr (.inl ⟨k, n, _, rfl, ?_, call_drives (failing_drives _ _ _) (settleFailed_drives _ _)⟩)
    revert h
    cases nextOutcome io <;> cases io.backend.spec.variant <;> simp [failureOf] <;> rintro rfl <;> simp

/-- The environment has no failure left after a call it did not fail. -/
theorem noFailure_tail {io : Interface} (h : NoFailure io) : nextOutcome io = .completes ∧ NoFailure (dropOutcome io) := by
  unfold nextOutcome
  constructor
  · cases e : io.outcomes with
    | nil => rfl
    | cons d r => exact h d (by rw [e]; exact List.mem_cons_self)
  · exact fun d hd => h d (List.mem_of_mem_tail hd)

/-- A backend call where the environment fails none. -/
theorem burst_completes {tms tdi : BitSeq} {io : Interface} (h : NoFailure io) :
    ∃ io', burst tms tdi io = (.ok (driveEdges (edgesOf tms tdi) io).1, io') ∧ Drives (edgesOf tms tdi) io io' ∧
      NoFailure io' ∧ SamplesAs io' (driveEdges (edgesOf tms tdi) io).2 := by
  have ⟨h1, h2⟩ := noFailure_tail h
  have hs := fun out => burst_samples (edgesOf tms tdi) tms tdi out (io := io) (io' := io) ⟨rfl, rfl⟩
  refine ⟨_, ?_, call_drives (logged_drives (edgesOf tms tdi) _)
    (settle_drives (driveEdges (edgesOf tms tdi) (program tms tdi (dropOutcome io))).1 _), ?_, (hs _).2⟩
  · unfold burst; rw [if_neg (by rw [h1]; decide), h1]; simp only [failureOf]
    rw [← (hs []).1]
  · intro d hd
    rw [(settle_fields _ _).2.2, logEdges_outcomes, (driveEdges_fields _ _).2.2.2.2.2.2.2.2.2.1,
      (program_fields _ _ _).2.2] at hd
    exact h2 d hd

/-- R185, R186: a backend call that the environment fails. -/
theorem burst_fails {tms tdi : BitSeq} {io : Interface} {k : ErrKind} {n : Nat}
    (h : failureOf io.backend.spec.variant (nextOutcome io) = some (k, n)) :
    ∃ io', burst tms tdi io = (.err k, io') ∧ Drives ((edgesOf tms tdi).take n) io io' := by
  refine ⟨_, ?_, call_drives (failing_drives (edgesOf tms tdi) n (program tms tdi (dropOutcome io)))
    (settleFailed_drives k _)⟩
  unfold burst
  rw [if_neg (by intro hb; rw [hb] at h; cases h), h]

/-! ### `transfer` -/

/-- R181: past its checks a `transfer` is one backend call, where the backend may be called. -/
theorem transferPrim_burst {m d : BitSeq} {n : Nat} {io : Interface} (hu : Usable io) (h0 : n ≠ 0) (h1 : m.length = n)
    (h2 : d.length = n) (hl : overLimit (maxTransferBits io.backend.spec) n = false) :
    transferPrim m d n io = burst m d io := by
  unfold transferPrim
  rw [if_neg (by rintro (h | h | h); exacts [h0 h, h h1, h h2]), if_neg (by rw [hl]; decide), whenEnabled_usable _ hu]

/-- R181, R201: and where it may not, it is none. -/
theorem transferPrim_disabled {m d : BitSeq} {n : Nat} {io : Interface} (hu : ¬Usable io) (h0 : n ≠ 0)
    (h1 : m.length = n) (h2 : d.length = n) (hl : overLimit (maxTransferBits io.backend.spec) n = false) :
    transferPrim m d n io = (.err .busFault, io) := by
  unfold transferPrim
  rw [if_neg (by rintro (h | h | h); exacts [h0 h, h h1, h h2]), if_neg (by rw [hl]; decide), whenEnabled_disabled _ hu]

/-- R181, R201: everything `transfer` can do: it ends in an error without a call, or it is one backend call. -/
theorem transferPrim_cases (tms tdi : BitSeq) (n : Nat) (io : Interface) :
    (∃ k, transferPrim tms tdi n io = (.err k, io) ∧
        ((k = .invalidArgument ∧ (n = 0 ∨ tms.length ≠ n ∨ tdi.length ≠ n)) ∨
          (k = .unsupportedOperation ∧ overLimit (maxTransferBits io.backend.spec) n = true) ∨
            (k = .busFault ∧ ¬Usable io))) ∨
      (n ≠ 0 ∧ tms.length = n ∧ tdi.length = n ∧ overLimit (maxTransferBits io.backend.spec) n = false ∧ Usable io ∧
        transferPrim tms tdi n io = burst tms tdi io) := by
  by_cases h1 : n = 0 ∨ tms.length ≠ n ∨ tdi.length ≠ n
  · exact .inl ⟨_, by unfold transferPrim; rw [if_pos h1], .inl ⟨rfl, h1⟩⟩
  · cases h2 : overLimit (maxTransferBits io.backend.spec) n
    · push Not at h1
      by_cases hu : Usable io
      · exact .inr ⟨h1.1, h1.2.1, h1.2.2, rfl, hu, transferPrim_burst hu h1.1 h1.2.1 h1.2.2 h2⟩
      · exact .inl ⟨_, transferPrim_disabled hu h1.1 h1.2.1 h1.2.2 h2, .inr (.inr ⟨rfl, hu⟩)⟩
    · exact .inl ⟨_, by unfold transferPrim; rw [if_neg h1, if_pos h2], .inr (.inl ⟨rfl, rfl⟩)⟩

/-- R181: a `transfer` that answers bits has delivered all its edges, one bit for each. -/
theorem transferPrim_ok {tms tdi out : BitSeq} {n : Nat} {io io' : Interface}
    (h : transferPrim tms tdi n io = (.ok out, io')) : Drives (edgesOf tms tdi) io io' ∧ out.length = n := by
  rcases transferPrim_cases tms tdi n io with ⟨k, h', -⟩ | ⟨-, t1, t2, -, -, h'⟩ <;> rw [h'] at h
  · cases h
  · rcases burst_cases tms tdi io with ⟨o, i, h', hl, d⟩ | ⟨_, _, _, h', -, -⟩ | h' <;> rw [h'] at h <;> cases h
    exact ⟨d, by rw [hl, edgesOf_length, t1, t2, Nat.min_self]⟩

/-- R181, R186: whatever `transfer` does, it has delivered a prefix of its edges. -/
theorem transferPrim_drives (tms tdi : BitSeq) (n : Nat) (io : Interface) :
    ∃ es, es <+: edgesOf tms tdi ∧ Drives es io (transferPrim tms tdi n io).2 := by
  rcases transferPrim_cases tms tdi n io with ⟨k, h, -⟩ | ⟨-, -, -, -, -, h⟩ <;> rw [h]
  · exact ⟨[], List.nil_prefix, drives_refl io⟩
  · rcases burst_cases tms tdi io with ⟨_, _, h, -, d⟩ | ⟨_, _, _, h, -, d⟩ | h <;> rw [h]
    · exact ⟨_, List.prefix_refl _, d⟩
    · exact ⟨_, List.take_prefix _ _, d⟩
    · exact ⟨[], List.nil_prefix, drives_refl io⟩

/-- R181: a transfer of admitted operands on a backend whose limit it keeps, where the backend serves. -/
theorem transferPrim_completes {tms tdi : BitSeq} {n : Nat} {io : Interface} (hf : Serves io)
    (hn : n ≠ 0) (h1 : tms.length = n) (h2 : tdi.length = n)
    (hl : overLimit (maxTransferBits io.backend.spec) n = false) :
    ∃ io', transferPrim tms tdi n io = (.ok (driveEdges (edgesOf tms tdi) io).1, io') ∧
      Drives (edgesOf tms tdi) io io' ∧ Serves io' ∧ SamplesAs io' (driveEdges (edgesOf tms tdi) io).2 := by
  rw [transferPrim_burst hf.1 hn h1 h2 hl]
  obtain ⟨io', h, d, f, s⟩ := burst_completes (tms := tms) (tdi := tdi) hf.2
  exact ⟨io', h, d, ⟨(drives_usable d).mpr hf.1, f⟩, s⟩

theorem overLimit_false {limit : Option Nat} {n : Nat} : overLimit limit n = false ↔ ∀ m, limit = some m → n ≤ m := by
  cases limit <;> simp [overLimit]

/-! ### Sequences of transfers -/

/-- The ranges lie one after another from `lo` to `hi`, none empty. -/
def Adjacent : Nat → List (Nat × Nat) → Nat → Prop
  | lo, [], hi => lo = hi
  | lo, (a, b) :: r, hi => a = lo ∧ a < b ∧ Adjacent b r hi

theorem adjacent_le {rs : List (Nat × Nat)} {lo hi : Nat} (h : Adjacent lo rs hi) : lo ≤ hi := by
  induction rs generalizing lo with
  | nil => exact Nat.le_of_eq h
  | cons r rs ih => obtain ⟨rfl, h1, h2⟩ := h; exact (Nat.le_of_lt h1).trans (ih h2)

theorem adjacent_append {a b : List (Nat × Nat)} {lo mid hi : Nat} (h : Adjacent lo a mid) (h' : Adjacent mid b hi) :
    Adjacent lo (a ++ b) hi := by
  induction a generalizing lo with
  | nil => cases h; exact h'
  | cons r rs ih => obtain ⟨rfl, h1, h2⟩ := h; exact ⟨rfl, h1, ih h2⟩

theorem chunks_adjacent {m : Nat} (hm : 0 < m) {fuel lo hi : Nat} (hf : hi - lo ≤ fuel) (hle : lo ≤ hi) :
    Adjacent lo (chunks m fuel lo hi) hi := by
  induction fuel generalizing lo with
  | zero => exact show lo = hi by omega
  | succ f ih =>
    unfold chunks
    split
    · by_cases h : lo + m ≤ hi
      · rw [Nat.min_eq_left h]
        exact ⟨rfl, by omega, ih (by omega) (by omega)⟩
      · rw [Nat.min_eq_right (by omega)]
        refine ⟨rfl, by omega, ?_⟩
        have : chunks m f (lo + m) hi = [] := by cases f <;> simp [chunks]; omega
        rw [this]; rfl
    · exact show lo = hi by omega

theorem chunks_le {m fuel lo hi : Nat} {r : Nat × Nat} (h : r ∈ chunks m fuel lo hi) : r.2 - r.1 ≤ m := by
  induction fuel generalizing lo with
  | zero => cases h
  | succ f ih =>
    unfold chunks at h
    split at h
    · rcases List.mem_cons.mp h with rfl | h
      · show min (lo + m) hi - lo ≤ m; omega
      · exact ih h
    · cases h

/-- R227, R230: a sequence of transfers over adjacent ranges that all keep the limit, where the backend serves: the edges, and the bits sampled, are those of the whole range (R235). -/
theorem sendRanges_completes {tms tdi : BitSeq} (hlen : tms.length = tdi.length) {rs : List (Nat × Nat)} {lo hi : Nat}
    {io : Interface} (hadj : Adjacent lo rs hi) (hhi : hi ≤ tms.length)
    (hlim : ∀ r ∈ rs, overLimit (maxTransferBits io.backend.spec) (r.2 - r.1) = false) (hf : Serves io) :
    ∃ io', sendRanges tms tdi rs io = (.ok (driveEdges (edgesOf (slice lo hi tms) (slice lo hi tdi)) io).1, io') ∧
      Drives (edgesOf (slice lo hi tms) (slice lo hi tdi)) io io' ∧ Serves io' ∧
        SamplesAs io' (driveEdges (edgesOf (slice lo hi tms) (slice lo hi tdi)) io).2 := by
  induction rs generalizing lo io with
  | nil =>
    have hadj : lo = hi := hadj
    subst hadj
    have : edgesOf (slice lo lo tms) (slice lo lo tdi) = [] := by simp [slice, edgesOf]
    rw [this]
    exact ⟨io, rfl, drives_refl io, hf, rfl, rfl⟩
  | cons r rs ih =>
    obtain ⟨a, b⟩ := r
    obtain ⟨rfl, hab, hrest⟩ := hadj
    have hbhi := adjacent_le hrest
    obtain ⟨io1, h1, d1, f1, s1⟩ := transferPrim_completes (tms := slice a b tms) (tdi := slice a b tdi) hf
      (by omega) (slice_length _ _ _ (by omega)) (slice_length _ _ _ (by omega)) (hlim (a, b) List.mem_cons_self)
    obtain ⟨io2, h2, d2, f2, s2⟩ := ih (io := io1) hrest
      (fun q hq => by rw [d1.spec]; exact hlim q (List.mem_cons_of_mem _ hq))
      f1
    have ⟨o, t⟩ := driveEdges_samples s1 (edgesOf (slice b hi tms) (slice b hi tdi))
    refine ⟨io2, ?_, ?_, f2, ?_⟩
    · unfold sendRanges
      rw [andThen_ok h1, andThen_ok h2, ← edgesOf_slice hlen hab.le hbhi hhi, driveEdges_append, o]
      rfl
    · rw [← edgesOf_slice hlen hab.le hbhi hhi]; exact drives_trans d1 d2
    · rw [← edgesOf_slice hlen hab.le hbhi hhi, driveEdges_append]
      exact ⟨s2.1.trans t.1, s2.2.trans t.2⟩

/-- R227, R186, R230: whatever a sequence of transfers over adjacent ranges does, some prefix of the ranges' edges has
been delivered. -/
theorem sendRanges_drives {tms tdi : BitSeq} (hlen : tms.length = tdi.length) {rs : List (Nat × Nat)} {lo hi : Nat}
    {io : Interface} (hadj : Adjacent lo rs hi) (hhi : hi ≤ tms.length) :
    ∃ es, es <+: edgesOf (slice lo hi tms) (slice lo hi tdi) ∧ Drives es io (sendRanges tms tdi rs io).2 := by
  induction rs generalizing lo io with
  | nil => exact ⟨[], List.nil_prefix, drives_refl io⟩
  | cons r rs ih =>
    obtain ⟨a, b⟩ := r
    obtain ⟨rfl, hab, hrest⟩ := hadj
    have hbhi := adjacent_le hrest
    rw [← edgesOf_slice hlen hab.le hbhi hhi]
    obtain ⟨es, hp, h0⟩ := transferPrim_drives (slice a b tms) (slice a b tdi) (b - a) io
    unfold sendRanges
    rcases andThen_cases (transferPrim (slice a b tms) (slice a b tdi) (b - a))
        (fun out => andThen (sendRanges tms tdi rs) fun more => done (out ++ more)) io with
      ⟨out, io1, h, e⟩ | ⟨k, io1, h, e⟩ | ⟨x, io1, h, e⟩ <;> rw [e]
    · have hfull := (transferPrim_ok h).1
      obtain ⟨es', hp', h1⟩ := ih (io := io1) hrest
      refine ⟨edgesOf (slice a b tms) (slice a b tdi) ++ es', (List.prefix_append_right_inj _).mpr hp', drives_trans hfull ?_⟩
      rcases andThen_cases (sendRanges tms tdi rs) (fun more => done (out ++ more)) io1 with
        ⟨o, io2, h, e⟩ | ⟨k, io2, h, e⟩ | ⟨x, io2, h, e⟩ <;> rw [h] at h1 <;> rw [e] <;> exact h1
    · rw [h] at h0; exact ⟨es, hp.trans (List.prefix_append _ _), h0⟩
    · rw [h] at h0; exact ⟨es, hp.trans (List.prefix_append _ _), h0⟩

end Sys2Proof.Machine
end

