-- ==== Sys2Proof/Laws/Scan.lean ====
section
/-! SUPPORT. The scan engine: its edge sequence, its partition into transfers, and everything `scanCore` can do. -/

namespace Sys2Proof.Machine

/-! ### The edge sequence -/

@[simp] theorem bodyTms_length (n : Nat) : (bodyTms n).length = n := by simp [bodyTms]

/-- R224: the body's mode bits are zeros and one final 1. -/
theorem bodyTms_succ (n : Nat) : bodyTms (n + 1) = zeros n ++ [true] := by
  apply List.ext_getElem (by simp)
  intro i h1 h2
  simp only [bodyTms_length] at h1
  by_cases h : i = n
  · subst h; simp [bodyTms, isLast, zeros]
  · simp [bodyTms, isLast, zeros, h, show i < n by omega]

/-- R224: after the body the TAP is in `exit1Of(P)`. -/
theorem tapRun_bodyTms (p : ScanTarget) {n : Nat} (h : n ≠ 0) : tapRun (shiftOf p) (bodyTms n) = exit1Of p := by
  obtain ⟨m, rfl⟩ := Nat.exists_eq_succ_of_ne_zero h
  rw [bodyTms_succ, tapRun_append, tapRun_shiftOf_zeros]
  cases p <;> rfl

/-- R222 to R225: a scan ends in its end state. -/
theorem tapRun_scanTms (s : TapState) (p : ScanTarget) {n : Nat} (h : n ≠ 0) (e : TapState) :
    tapRun s (scanTms s p n e) = e := by
  unfold scanTms
  rw [tapRun_append, tapRun_append, tapRun_tapPath, tapRun_bodyTms p h, tapRun_tapPath]

@[simp] theorem scanTms_length (s : TapState) (p : ScanTarget) (n : Nat) (e : TapState) :
    (scanTms s p n e).length = (tapPath s (shiftOf p)).length + n + (tapPath (exit1Of p) e).length := by
  simp [scanTms, Nat.add_assoc]

theorem scanTdi_length (s : TapState) (p : ScanTarget) {d : Direction} {n : Nat} (e : TapState) {b : BitSeq}
    (hd : d ≠ .reserved) (h : includesWrite d = true → b.length = n) :
    (scanTdi s p d n e b).length = (scanTms s p n e).length := by
  have : (bodyTdi d n b).length = n := by
    cases d <;> simp_all [bodyTdi, includesWrite]
  simp [scanTdi, this]; omega

/-! ### The partition -/

/-- R227: the ranges lie one after another and cover the edge sequence. -/
theorem partition_adjacent {p n s : Nat} {limit : Option Nat} (hs : 1 ≤ s)
    (hl : ∀ m, limit = some m → 1 ≤ m) : Adjacent 0 (partition p n s limit) (p + n + s) := by
  unfold partition
  have hp : Adjacent 0 (if p = 0 then [] else [(0, p)]) p := by
    split
    · exact show 0 = p by omega
    · exact ⟨rfl, by omega, rfl⟩
  refine adjacent_append hp ?_
  cases limit with
  | none => exact ⟨rfl, by show p < p + n + s; omega, rfl⟩
  | some m =>
    dsimp only
    split
    · exact ⟨rfl, by show p < p + n + s; omega, rfl⟩
    · refine adjacent_append (chunks_adjacent (hl m rfl) (by omega) (by omega)) ⟨rfl, ?_, rfl⟩
      show p + (n - min n (m - s)) < p + n + s; omega

/-- R227: no range is longer than the limit. -/
theorem partition_le {p n s m : Nat} (hm : 6 ≤ m) (hp : p ≤ 6) (hs : s ≤ 4) {r : Nat × Nat}
    (hr : r ∈ partition p n s (some m)) : r.2 - r.1 ≤ m := by
  unfold partition at hr
  dsimp only at hr
  rcases List.mem_append.mp hr with h | h
  · split at h
    · cases h
    · rw [List.mem_singleton.mp h]; show p - 0 ≤ m; omega
  · split at h
    · rw [List.mem_singleton.mp h]; show p + n + s - p ≤ m; omega
    · rcases List.mem_append.mp h with h | h
      · exact chunks_le h
      · rw [List.mem_singleton.mp h]
        show p + n + s - (p + (n - min n (m - s))) ≤ m; omega

theorem partition_limit {p n s : Nat} {limit : Option Nat} (hl : ∀ m, limit = some m → 6 ≤ m) (hp : p ≤ 6) (hs : s ≤ 4) :
    ∀ r ∈ partition p n s limit, overLimit limit (r.2 - r.1) = false := by
  intro r hr
  rw [overLimit_false]
  rintro m rfl
  exact partition_le (hl m rfl) hp hs hr

/-! ### A sequence of transfers that ends well -/

/-- R227: if a sequence of transfers over adjacent ranges ends well, all its edges have been delivered, one bit
sampled for each. -/
theorem sendRanges_ok {tms tdi : BitSeq} (hlen : tms.length = tdi.length) {rs : List (Nat × Nat)} {lo hi : Nat}
    {io io' : Interface} {out : BitSeq} (hadj : Adjacent lo rs hi) (hhi : hi ≤ tms.length)
    (h : sendRanges tms tdi rs io = (.ok out, io')) :
    Drives (edgesOf (slice lo hi tms) (slice lo hi tdi)) io io' ∧ out.length = hi - lo := by
  induction rs generalizing lo io out with
  | nil =>
    have hadj : lo = hi := hadj
    subst hadj
    cases h
    have : edgesOf (slice lo lo tms) (slice lo lo tdi) = [] := by simp [slice, edgesOf]
    rw [this]
    exact ⟨drives_refl _, by simp⟩
  | cons r rs ih =>
    obtain ⟨a, b⟩ := r
    obtain ⟨rfl, hab, hrest⟩ := hadj
    have hbhi := adjacent_le hrest
    unfold sendRanges at h
    rcases andThen_cases (transferPrim (slice a b tms) (slice a b tdi) (b - a))
        (fun out => andThen (sendRanges tms tdi rs) fun more => done (out ++ more)) io with
      ⟨o, io1, h1, e⟩ | ⟨k, io1, -, e⟩ | ⟨x, io1, -, e⟩ <;> rw [e] at h
    · rcases andThen_cases (sendRanges tms tdi rs) (fun more => done (o ++ more)) io1 with
        ⟨o', io2, h2, e'⟩ | ⟨k, io2, -, e'⟩ | ⟨x, io2, -, e'⟩ <;> rw [e'] at h
      · cases h
        obtain ⟨d2, l2⟩ := ih hrest h2
        have d1 := transferPrim_ok h1
        refine ⟨?_, by simp [d1.2, l2]; omega⟩
        rw [← edgesOf_slice hlen hab.le hbhi hhi]; exact drives_trans d1.1 d2
      · cases h
      · cases h
    · cases h
    · cases h

/-! ### `scanCore` -/

/-- R221: the checks pass exactly when the request is accepted, and change nothing. -/
theorem scanChecks_cases (p : ScanTarget) (d : Direction) (n : Nat) (e : TapState) (b : BitSeq) (eng : Engine) :
    (ScanAccepted eng.io p d n e b ∧ scanChecks p d n e b eng = (.ok (), eng)) ∨
      ∃ k, (k = .invalidArgument ∨ k = .unsupportedOperation) ∧ ¬ScanAccepted eng.io p d n e b ∧
        scanChecks p d n e b eng = (.err k, eng) := by
  unfold scanChecks ScanAccepted
  by_cases h1 : n = 0
  · subst h1; exact .inr ⟨.invalidArgument, .inl rfl, by simp, rfl⟩
  have c1 : (n != 0) = true := by simpa using h1
  rw [c1, andThen_ok (check_true _ _)]
  cases h2 : legalEnd p e
  · exact .inr ⟨.invalidArgument, .inl rfl, by simp, rfl⟩
  rw [andThen_ok (check_true _ _)]
  by_cases h3 : includesWrite d = true → b.length = n
  · have c3 : (!includesWrite d || b.length == n) = true := by cases h : includesWrite d <;> simp [h] at h3 ⊢; exact h3
    rw [c3, andThen_ok (check_true _ _)]
    cases h4 : overLimit eng.io.backend.spec.maxScan n
    · exact .inl ⟨⟨h1, rfl, h3, rfl⟩, rfl⟩
    · exact .inr ⟨.unsupportedOperation, .inr rfl, by simp, rfl⟩
  · have c3 : (!includesWrite d || b.length == n) = false := by cases h : includesWrite d <;> simp [h] at h3 ⊢; exact h3
    rw [c3, andThen_err (check_false _ _)]
    exact .inr ⟨.invalidArgument, .inl rfl, fun h => h3 h.2.2.1, rfl⟩

/-- R116: everything the hard reset can do. -/
theorem hardReset_cases (eng : Engine) :
    (∃ io', Drives resetEdges eng.io io' ∧ hardReset eng = (.ok (), setKnown .reset { eng with io := io' })) ∨
      (∃ k es io', es <+: resetEdges ∧ Drives es eng.io io' ∧ hardReset eng = (.err k, { eng with io := io' })) ∨
        ∃ x, hardReset eng = (.stop x, eng) := by
  unfold hardReset
  have key : ∀ r io', transferPrim (ones Config.hardResetEdges) (zeros Config.hardResetEdges) Config.hardResetEdges eng.io
      = (r, io') → callBackend (transferPrim (ones Config.hardResetEdges) (zeros Config.hardResetEdges)
        Config.hardResetEdges) eng = (r, { eng with io := io' }) := by
    intro r io' h; unfold callBackend; rw [h]
  rcases transferPrim_cases (ones Config.hardResetEdges) (zeros Config.hardResetEdges) Config.hardResetEdges eng.io with
    ⟨k, h, -⟩ | ⟨-, -, -, -, -, h⟩
  · exact .inr (.inl ⟨_, [], eng.io, List.nil_prefix, drives_refl _, andThen_err (key _ _ h)⟩)
  · rcases burst_cases (ones Config.hardResetEdges) (zeros Config.hardResetEdges) eng.io with
      ⟨out, io', hb, -, d⟩ | ⟨k, m, io', hb, -, d⟩ | hb
    · exact .inl ⟨io', d, by rw [andThen_ok (key _ _ (h.trans hb))]; rfl⟩
    · exact .inr (.inl ⟨k, _, io', List.take_prefix _ _, d, andThen_err (key _ _ (h.trans hb))⟩)
    · exact .inr (.inr ⟨_, andThen_stop (key _ _ (h.trans hb))⟩)

/-- R116: the hard reset where the backend serves. -/
theorem hardReset_completes {eng : Engine} (hf : Serves eng.io) (hl : LimitOk eng.io) :
    ∃ io', hardReset eng = (.ok (), setKnown .reset { eng with io := io' }) ∧ Drives resetEdges eng.io io' ∧
      Serves io' ∧ SamplesAs io' (driveEdges resetEdges eng.io).2 := by
  obtain ⟨io', h, d, f, s⟩ := transferPrim_completes (tms := ones Config.hardResetEdges)
    (tdi := zeros Config.hardResetEdges) (n := Config.hardResetEdges) hf (by decide) rfl rfl
    (overLimit_false.mpr fun m hm => (by decide : Config.hardResetEdges ≤ 6).trans (hl m hm))
  refine ⟨io', ?_, d, f, s⟩
  unfold hardReset
  rw [andThen_ok (a := (driveEdges resetEdges eng.io).1) (s' := { eng with io := io' })
    (by unfold callBackend; rw [h]; rfl)]
  rfl

/-- The engine a successful scan leaves (R228, R231). -/
def scanDone (e : TapState) (io' : Interface) (eng : Engine) : Engine :=
  { ctrl := { eng.ctrl with currentState := e, stateKnown := true, chainFrozen := true }, io := io' }

/-- R229, R230, R231: the engine a failed scan of the edges `all` leaves, up to the position, which means nothing
then. -/
def ScanFailed (all : List Edge) (eng eng' : Engine) : Prop :=
  ∃ es t, es <+: all ∧ Drives es eng.io eng'.io ∧
    eng'.ctrl = { eng.ctrl with currentState := t, stateKnown := false, chainFrozen := true }

theorem scanEdges_cases (p : ScanTarget) {d : Direction} (hd : d ≠ .reserved) {n : Nat} {e : TapState} {b : BitSeq}
    (eng : Engine) (hl : LimitOk eng.io) (ha : ScanAccepted eng.io p d n e b) :
    (∃ out io', Drives (edgesOf (scanTms eng.ctrl.currentState p n e) (scanTdi eng.ctrl.currentState p d n e b))
        eng.io io' ∧ scanEdges p d n e b eng = (.ok out, setCurrent e { eng with io := io' }) ∧
          out.length = if includesRead d then n else 0) ∨
      (∃ k es io', es <+: edgesOf (scanTms eng.ctrl.currentState p n e) (scanTdi eng.ctrl.currentState p d n e b) ∧
          Drives es eng.io io' ∧ scanEdges p d n e b eng = (.err k, { eng with io := io' })) ∨
        ∃ x eng', scanEdges p d n e b eng = (.stop x, eng') := by
  unfold scanEdges
  have hlen := scanTdi_length eng.ctrl.currentState p (d := d) (n := n) e (b := b) hd ha.2.2.1
  have hadj := partition_adjacent (p := (tapPath eng.ctrl.currentState (shiftOf p)).length) (n := n)
    (s := (tapPath (exit1Of p) e).length) (limit := maxTransferBits eng.io.backend.spec) (suffix_length ha.2.1).1
    (fun m h => by have := hl m h; omega)
  have all : ∀ x : BitSeq, x.length = (scanTms eng.ctrl.currentState p n e).length →
      slice 0 ((tapPath eng.ctrl.currentState (shiftOf p)).length + n + (tapPath (exit1Of p) e).length) x = x :=
    fun x hx => by rw [scanTms_length] at hx; rw [← hx]; exact slice_all x
  have hdrv := sendRanges_drives (io := eng.io) hlen.symm hadj (by simp)
  rw [all _ rfl, all _ hlen] at hdrv
  rcases h : sendRanges (scanTms eng.ctrl.currentState p n e) (scanTdi eng.ctrl.currentState p d n e b)
    (partition (tapPath eng.ctrl.currentState (shiftOf p)).length n (tapPath (exit1Of p) e).length
      (maxTransferBits eng.io.backend.spec)) eng.io with ⟨out | k | x, io'⟩
  · obtain ⟨dr, hol⟩ := sendRanges_ok hlen.symm hadj (by simp) h
    rw [all _ rfl, all _ hlen] at dr
    refine .inl ⟨capturedOf d (tapPath eng.ctrl.currentState (shiftOf p)).length n out, io', dr, ?_, ?_⟩
    · rw [andThen_ok (a := out) (s' := { eng with io := io' }) (by unfold callBackend; rw [h])]
      rfl
    · unfold capturedOf
      split
      · rw [slice_length _ _ _ (by omega)]; omega
      · rfl
  · obtain ⟨es, hp, dr⟩ := hdrv
    rw [h] at dr
    exact .inr (.inl ⟨k, es, io', hp, dr, andThen_err (by unfold callBackend; rw [h])⟩)
  · exact .inr (.inr ⟨x, _, andThen_stop (s' := { eng with io := io' }) (by unfold callBackend; rw [h])⟩)

/-- R232: everything `scanCore` can do. A success has delivered exactly the edges of R223 to R225 after those of the
recovery, and left the position of R228; an error has cleared `stateKnown`. -/
theorem scanCore_cases (p : ScanTarget) {d : Direction} (hd : d ≠ .reserved) (n : Nat) (e : TapState) (b : BitSeq)
    (eng : Engine) (hl : LimitOk eng.io) :
    (∃ out io', ScanAccepted eng.io p d n e b ∧ Drives (scanCommandEdges eng p d n e b) eng.io io' ∧
        scanCore p d n e b eng = (.ok out, scanDone e io' eng) ∧ out.length = if includesRead d then n else 0) ∨
      (∃ k eng', scanCore p d n e b eng = (.err k, eng') ∧
        ((¬ScanAccepted eng.io p d n e b ∧ eng' = clearKnown eng ∧ (k = .invalidArgument ∨ k = .unsupportedOperation)) ∨
          (ScanAccepted eng.io p d n e b ∧ ScanFailed (scanCommandEdges eng p d n e b) eng eng'))) ∨
        ∃ x eng', scanCore p d n e b eng = (.stop x, eng') := by
  unfold scanCore
  have wrap : ∀ {m : Body BitSeq} {k : ErrKind} {g : Engine}, m eng = (.err k, g) →
      clearOnError m eng = (.err k, clearKnown g) := by
    intro m k g h; unfold clearOnError; rw [h]
  have wrapOk : ∀ {m : Body BitSeq} {o : BitSeq} {g : Engine}, m eng = (.ok o, g) → clearOnError m eng = (.ok o, g) := by
    intro m k g h; unfold clearOnError; rw [h]
  have wrapStop : ∀ {m : Body BitSeq} {x : Refusal} {g : Engine}, m eng = (.stop x, g) →
      clearOnError m eng = (.stop x, g) := by
    intro m k g h; unfold clearOnError; rw [h]
  rcases scanChecks_cases p d n e b eng with ⟨ha, hc⟩ | ⟨k, hkind, hna, hc⟩
  · have step1 : ∀ f : Unit → Body BitSeq, andThen (scanChecks p d n e b) (fun _ => andThen (update freezeChain) f) eng =
        f () (freezeChain eng) := fun f => by rw [andThen_ok hc]; rfl
    -- after the recovery: an engine whose position is known
    have fromKnown : ∀ (g : Engine) (es : List Edge), Drives es eng.io g.io → g.ctrl.stateKnown = true →
        g.ctrl = { eng.ctrl with currentState := g.ctrl.currentState, stateKnown := true, chainFrozen := true } →
        es ++ edgesOf (scanTms g.ctrl.currentState p n e) (scanTdi g.ctrl.currentState p d n e b) =
          scanCommandEdges eng p d n e b →
        (∃ out io', Drives (scanCommandEdges eng p d n e b) eng.io io' ∧
            scanEdges p d n e b g = (.ok out, scanDone e io' eng) ∧ out.length = if includesRead d then n else 0) ∨
          (∃ k g', scanEdges p d n e b g = (.err k, g') ∧ ScanFailed (scanCommandEdges eng p d n e b) eng (clearKnown g')) ∨
            ∃ x g', scanEdges p d n e b g = (.stop x, g') := by
      intro g es dr _ hg hes
      have hl' : LimitOk g.io := by intro m hm; rw [dr.spec] at hm; exact hl m hm
      have ha' : ScanAccepted g.io p d n e b := by unfold ScanAccepted; rw [dr.spec]; exact ha
      rcases scanEdges_cases p hd g hl' ha' with ⟨out, io', d2, h2, l2⟩ | ⟨k, es2, io', hp, d2, h2⟩ | ⟨x, g', h2⟩
      · refine .inl ⟨out, io', by rw [← hes]; exact drives_trans dr d2, ?_, l2⟩
        rw [h2]; unfold setCurrent scanDone; rw [hg]
      · refine .inr (.inl ⟨k, _, h2, es ++ es2, g.ctrl.currentState,
          by rw [← hes]; exact (List.prefix_append_right_inj _).mpr hp, drives_trans dr d2, ?_⟩)
        show ({ g.ctrl with stateKnown := false } : Controller) = _
        rw [hg]
      · exact .inr (.inr ⟨x, g', h2⟩)
    cases hk : eng.ctrl.stateKnown
    · have hrec : recover (freezeChain eng) = hardReset (freezeChain eng) := by unfold recover; simp [hk]
      rcases hardReset_cases (freezeChain eng) with ⟨io1, d1, h1⟩ | ⟨k, es, io1, hp, d1, h1⟩ | ⟨x, h1⟩ <;> rw [← hrec] at h1
      · have hes : resetEdges ++ edgesOf (scanTms .reset p n e) (scanTdi .reset p d n e b) =
            scanCommandEdges eng p d n e b := by
          unfold scanCommandEdges recoveryEdges scanStart; rw [hk]; rfl
        rcases fromKnown (setKnown .reset { freezeChain eng with io := io1 }) resetEdges d1 rfl rfl hes with
          ⟨out, io', d2, h2, l2⟩ | ⟨k, g', h2, hf⟩ | ⟨x, g', h2⟩
        · exact .inl ⟨out, io', ha, d2, wrapOk (by rw [step1, andThen_ok h1, h2]), l2⟩
        · exact .inr (.inl ⟨k, _, wrap (by rw [step1, andThen_ok h1, h2]), .inr ⟨ha, hf⟩⟩)
        · exact .inr (.inr ⟨x, g', wrapStop (by rw [step1, andThen_ok h1, h2])⟩)
      · have hf : ScanFailed (scanCommandEdges eng p d n e b) eng (clearKnown { freezeChain eng with io := io1 }) := by
          refine ⟨es, eng.ctrl.currentState, ?_, d1, rfl⟩
          unfold scanCommandEdges recoveryEdges
          rw [hk]; exact hp.trans (List.prefix_append _ _)
        exact .inr (.inl ⟨k, _, wrap (by rw [step1, andThen_err h1]), .inr ⟨ha, hf⟩⟩)
      · exact .inr (.inr ⟨x, _, wrapStop (by rw [step1, andThen_stop h1])⟩)
    · have h1 : recover (freezeChain eng) = (.ok (), freezeChain eng) := by unfold recover; simp [hk]
      have hes : [] ++ edgesOf (scanTms eng.ctrl.currentState p n e) (scanTdi eng.ctrl.currentState p d n e b) =
          scanCommandEdges eng p d n e b := by
        unfold scanCommandEdges recoveryEdges scanStart; rw [hk]; rfl
      rcases fromKnown (freezeChain eng) [] (drives_refl _) hk (by
          show ({ eng.ctrl with chainFrozen := true } : Controller) = _
          rw [← hk]; rfl) hes with
        ⟨out, io', d2, h2, l2⟩ | ⟨k, g', h2, hf⟩ | ⟨x, g', h2⟩
      · exact .inl ⟨out, io', ha, d2, wrapOk (by rw [step1, andThen_ok h1, h2]), l2⟩
      · exact .inr (.inl ⟨k, _, wrap (by rw [step1, andThen_ok h1, h2]), .inr ⟨ha, hf⟩⟩)
      · exact .inr (.inr ⟨x, g', wrapStop (by rw [step1, andThen_ok h1, h2])⟩)
  · exact .inr (.inl ⟨k, _, wrap (andThen_err hc), .inl ⟨hna, rfl, hkind⟩⟩)

/-- R226: the bits of index `p` to `p + n` of a sequence with `r` bits before it. -/
theorem slice_shift {α : Type} (r p n : Nat) (a b : List α) (h : a.length = r) :
    slice (r + p) (r + p + n) (a ++ b) = slice p (p + n) b := by
  unfold slice
  rw [List.drop_append]
  have : a.drop (r + p) = [] := by rw [List.drop_eq_nil_of_le]; omega
  rw [this, h]
  simp

/-- R232: `scanCore` of an accepted request where the backend serves. The captured bits are those sampled
on the body edges of the whole edge sequence driven edge by edge (R226, R235). -/
theorem scanCore_completes (p : ScanTarget) {d : Direction} (hd : d ≠ .reserved) {n : Nat} {e : TapState} {b : BitSeq}
    {eng : Engine} (hl : LimitOk eng.io) (hf : Serves eng.io) (ha : ScanAccepted eng.io p d n e b) :
    ∃ io', scanCore p d n e b eng =
        (.ok (capturedOf d ((recoveryEdges eng).length + (tapPath (scanStart eng) (shiftOf p)).length) n
          (driveEdges (scanCommandEdges eng p d n e b) eng.io).1), scanDone e io' eng) ∧
      Drives (scanCommandEdges eng p d n e b) eng.io io' ∧ Serves io' ∧
        SamplesAs io' (driveEdges (scanCommandEdges eng p d n e b) eng.io).2 := by
  -- a scan from a known position
  have fromKnown : ∀ g : Engine, LimitOk g.io → Serves g.io → ScanAccepted g.io p d n e b →
      ∃ io', scanEdges p d n e b g =
          (.ok (capturedOf d (tapPath g.ctrl.currentState (shiftOf p)).length n
            (driveEdges (edgesOf (scanTms g.ctrl.currentState p n e) (scanTdi g.ctrl.currentState p d n e b)) g.io).1),
            setCurrent e { g with io := io' }) ∧
        Drives (edgesOf (scanTms g.ctrl.currentState p n e) (scanTdi g.ctrl.currentState p d n e b)) g.io io' ∧
          Serves io' ∧
            SamplesAs io'
              (driveEdges (edgesOf (scanTms g.ctrl.currentState p n e) (scanTdi g.ctrl.currentState p d n e b)) g.io).2 := by
    intro g hl hf ha
    have hlen := scanTdi_length g.ctrl.currentState p (d := d) (n := n) e (b := b) hd ha.2.2.1
    obtain ⟨io', h, rest⟩ := sendRanges_completes hlen.symm
      (partition_adjacent (p := (tapPath g.ctrl.currentState (shiftOf p)).length) (n := n)
        (s := (tapPath (exit1Of p) e).length) (limit := maxTransferBits g.io.backend.spec) (suffix_length ha.2.1).1
        (fun m h => by have := hl m h; omega)) (by simp)
      (partition_limit hl (tapPath_shiftOf_length_le _ _) (suffix_length ha.2.1).2) hf
    have e1 : slice 0 ((tapPath g.ctrl.currentState (shiftOf p)).length + n + (tapPath (exit1Of p) e).length)
        (scanTms g.ctrl.currentState p n e) = scanTms g.ctrl.currentState p n e := by
      rw [← scanTms_length]; exact slice_all _
    have e2 : slice 0 ((tapPath g.ctrl.currentState (shiftOf p)).length + n + (tapPath (exit1Of p) e).length)
        (scanTdi g.ctrl.currentState p d n e b) = scanTdi g.ctrl.currentState p d n e b := by
      rw [← scanTms_length, ← hlen]; exact slice_all _
    rw [e1, e2] at h rest
    refine ⟨io', ?_, rest⟩
    unfold scanEdges
    rw [andThen_ok (s' := { g with io := io' }) (by unfold callBackend; rw [h])]
    rfl
  rcases scanChecks_cases p d n e b eng with ⟨-, hc⟩ | ⟨k, -, hna, -⟩
  swap
  · exact absurd ha hna
  have step1 : ∀ f : Unit → Body BitSeq, andThen (scanChecks p d n e b) (fun _ => andThen (update freezeChain) f) eng =
      f () (freezeChain eng) := fun f => by rw [andThen_ok hc]; rfl
  have wrapOk : ∀ {m : Body BitSeq} {o : BitSeq} {g : Engine}, m eng = (.ok o, g) → clearOnError m eng = (.ok o, g) := by
    intro m k g h; unfold clearOnError; rw [h]
  unfold scanCore
  cases hk : eng.ctrl.stateKnown
  · have hrec : recover (freezeChain eng) = hardReset (freezeChain eng) := by unfold recover; simp [hk]
    obtain ⟨io1, h1, d1, f1, s1⟩ := hardReset_completes (eng := freezeChain eng) hf hl
    rw [← hrec] at h1
    have d1 : Drives resetEdges eng.io io1 := d1
    obtain ⟨io2, h2, d2, f2, s2⟩ := fromKnown (setKnown .reset { freezeChain eng with io := io1 })
      (by intro m hm; exact hl m (by rw [← d1.spec]; exact hm)) f1
      (by unfold ScanAccepted; rw [show (setKnown .reset { freezeChain eng with io := io1 }).io.backend.spec =
          eng.io.backend.spec from d1.spec]; exact ha)
    have hes : scanCommandEdges eng p d n e b =
        resetEdges ++ edgesOf (scanTms .reset p n e) (scanTdi .reset p d n e b) := by
      unfold scanCommandEdges recoveryEdges scanStart; rw [hk]; rfl
    have hst : scanStart eng = .reset := by unfold scanStart; rw [hk]; rfl
    have hre : recoveryEdges eng = resetEdges := by unfold recoveryEdges; rw [hk]; rfl
    have ⟨o, t⟩ := driveEdges_samples s1 (edgesOf (scanTms .reset p n e) (scanTdi .reset p d n e b))
    refine ⟨io2, wrapOk ?_, ?_, f2, ?_⟩
    · rw [step1, andThen_ok h1, h2, hes, hst, hre, driveEdges_append]
      have hcap : ∀ (r q : Nat) (x y z : BitSeq), x.length = r → y = z →
          capturedOf d q n y = capturedOf d (r + q) n (x ++ z) := by
        rintro r q x y z hx rfl; unfold capturedOf; split
        · rw [slice_shift r q n x y hx]
        · rfl
      refine Prod.ext (congrArg Ret.ok (hcap _ _ _ _ _ (driveEdges_length _ _) o)) ?_
      rfl
    · rw [hes]; exact drives_trans d1 d2
    · rw [hes, driveEdges_append]; exact ⟨s2.1.trans t.1, s2.2.trans t.2⟩
  · have h1 : recover (freezeChain eng) = (.ok (), freezeChain eng) := by unfold recover; simp [hk]
    obtain ⟨io2, h2, d2, f2, s2⟩ := fromKnown (freezeChain eng) hl hf ha
    have hes : scanCommandEdges eng p d n e b =
        edgesOf (scanTms eng.ctrl.currentState p n e) (scanTdi eng.ctrl.currentState p d n e b) := by
      unfold scanCommandEdges recoveryEdges scanStart; rw [hk]; rfl
    have hst : scanStart eng = eng.ctrl.currentState := by unfold scanStart; rw [hk]; rfl
    have hre : recoveryEdges eng = [] := by unfold recoveryEdges; rw [hk]; rfl
    refine ⟨io2, wrapOk ?_, by rw [hes]; exact d2, f2, by rw [hes]; exact s2⟩
    rw [step1, andThen_ok h1, h2, hes, hst, hre]
    refine Prod.ext (congrArg Ret.ok (by rw [List.length_nil, Nat.zero_add]; rfl)) ?_
    have hc : ∀ k, k = true → ({ eng.ctrl with currentState := e, stateKnown := k, chainFrozen := true } : Controller) =
        { eng.ctrl with currentState := e, stateKnown := true, chainFrozen := true } := by rintro k rfl; rfl
    exact congrArg (fun c => Engine.mk c io2) (hc _ hk)

end Sys2Proof.Machine
end

