-- ==== Sys2Proof/Laws/Frame.lean ====
section
/-! SUPPORT. The frame every command runs in (R260, R261), said once: what a ready command does, everything a command
can do, and what its steps keep. -/

namespace Sys2Proof.Machine

/-- The lock a caller holds once it is granted (R260). -/
def grantedLock (s : State) : Lock :=
  { phase := .busy, owner := some s.caller, waiters := dropWaiter s.caller s.ctrl.lock.waiters }

/-- An engine under another lock. -/
def withLock (l : Lock) (e : Engine) : Engine := { e with ctrl := { e.ctrl with lock := l } }

theorem grant_toEngine (s : State) : (grant s).toEngine = withLock (grantedLock s) s.toEngine := rfl

@[simp] theorem withLock_io (l : Lock) (e : Engine) : (withLock l e).io = e.io := rfl

@[simp] theorem withLock_lock (l : Lock) (e : Engine) : (withLock l e).ctrl.lock = l := rfl

/-- R261: a ready command runs its body under the lock. -/
theorem command_ready {body : Body Result} {s : State} (h : Ready s) :
    command body s = finishCommand (grant s) (body (grant s).toEngine) := by
  obtain ⟨h1, h2, h3⟩ := h
  unfold command
  rw [if_neg (by rw [h1]; decide), h2]
  cases hO : ownsLock s
  · have : lockIdle s = true := by rcases h3 with h | h; exact h; rw [hO] at h; cases h
    rw [if_neg (by decide), this]; rfl
  · rw [if_pos rfl]

/-! ### The end of a command -/

theorem finish_ok {s : State} {e e' : Engine} {v : Result}
    (h : refresh (grant s).toEngine e = withLock (grantedLock s) e') :
    finishCommand (grant s) (.ok v, e) = .next (answer s e' v) := by
  show Host.Outcome.next (release v (setEngine (refresh (grant s).toEngine e) (grant s))) = _
  rw [h]; rfl

theorem finish_err {s : State} {e' : Engine} {k : ErrKind} :
    finishCommand (grant s) (.err k, withLock (grantedLock s) e') = .next (answer s e' (.error k)) := rfl

/-- R272: no edge driven, nothing refreshed. -/
theorem refresh_same {b e : Engine} (h : e.io = b.io) : refresh b e = e := by
  unfold refresh; rw [h, if_neg]; rintro ⟨-, h⟩; exact h rfl

/-- R272: a bookkeeping that agrees with the position makes the refresh unobservable. -/
theorem refresh_consistent {b e : Engine} (h : e.io.backend.book = e.ctrl.currentState) : refresh b e = e := by
  unfold refresh setCurrent; split
  · rw [h]
  · rfl

/-- R272: the refresh after edges. -/
theorem refresh_driven {es : List Edge} {b e : Engine} (h : Drives es b.io e.io) (hes : es ≠ []) :
    refresh b e = setCurrent (refreshed e.io e.ctrl.currentState) e := by
  unfold refresh refreshed
  have hne : (wireEdges b.io).length ≠ (wireEdges e.io).length := by
    rw [h.wire]; cases es with
    | nil => exact absurd rfl hes
    | cons x r => simp
  cases hasCap e.io.backend.spec .state
  · rw [if_neg (by simp)]; rfl
  · rw [if_pos ⟨rfl, hne⟩]; rfl

/-! ### Everything a command can do -/

/-- R260, R261: everything a command can do that ends in a next state: it is refused after detach, it moves at the
lock without running, or its body runs and ends in a value or an error. -/
theorem command_cases {body : Body Result} {s t : State} (h : command body s = .next t) :
    (s.ctrl.attached = false ∧ t = complete (.error .invalidArgument) s) ∨
      (s.ctrl.attached = true ∧ ownsLock s = true ∧ s.draw ≠ .run ∧ t = s) ∨
        (s.ctrl.attached = true ∧ ownsLock s = false ∧ s.draw = .expire ∧ t = expireWait s) ∨
          (s.ctrl.attached = true ∧ ownsLock s = false ∧ s.draw ≠ .expire ∧ t = enqueue s) ∨
            (s.ctrl.attached = true ∧ lockIdle s = true ∧ s.draw = .hold ∧ t = grant s) ∨
              (Ready s ∧ ∃ v e, body (grant s).toEngine = (.ok v, e) ∧
                t = release v (setEngine (refresh (grant s).toEngine e) (grant s))) ∨
                Ready s ∧ ∃ k e, body (grant s).toEngine = (.err k, e) ∧
                  t = release (.error k) (setEngine e (grant s)) := by
  have fin : Ready s → finishCommand (grant s) (body (grant s).toEngine) = .next t →
      (Ready s ∧ ∃ v e, body (grant s).toEngine = (.ok v, e) ∧
        t = release v (setEngine (refresh (grant s).toEngine e) (grant s))) ∨
        Ready s ∧ ∃ k e, body (grant s).toEngine = (.err k, e) ∧ t = release (.error k) (setEngine e (grant s)) := by
    intro hr hf
    rcases hb : body (grant s).toEngine with ⟨v | k | x, e⟩ <;> rw [hb] at hf
    · exact .inl ⟨hr, v, e, rfl, by cases hf; rfl⟩
    · exact .inr ⟨hr, k, e, rfl, by cases hf; rfl⟩
    · cases hf
  unfold command at h
  cases ha : s.ctrl.attached
  · rw [if_pos ha] at h; cases h; exact .inl ⟨rfl, rfl⟩
  rw [if_neg (by rw [ha]; decide)] at h
  refine .inr ?_
  cases ho : ownsLock s
  · rw [ho, if_neg (by decide)] at h
    refine .inr ?_
    cases hd : s.draw <;> rw [hd] at h <;> dsimp only at h
    · cases hi : lockIdle s
      · rw [hi, if_neg (by decide)] at h; cases h; exact .inr (.inl ⟨rfl, rfl, by decide, rfl⟩)
      · rw [hi, if_pos rfl] at h
        exact .inr (.inr (.inr (fin ⟨ha, hd, .inl hi⟩ h)))
    · cases hi : lockIdle s
      · rw [hi, if_neg (by decide)] at h; cases h; exact .inr (.inl ⟨rfl, rfl, by decide, rfl⟩)
      · rw [hi, if_pos rfl] at h; cases h; exact .inr (.inr (.inl ⟨rfl, rfl, rfl, rfl⟩))
    · cases h; exact .inr (.inl ⟨rfl, rfl, by decide, rfl⟩)
    · cases h; exact .inl ⟨rfl, rfl, rfl, rfl⟩
  · rw [ho, if_pos rfl] at h
    cases hd : s.draw <;> rw [hd] at h <;> dsimp only at h
    · exact .inr (.inr (.inr (.inr (fin ⟨ha, hd, .inr ho⟩ h))))
    all_goals cases h; exact .inl ⟨rfl, rfl, by decide, rfl⟩

/-! ### What computations keep -/

/-- A computation keeps a property, whatever it ends in. -/
def Keeps {σ α : Type} (P : σ → Prop) (m : Act σ α) : Prop := ∀ s, P s → P (m s).2

theorem keeps_done {σ α : Type} {P : σ → Prop} (a : α) : Keeps P (done a) := fun _ h => h

theorem keeps_check {σ : Type} {P : σ → Prop} (c : Bool) (k : ErrKind) : Keeps P (check c k) := by
  intro s h; cases c <;> exact h

theorem keeps_update {σ : Type} {P : σ → Prop} {f : σ → σ} (h : ∀ s, P s → P (f s)) : Keeps P (update f) := h

theorem keeps_andThen {σ α β : Type} {P : σ → Prop} {m : Act σ α} {f : α → Act σ β} (hm : Keeps P m)
    (hf : ∀ a, Keeps P (f a)) : Keeps P (andThen m f) := by
  intro s h
  have := hm s h
  rcases andThen_cases m f s with ⟨a, s', e, e'⟩ | ⟨k, s', e, e'⟩ | ⟨x, s', e, e'⟩ <;> rw [e] at this <;> rw [e']
  · exact hf a s' this
  · exact this
  · exact this

theorem keeps_clearOnError {α : Type} {P : Engine → Prop} {m : Body α} (hc : ∀ e, P e → P (clearKnown e))
    (hm : Keeps P m) : Keeps P (clearOnError m) := by
  intro e h
  have := hm e h
  unfold clearOnError
  rcases hm : m e with ⟨_ | _ | _, e'⟩ <;> rw [hm] at this
  · exact this
  · exact hc _ this
  · exact this

theorem keeps_clearOnFault {α : Type} {P : Engine → Prop} {m : Body α} (hc : ∀ e, P e → P (clearKnown e))
    (hm : Keeps P m) : Keeps P (clearOnFault m) := by
  intro e h
  have := hm e h
  unfold clearOnFault
  rcases hm : m e with ⟨_ | k | _, e'⟩ <;> rw [hm] at this
  · exact this
  · cases k
    · exact this
    · exact this
    · exact hc _ this
    · exact hc _ this
  · exact this

theorem keeps_callBackend {α : Type} {P : Engine → Prop} {p : Prim α}
    (h : ∀ e, P e → P { e with io := (p e.io).2 }) : Keeps P (callBackend p) := h

/-- R261: what the body, the lock, the loss of the position and the refresh all keep, the command keeps. -/
theorem command_keeps {P : Engine → Prop} {body : Body Result} (hl : ∀ l e, P e → P (withLock l e))
    (hc : ∀ e, P e → P (clearKnown e)) (hr : ∀ t e, P e → P (setCurrent t e)) (hb : Keeps P body) {s t : State}
    (hs : P s.toEngine) (h : command body s = .next t) : P t.toEngine := by
  have hg : P (grant s).toEngine := hl _ _ hs
  rcases command_cases h with ⟨-, rfl⟩ | ⟨-, -, -, rfl⟩ | ⟨-, -, -, rfl⟩ | ⟨-, -, -, rfl⟩ | ⟨-, -, -, rfl⟩ |
      ⟨-, v, e, he, rfl⟩ | ⟨-, k, e, he, rfl⟩
  · exact hs
  · exact hs
  · unfold expireWait
    cases s.lockTimeoutClears
    · exact hl _ _ hs
    · exact hc _ (hl { s.ctrl.lock with waiters := dropWaiter s.caller s.ctrl.lock.waiters } _ hs)
  · exact hl _ _ hs
  · exact hg
  · have := hb _ hg
    rw [he] at this
    refine hl _ _ (?_ : P (refresh (grant s).toEngine e))
    unfold refresh; split
    · exact hr _ _ this
    · exact this
  · have := hb _ hg
    rw [he] at this
    exact hl _ _ this

end Sys2Proof.Machine
end

