-- ==== Sys2Proof/Laws/Primitives.lean ====
section
/-! SUPPORT. What the optional primitives can do (R199 to R202), the check before one, and the failure entry of a backend
operation (R307). -/

namespace Sys2Proof.Machine

theorem needCap_ok {c : Capability} {e : Engine} (h : hasCap e.io.backend.spec c = true) :
    needCap c e = (.ok (), e) := by unfold needCap; rw [h]; rfl

theorem needCap_err {c : Capability} {e : Engine} (h : hasCap e.io.backend.spec c = false) :
    needCap c e = (.err .unsupportedOperation, e) := by unfold needCap; rw [h]; rfl

theorem clearOnFault_ok {α : Type} {m : Body α} {e e' : Engine} {a : α} (h : m e = (.ok a, e')) :
    clearOnFault m e = (.ok a, e') := by unfold clearOnFault; rw [h]

theorem clearOnFault_stop {α : Type} {m : Body α} {e e' : Engine} {x : Refusal} (h : m e = (.stop x, e')) :
    clearOnFault m e = (.stop x, e') := by unfold clearOnFault; rw [h]

/-- R307: a `TimeoutError` or `BusFault` clears `stateKnown`. -/
theorem clearOnFault_fault {α : Type} {m : Body α} {e e' : Engine} {k : ErrKind} (h : m e = (.err k, e'))
    (hk : k = .timeoutError ∨ k = .busFault) : clearOnFault m e = (.err k, clearKnown e') := by
  unfold clearOnFault; rw [h]; rcases hk with rfl | rfl <;> rfl

/-- R307: an error of a check leaves it as it was. -/
theorem clearOnFault_check {α : Type} {m : Body α} {e e' : Engine} {k : ErrKind} (h : m e = (.err k, e'))
    (hk : k = .invalidArgument ∨ k = .unsupportedOperation) : clearOnFault m e = (.err k, e') := by
  unfold clearOnFault; rw [h]; rcases hk with rfl | rfl <;> rfl

/-- R202: one edge of the raw single-edge primitive. -/
theorem edge_drives (e : Edge) (io : Interface) : Drives [e] io (logEdges [e] (driveEdge e (dropOutcome io)).2) := by
  obtain ⟨a1, a2, a3, a4, a5, a6, a7, a8, a9, a10, a11⟩ := driveEdge_fields e (dropOutcome io)
  refine ⟨?_, a1, a2, a3, a4, a5, a6, a11, fun hv => ?_, fun _ => a7, fun _ => a8⟩
  · simp [wireEdges, a9]
  · exact driveEdges_lines [e] hv

/-- R201, R202: on a disabled backend no edge is driven. -/
theorem rawEdgePrim_disabled (m d : Bool) {io : Interface} (hu : ¬Usable io) :
    rawEdgePrim m d io = (.err .busFault, io) := whenEnabled_disabled _ hu

/-- R202: everything the raw single-edge primitive can do, where the backend may be called. -/
theorem rawEdgePrim_cases (m d : Bool) {io : Interface} (hu : Usable io) :
    (∃ io', (∀ k, nextOutcome io ≠ .fails k) ∧
        rawEdgePrim m d io = (.ok (driveEdge { tms := m, tdi := d } io).1, io') ∧
        Drives [{ tms := m, tdi := d }] io io') ∨
      ∃ k io', nextOutcome io = .fails k ∧ rawEdgePrim m d io = (.err .busFault, io') ∧
        Drives (List.take k [{ tms := m, tdi := d }]) io io' := by
  have ho : (driveEdge { tms := m, tdi := d } (dropOutcome io)).1 = (driveEdge { tms := m, tdi := d } io).1 :=
    (driveEdge_samples (io := dropOutcome io) (io' := io) ⟨rfl, rfl⟩ _).1
  have hd := edge_drives { tms := m, tdi := d } io
  unfold rawEdgePrim
  rw [whenEnabled_usable _ hu]
  dsimp only
  cases hn : nextOutcome io with
  | completes => exact .inl ⟨_, by simp, by rw [← ho], hd⟩
  | refuses => exact .inl ⟨_, by simp, by rw [← ho], hd⟩
  | timesOut k => exact .inl ⟨_, by simp, by rw [← ho], hd⟩
  | breaksContract => exact .inl ⟨_, by simp, by rw [← ho], hd⟩
  | fails k =>
    refine .inr ⟨k, _, rfl, rfl, ?_⟩
    exact drives_trans (dropOutcome_drives io) (failing_drives [{ tms := m, tdi := d }] k _)

/-- R199, R201: on a disabled backend no rate is asked for or set. -/
theorem freqSetPrim_disabled (hz : Nat) {io : Interface} (hu : ¬Usable io) :
    freqSetPrim hz io = (.err .busFault, io) := whenEnabled_disabled _ hu

/-- R199: `freqGet` where the backend may be called. -/
theorem freqGetPrim_eq {io : Interface} (hu : Usable io) : freqGetPrim io = (.ok io.backend.rate, io) :=
  whenEnabled_usable _ hu

/-- R200: `stateGet` where the backend may be called. -/
theorem stateGetPrim_eq {io : Interface} (hu : Usable io) : stateGetPrim io = (.ok io.backend.book, io) :=
  whenEnabled_usable _ hu

theorem freqGetPrim_disabled {io : Interface} (hu : ¬Usable io) : freqGetPrim io = (.err .busFault, io) :=
  whenEnabled_disabled _ hu

theorem stateGetPrim_disabled {io : Interface} (hu : ¬Usable io) : stateGetPrim io = (.err .busFault, io) :=
  whenEnabled_disabled _ hu

/-- Reading the rate or the bookkeeping changes nothing. -/
theorem freqGetPrim_io (io : Interface) : (freqGetPrim io).2 = io := by
  by_cases hu : Usable io
  · rw [freqGetPrim_eq hu]
  · rw [freqGetPrim_disabled hu]

theorem stateGetPrim_io (io : Interface) : (stateGetPrim io).2 = io := by
  by_cases hu : Usable io
  · rw [stateGetPrim_eq hu]
  · rw [stateGetPrim_disabled hu]

/-- R199: everything `freqSet` of a positive rate can do, where the backend may be called. -/
theorem freqSetPrim_cases (hz : Nat) {io : Interface} (hu : Usable io) :
    (freqFailure io.backend.spec.variant (nextOutcome io) = none ∧
        freqSetPrim hz io =
          (.ok (Config.achievable io.backend.spec hz),
            { io with
              outcomes := io.outcomes.tail
              backend := { io.backend with rate := Config.achievable io.backend.spec hz } })) ∨
      ∃ k, freqFailure io.backend.spec.variant (nextOutcome io) = some k ∧
        freqSetPrim hz io = (.err k, { io with outcomes := io.outcomes.tail }) := by
  unfold freqSetPrim
  rw [whenEnabled_usable _ hu]
  dsimp only
  cases freqFailure io.backend.spec.variant (nextOutcome io) with
  | none => exact .inl ⟨rfl, rfl⟩
  | some k => exact .inr ⟨k, rfl, rfl⟩

theorem freqFailure_none {v : Variant} : freqFailure v .completes = none := by cases v <;> rfl

/-- R200: the mode bits of a `stateSet` lead to its target. -/
theorem tapRun_stateSetBits (book target : TapState) (f : Bool) :
    tapRun book (stateSetBits book target f) = target := by
  unfold stateSetBits; split
  · rw [tapRun_append, tapRun_ones_five, tapRun_tapPath]
  · exact tapRun_tapPath _ _

/-- R200: the edges of a `stateSet`. -/
def stateSetEdges (book target : TapState) (f : Bool) : List Edge :=
  edgesOf (stateSetBits book target f) (zeros (stateSetBits book target f).length)

/-- R200, R201: on a disabled backend there is no `stateSet`. -/
theorem stateSetPrim_disabled (target : TapState) (f : Bool) {io : Interface} (hu : ¬Usable io) :
    stateSetPrim target f io = (.err .busFault, io) := whenEnabled_disabled _ hu

/-- R200, D45: a `stateSet` without edges cannot fail. -/
theorem stateSetPrim_none {target : TapState} {f : Bool} {io : Interface} (hu : Usable io)
    (h : stateSetBits io.backend.book target f = []) : stateSetPrim target f io = (.ok (), io) := by
  unfold stateSetPrim; rw [whenEnabled_usable _ hu, h]; rfl

/-- R200: a `stateSet` with edges is one edge-driving call. -/
theorem stateSetPrim_burst {target : TapState} {f : Bool} {io : Interface} (hu : Usable io)
    (h : stateSetBits io.backend.book target f ≠ []) :
    stateSetPrim target f io =
      andThen (burst (stateSetBits io.backend.book target f) (zeros (stateSetBits io.backend.book target f).length))
        (fun _ => done ()) io := by
  unfold stateSetPrim; rw [whenEnabled_usable _ hu]; dsimp only; rw [if_neg (by simpa using h)]

/-- R200, R186, R201: everything `stateSet` can do. -/
theorem stateSetPrim_cases (target : TapState) (f : Bool) (io : Interface) :
    (∃ x, stateSetPrim target f io = (.stop x, io)) ∨
      (∃ io', stateSetPrim target f io = (.ok (), io') ∧ Drives (stateSetEdges io.backend.book target f) io io') ∨
        ∃ k es io', stateSetPrim target f io = (.err k, io') ∧ (k = .timeoutError ∨ k = .busFault) ∧
          es <+: stateSetEdges io.backend.book target f ∧ Drives es io io' := by
  unfold stateSetEdges
  by_cases hu : Usable io
  swap
  · exact .inr (.inr ⟨_, [], io, stateSetPrim_disabled target f hu, .inr rfl, List.nil_prefix, drives_refl io⟩)
  by_cases he : stateSetBits io.backend.book target f = []
  · rw [stateSetPrim_none hu he, he]; exact .inr (.inl ⟨io, rfl, drives_refl io⟩)
  · rw [stateSetPrim_burst hu he]
    rcases burst_cases (stateSetBits io.backend.book target f) (zeros (stateSetBits io.backend.book target f).length) io
      with ⟨out, io', h, -, d⟩ | ⟨k, n, io', h, hk, d⟩ | h
    · exact .inr (.inl ⟨io', by rw [andThen_ok h]; rfl, d⟩)
    · exact .inr (.inr ⟨k, _, io', andThen_err h, hk, List.take_prefix _ _, d⟩)
    · exact .inl ⟨_, andThen_stop h⟩

/-- R200: `stateSet` where the backend serves. -/
theorem stateSetPrim_completes {target : TapState} {f : Bool} {io : Interface} (hf : Serves io) :
    ∃ io', stateSetPrim target f io = (.ok (), io') ∧ Drives (stateSetEdges io.backend.book target f) io io' := by
  unfold stateSetEdges
  by_cases he : stateSetBits io.backend.book target f = []
  · rw [stateSetPrim_none hf.1 he, he]; exact ⟨io, rfl, drives_refl io⟩
  · rw [stateSetPrim_burst hf.1 he]
    obtain ⟨io', h, d, -⟩ := burst_completes (tms := stateSetBits io.backend.book target f)
      (tdi := zeros (stateSetBits io.backend.book target f).length) hf.2
    exact ⟨io', by rw [andThen_ok h]; rfl, d⟩

/-- R201: everything `enable` can do. -/
theorem enablePrim_cases (io : Interface) :
    (enablePrim io =
        (.ok (), { io with outcomes := io.outcomes.tail, backend := { io.backend with enabled := true } })) ∨
      ∃ k, nextOutcome io = .fails k ∧ enablePrim io = (.err .busFault, { io with outcomes := io.outcomes.tail }) := by
  unfold enablePrim
  dsimp only
  cases h : nextOutcome io with
  | fails k => exact .inr ⟨k, rfl, rfl⟩
  | _ => exact .inl rfl

end Sys2Proof.Machine
end

