-- ==== Sys2Proof/Laws/Chain.lean ====
section
/-! SUPPORT. The chain: padding (R28, R29, R140), appends (R141) and the identifiers (R146, R148). -/

namespace Sys2Proof.Machine

theorem totalIr_append (a b : List ChainDevice) : totalIr (a ++ b) = totalIr a + totalIr b := by
  induction a with
  | nil => simp [totalIr]
  | cons d r ih => simp [totalIr, ih, Nat.add_assoc]

theorem totalIr_eq_sum (ch : List ChainDevice) : totalIr ch = (ch.map (·.irLength)).sum := by
  induction ch with
  | nil => rfl
  | cons d r ih => simp [totalIr, ih]

/-- R29: the lengths before a device, its own and those after it make the total. -/
theorem totalIr_split {ch : List ChainDevice} {i : Nat} {d : ChainDevice} (h : ch[i]? = some d) :
    totalIr (ch.take i) + d.irLength + totalIr (ch.drop (i + 1)) = totalIr ch := by
  induction ch generalizing i with
  | nil => simp at h
  | cons x r ih =>
    cases i with
    | zero => simp at h; subst h; simp [totalIr]
    | succ i =>
      have := ih (i := i) (by simpa using h)
      simp [totalIr]; omega

/-- R28: what a device's position gives it in a chain. -/
def placed (ch : List ChainDevice) (i : Nat) (d : ChainDevice) : ChainDevice :=
  { d with
    positionIndex := i, bypassBeforeBits := totalIr (ch.take i), bypassAfterBits := totalIr (ch.drop (i + 1)) }

theorem recomputeFrom_getElem? (ch : List ChainDevice) (i b k : Nat) :
    (recomputeFrom i b ch)[k]? = ch[k]?.map fun d =>
      { d with
        positionIndex := i + k, bypassBeforeBits := b + totalIr (ch.take k)
        bypassAfterBits := totalIr (ch.drop (k + 1)) } := by
  induction ch generalizing i b k with
  | nil => simp [recomputeFrom]
  | cons d r ih =>
    cases k with
    | zero => simp [recomputeFrom, totalIr]
    | succ k =>
      simp only [recomputeFrom, List.getElem?_cons_succ, ih, List.take_succ_cons, List.drop_succ_cons, totalIr]
      rw [show i + 1 + k = i + (k + 1) by omega, Nat.add_assoc b]

/-- R140: what the recomputation gives each device. -/
theorem recompute_getElem? (ch : List ChainDevice) (k : Nat) : (recompute ch)[k]? = ch[k]?.map (placed ch k) := by
  unfold recompute
  rw [recomputeFrom_getElem?]
  cases ch[k]? with
  | none => rfl
  | some d => simp [placed]

@[simp] theorem recompute_length (ch : List ChainDevice) : (recompute ch).length = ch.length := by
  have h : ∀ i b, (recomputeFrom i b ch).length = ch.length := by
    induction ch with
    | nil => intro i b; rfl
    | cons d r ih => intro i b; simp [recomputeFrom, ih]
  exact h 0 0

theorem recompute_irLength (ch : List ChainDevice) : (recompute ch).map (·.irLength) = ch.map (·.irLength) := by
  apply List.ext_getElem?
  intro k
  rw [List.getElem?_map, List.getElem?_map, recompute_getElem?]
  cases ch[k]? <;> rfl

theorem placed_congr {ch ch' : List ChainDevice} (h : ch.map (·.irLength) = ch'.map (·.irLength)) (i : Nat)
    (d : ChainDevice) : placed ch i d = placed ch' i d := by
  unfold placed
  rw [totalIr_eq_sum, totalIr_eq_sum, totalIr_eq_sum, totalIr_eq_sum, List.map_take, List.map_take, List.map_drop,
    List.map_drop, h]

/-- R28: the padding is right exactly when every device is as its position gives it. -/
theorem recompute_eq_self {ch : List ChainDevice} : recompute ch = ch ↔ ∀ k d, ch[k]? = some d → placed ch k d = d := by
  constructor
  · intro h k d hd
    have := recompute_getElem? ch k
    rw [h, hd] at this
    exact (Option.some.inj this).symm
  · intro h
    apply List.ext_getElem?
    intro k
    rw [recompute_getElem?]
    cases hd : ch[k]? with
    | none => rfl
    | some d => rw [Option.map_some, h k d hd]

/-- R140: a recomputation changes nothing a second time. -/
theorem recompute_recompute (ch : List ChainDevice) : recompute (recompute ch) = recompute ch := by
  rw [recompute_eq_self]
  intro k d hd
  rw [recompute_getElem?] at hd
  rw [placed_congr (recompute_irLength ch)]
  cases hc : ch[k]? with
  | none => rw [hc] at hd; cases hd
  | some x => rw [hc] at hd; cases hd; rfl

theorem appendDevice_ok {ch : List ChainDevice} {n : Nat} (h : ChainOk ch) (hn : n ≠ 0) : ChainOk (appendDevice ch n) := by
  refine ⟨recompute_recompute _, fun d hd => ?_⟩
  have : d.irLength ∈ (appendDevice ch n).map (·.irLength) := List.mem_map_of_mem hd
  unfold appendDevice at this
  rw [recompute_irLength] at this
  obtain ⟨x, hx, e⟩ := List.mem_map.mp this
  rcases List.mem_append.mp hx with hx | hx
  · rw [← e]; exact h.2 x hx
  · rw [List.mem_singleton.mp hx] at e; rw [← e]; show 1 ≤ n; omega

@[simp] theorem appendDevice_irLength (ch : List ChainDevice) (n : Nat) :
    (appendDevice ch n).map (·.irLength) = ch.map (·.irLength) ++ [n] := by
  unfold appendDevice; rw [recompute_irLength]; simp

@[simp] theorem appendDevice_length (ch : List ChainDevice) (n : Nat) : (appendDevice ch n).length = ch.length + 1 := by
  simp [appendDevice]

/-- R142: an append keeps every device, up to its padding. -/
theorem appendDevice_getElem? {ch : List ChainDevice} {k : Nat} {d : ChainDevice} (n : Nat) (h : ch[k]? = some d) :
    ∃ d', (appendDevice ch n)[k]? = some d' ∧ d'.irLength = d.irLength ∧ d'.idcode = d.idcode := by
  have hk : k < ch.length := by
    by_contra hk
    rw [List.getElem?_eq_none (Nat.not_lt.mp hk)] at h; cases h
  unfold appendDevice
  rw [recompute_getElem?, List.getElem?_append_left hk, h]
  exact ⟨_, rfl, rfl, rfl⟩

theorem foldl_appendDevice_ok (layout : List Nat) {ch : List ChainDevice} (h : ChainOk ch) (hn : ∀ n ∈ layout, n ≠ 0) :
    ChainOk (layout.foldl appendDevice ch) := by
  induction layout generalizing ch with
  | nil => exact h
  | cons n r ih =>
    exact ih (appendDevice_ok h (hn n List.mem_cons_self)) fun m hm => hn m (List.mem_cons_of_mem _ hm)

/-- R270: the chain of a layout without a zero. -/
theorem chainOfLayout_ok {layout : List Nat} (h : ∀ n ∈ layout, n ≠ 0) : ChainOk (chainOfLayout layout) :=
  foldl_appendDevice_ok layout ⟨rfl, by simp⟩ h

theorem foldl_appendDevice_irLength (layout : List Nat) (ch : List ChainDevice) :
    (layout.foldl appendDevice ch).map (·.irLength) = ch.map (·.irLength) ++ layout := by
  induction layout generalizing ch with
  | nil => simp
  | cons n r ih => rw [List.foldl_cons, ih]; simp

theorem chainOfLayout_irLength (layout : List Nat) : (chainOfLayout layout).map (·.irLength) = layout := by
  unfold chainOfLayout; rw [foldl_appendDevice_irLength]; rfl

theorem recompute_idcode (ch : List ChainDevice) : (recompute ch).map (·.idcode) = ch.map (·.idcode) := by
  apply List.ext_getElem?
  intro k
  rw [List.getElem?_map, List.getElem?_map, recompute_getElem?]
  cases ch[k]? <;> rfl

theorem chainOfLayout_idcode (layout : List Nat) : ∀ d ∈ chainOfLayout layout, d.idcode = none := by
  have h : ∀ (l : List Nat) (ch : List ChainDevice), (∀ d ∈ ch, d.idcode = none) →
      ∀ d ∈ l.foldl appendDevice ch, d.idcode = none := by
    intro l
    induction l with
    | nil => exact fun ch h => h
    | cons n r ih =>
      intro ch h
      refine ih _ fun d hd => ?_
      have : d.idcode ∈ (appendDevice ch n).map (·.idcode) := List.mem_map_of_mem hd
      unfold appendDevice at this
      rw [recompute_idcode] at this
      obtain ⟨x, hx, e⟩ := List.mem_map.mp this
      rcases List.mem_append.mp hx with hx | hx
      · rw [← e]; exact h x hx
      · rw [List.mem_singleton.mp hx] at e; exact e.symm
  exact h layout [] (by simp)

/-! ### Identifiers -/

/-- R146: writing an identifier changes one device and nothing else of it. -/
theorem setIdcode_getElem? (i : Nat) (v : BitVec 32) (e : Engine) (k : Nat) :
    (setIdcode i v e).ctrl.chain[k]? =
      e.ctrl.chain[k]?.map fun d => if i = k then { d with idcode := some v } else d := by
  unfold setIdcode
  dsimp only
  rw [List.getElem?_modify]
  cases e.ctrl.chain[k]? with
  | none => rfl
  | some d => simp only [Option.map_some, Option.map_eq_map]

theorem setIdcode_irLength (i : Nat) (v : BitVec 32) (e : Engine) :
    (setIdcode i v e).ctrl.chain.map (·.irLength) = e.ctrl.chain.map (·.irLength) := by
  apply List.ext_getElem?
  intro k
  rw [List.getElem?_map, List.getElem?_map, setIdcode_getElem?]
  cases e.ctrl.chain[k]? with
  | none => rfl
  | some d => simp only [Option.map_some]; split <;> rfl

@[simp] theorem setIdcode_length (i : Nat) (v : BitVec 32) (e : Engine) :
    (setIdcode i v e).ctrl.chain.length = e.ctrl.chain.length := by simp [setIdcode]

@[simp] theorem setIdcode_io (i : Nat) (v : BitVec 32) (e : Engine) : (setIdcode i v e).io = e.io := rfl

@[simp] theorem setIdcode_totalIr (i : Nat) (v : BitVec 32) (e : Engine) :
    totalIr (setIdcode i v e).ctrl.chain = totalIr e.ctrl.chain := by
  rw [totalIr_eq_sum, totalIr_eq_sum, setIdcode_irLength]

theorem setIdcode_ok (i : Nat) (v : BitVec 32) {e : Engine} (h : ChainOk e.ctrl.chain) :
    ChainOk (setIdcode i v e).ctrl.chain := by
  constructor
  · rw [recompute_eq_self]
    intro k d hd
    rw [placed_congr (setIdcode_irLength i v e)]
    rw [setIdcode_getElem?] at hd
    cases hc : e.ctrl.chain[k]? with
    | none => rw [hc] at hd; cases hd
    | some x =>
      have hx := recompute_eq_self.mp h.1 k x hc
      rw [hc] at hd
      obtain rfl := Option.some.inj hd
      split
      · exact congrArg (fun y : ChainDevice => { y with idcode := some v }) hx
      · exact hx
  · intro d hd
    have : d.irLength ∈ (setIdcode i v e).ctrl.chain.map (·.irLength) := List.mem_map_of_mem hd
    rw [setIdcode_irLength] at this
    obtain ⟨x, hx, e⟩ := List.mem_map.mp this
    rw [← e]; exact h.2 x hx

/-- R143, R29: a payload has one bit for every bit of the chain's instruction registers. -/
theorem payloadFor_length {ch : List ChainDevice} (h : ChainOk ch) {i : Nat} {d : ChainDevice} (hd : ch[i]? = some d)
    {b : BitSeq} (hb : b.length = d.irLength) : (payloadFor d b).length = totalIr ch := by
  have hp := recompute_eq_self.mp h.1 i d hd
  have := totalIr_split hd
  rw [← hp] at this ⊢
  simp only [payloadFor, List.length_append, ones_length, hb, placed] at this ⊢
  omega

end Sys2Proof.Machine
end

