-- ==== Sys2Proof/Laws/Decode.lean ====
section
/-! SUPPORT. The fields of a record (R86, R87): each field reads back what the encoder puts. -/

namespace Sys2Proof

open Sys2Proof.Machine

/-- A field reads `a` from the bits `b`, whatever follows them, and leaves what follows. -/
def Reads {α : Type} (m : RecordField α) (b : BitSeq) (a : α) : Prop := ∀ r, m (b ++ r) = some (a, r)

theorem reads_done {α : Type} (a : α) : Reads (fieldDone a) [] a := fun _ => rfl

theorem reads_then {α β : Type} {m : RecordField α} {f : α → RecordField β} {b b' : BitSeq} {a : α} {c : β} (h : Reads m b a)
    (h' : Reads (f a) b' c) : Reads (fieldThen m f) (b ++ b') c := by
  intro r
  unfold fieldThen
  rw [List.append_assoc, h]
  exact h' r

/-- The last field. -/
theorem reads_last {α β : Type} {m : RecordField α} {f : α → RecordField β} {b : BitSeq} {a : α} {c : β} (h : Reads m b a)
    (h' : Reads (f a) [] c) : Reads (fieldThen m f) b c := by
  have := reads_then h h'
  rwa [List.append_nil] at this

theorem reads_bit (b : Bool) : Reads takeBit [b] b := fun _ => rfl

theorem reads_bits (b : BitSeq) : Reads (takeBits b.length) b b := by
  induction b with
  | nil => exact reads_done []
  | cons x r ih => exact reads_then (b := [x]) (reads_bit x) (reads_last ih (reads_done _))

/-- R12: `toNat` of `fromNat`. -/
theorem bitsToNat_natToBits (v n : Nat) : bitsToNat (natToBits v n) = v % 2 ^ n := by
  induction n generalizing v with
  | zero => simp [natToBits, bitsToNat, Nat.mod_one]
  | succ n ih =>
    have h : (v % 2 == 1).toNat = v % 2 := by rcases Nat.mod_two_eq_zero_or_one v with h | h <;> rw [h] <;> rfl
    simp only [natToBits, bitsToNat, ih, h]
    rw [pow_succ, Nat.mul_comm (2 ^ n) 2, Nat.mod_mul]

@[simp] theorem natToBits_zero (n : Nat) : natToBits 0 n = zeros n := by
  induction n with
  | zero => rfl
  | succ n ih => simp [natToBits, ih, zeros, List.replicate_succ]

/-- R12: `fromNat` of `toNat`, filled with zeros. -/
theorem natToBits_bitsToNat (b : BitSeq) (k : Nat) : natToBits (bitsToNat b) (b.length + k) = b ++ zeros k := by
  induction b with
  | nil => simp [bitsToNat]
  | cons x r ih =>
    rw [List.length_cons, Nat.add_right_comm, natToBits, bitsToNat]
    have h1 : (x.toNat + 2 * bitsToNat r) % 2 = x.toNat := by cases x <;> simp [Nat.add_mul_mod_self_left]
    have h2 : (x.toNat + 2 * bitsToNat r) / 2 = bitsToNat r := by
      cases x
      · simp
      · show (1 + 2 * bitsToNat r) / 2 = bitsToNat r; omega
    rw [h1, h2, ih]
    cases x <;> rfl

theorem bitsToNat_lt (b : BitSeq) : bitsToNat b < 2 ^ b.length := by
  induction b with
  | nil => decide
  | cons x r ih =>
    have : x.toNat ≤ 1 := by cases x <;> decide
    rw [bitsToNat, List.length_cons, pow_succ]; omega

theorem natToBits_length (v n : Nat) : (natToBits v n).length = n := by
  induction n generalizing v with
  | zero => rfl
  | succ n ih => simp [natToBits, ih]

theorem reads_fixed {v n : Nat} (h : v < 2 ^ n) : Reads (takeFixed n) (natToBits v n) v := by
  have hb := reads_bits (natToBits v n)
  rw [natToBits_length] at hb
  refine reads_last hb ?_
  rw [bitsToNat_natToBits, Nat.mod_eq_of_lt h]
  exact reads_done v

theorem reads_tap (s : TapState) : Reads takeTap (putTap s) s := by intro r; cases s <;> rfl

theorem reads_natWith {fuel n : Nat} (h : n ≤ fuel) : Reads takeNat (putNatWith fuel n) n := by
  induction fuel generalizing n with
  | zero =>
    obtain rfl : n = 0 := by omega
    exact fun _ => rfl
  | succ f ih =>
    unfold putNatWith
    split
    · rename_i h0; rw [h0]; exact fun _ => rfl
    · intro r
      have h' := ih (n := n / 2) (by omega) r
      simp only [List.cons_append, takeNat, h']
      have : (n % 2 == 1).toNat + 2 * (n / 2) = n := by
        rcases Nat.mod_two_eq_zero_or_one n with h | h <;> rw [h] <;> simp <;> omega
      rw [this]

/-- Log entry 2: a natural number is read back. -/
theorem reads_nat (n : Nat) : Reads takeNat (putNat n) n := reads_natWith (Nat.le_refl n)

theorem reads_seq (b : BitSeq) : Reads takeSeq (putSeq b) b := reads_then (reads_nat _) (reads_bits b)

theorem reads_nats (l : List Nat) : Reads (takeNats l.length) (l.flatMap putNat) l := by
  induction l with
  | nil => exact reads_done []
  | cons n r ih => exact reads_then (reads_nat n) (reads_last ih (reads_done _))

theorem reads_target (p : ScanTarget) : Reads takeTarget (putTarget p) p := by intro r; cases p <;> rfl

theorem reads_direction (d : Direction) : Reads takeDirection (putDirection d) d := by intro r; cases d <;> rfl

theorem reads_limit {low : Nat} {l : Option Nat} (h : ∀ m, l = some m → low ≤ m) :
    Reads (takeLimit low) (putLimit low l) l := by
  cases l with
  | none => exact fun _ => rfl
  | some m =>
    refine reads_then (b := [true]) (reads_bit true) (reads_last (reads_nat (m - low)) ?_)
    rw [Nat.sub_add_cancel (h m rfl)]
    exact reads_done _

theorem reads_variant {v : Variant} (h : v.limitOk = true) : Reads takeVariant (putVariant v) (some v) := by
  cases v with
  | accelerated m =>
    refine reads_then (reads_fixed (by decide)) (reads_last (reads_limit ?_) (reads_done _))
    rintro k rfl; simpa [Variant.limitOk] using h
  | bitbang => exact reads_last (reads_fixed (by decide)) (reads_done _)
  | bulk m =>
    refine reads_then (reads_fixed (by decide)) (reads_last (reads_limit ?_) (reads_done _))
    rintro k rfl; simpa [Variant.limitOk] using h

/-- The bytes of a record hold the bits packed into them, filled with zeros. -/
theorem bytesToBits_packBytes {fuel : Nat} {b : BitSeq} (h : b.length ≤ fuel) :
    ∃ k, bytesToBits (packBytes fuel b) = b ++ zeros k := by
  induction fuel generalizing b with
  | zero =>
    obtain rfl : b = [] := List.eq_nil_of_length_eq_zero (by omega)
    exact ⟨0, rfl⟩
  | succ f ih =>
    unfold packBytes
    cases b with
    | nil => exact ⟨0, rfl⟩
    | cons x r =>
      simp only [List.isEmpty_cons, Bool.false_eq_true, if_false]
      have hlen : ((x :: r).drop 8).length ≤ f := by simp at h ⊢; omega
      obtain ⟨k, hk⟩ := ih hlen
      have h8 : ((x :: r).take 8).length ≤ 8 := by simp
      have hlt := bitsToNat_lt ((x :: r).take 8)
      have hbyte : (BitVec.ofNat 8 (bitsToNat ((x :: r).take 8))).toNat = bitsToNat ((x :: r).take 8) := by
        rw [BitVec.toNat_ofNat, Nat.mod_eq_of_lt]
        exact hlt.trans_le (Nat.pow_le_pow_right (by decide) h8)
      have hbits : natToBits (bitsToNat ((x :: r).take 8)) 8 =
          (x :: r).take 8 ++ zeros (8 - ((x :: r).take 8).length) := by
        rw [← natToBits_bitsToNat, Nat.add_sub_cancel' h8]
      have hcat : bytesToBits (BitVec.ofNat 8 (bitsToNat ((x :: r).take 8)) :: packBytes f ((x :: r).drop 8)) =
          natToBits (bitsToNat ((x :: r).take 8)) 8 ++ bytesToBits (packBytes f ((x :: r).drop 8)) := by
        unfold bytesToBits; rw [List.flatMap_cons, hbyte]
      rw [hcat, hbits, hk]
      by_cases hs : 8 ≤ (x :: r).length
      · refine ⟨k, ?_⟩
        rw [List.length_take, Nat.min_eq_left hs]
        show (x :: r).take 8 ++ [] ++ ((x :: r).drop 8 ++ zeros k) = _
        rw [List.append_nil, ← List.append_assoc, List.take_append_drop]
      · refine ⟨8 - (x :: r).length + k, ?_⟩
        rw [List.take_of_length_le (by omega), List.drop_of_length_le (by omega), List.nil_append, List.append_assoc]
        congr 1
        exact List.replicate_append_replicate

/-- R86: a record whose code has the operands `field`, and whose bits that field reads, decodes to what it reads. -/
theorem decode_of_reads {code : Nat} {b : BitSeq} {field : RecordField (Except Reject Instr)} {x : Except Reject Instr}
    (hc : code < 256) (hf : operandsOf code = some field) (hr : Reads field b x) :
    decode (BitVec.ofNat 8 code :: packBytes b.length b) = x := by
  obtain ⟨k, hk⟩ := bytesToBits_packBytes (Nat.le_refl b.length)
  unfold decode
  dsimp only
  rw [BitVec.toNat_ofNat, Nat.mod_eq_of_lt hc, hf]
  dsimp only
  rw [hk, hr]

end Sys2Proof
end

