-- ==== Sys2Proof/Laws/Serial.lean ====
section
/-! SUPPORT. The reference target chain (R150 to R157): what its edges keep, and the shift of a whole path (R234). -/

namespace Sys2Proof.Machine

/-! ### The serial path -/

theorem shiftSerial_length (rs : List BitSeq) (b : Bool) : (shiftSerial rs b).length = rs.length := by
  induction rs with
  | nil => rfl
  | cons r rs ih =>
    cases rs with
    | nil => rfl
    | cons q rs => simpa [shiftSerial] using ih

/-- R151: one shift moves the whole path by one cell. -/
theorem shiftSerial_flatten {rs : List BitSeq} (h : ∀ r ∈ rs, r ≠ []) (hne : rs ≠ []) (b : Bool) :
    (shiftSerial rs b).flatten = rs.flatten.tail ++ [b] := by
  induction rs with
  | nil => exact absurd rfl hne
  | cons r rs ih =>
    have hr := h r List.mem_cons_self
    obtain ⟨x, r', rfl⟩ := List.exists_cons_of_ne_nil hr
    cases rs with
    | nil => simp [shiftSerial]
    | cons q rs =>
      have hq := h q (List.mem_cons_of_mem _ List.mem_cons_self)
      obtain ⟨y, q', rfl⟩ := List.exists_cons_of_ne_nil hq
      have := ih (fun z hz => h z (List.mem_cons_of_mem _ hz)) (by simp)
      simp only [shiftSerial, List.flatten_cons, this]
      simp

theorem shiftSerial_lengths {rs : List BitSeq} (h : ∀ r ∈ rs, r ≠ []) (b : Bool) :
    (shiftSerial rs b).map List.length = rs.map List.length := by
  induction rs with
  | nil => rfl
  | cons r rs ih =>
    have hr := h r List.mem_cons_self
    obtain ⟨x, r', rfl⟩ := List.exists_cons_of_ne_nil hr
    cases rs with
    | nil => simp [shiftSerial]
    | cons q rs =>
      have := ih fun z hz => h z (List.mem_cons_of_mem _ hz)
      simp only [shiftSerial, List.map_cons, this]
      simp

/-! ### What every edge keeps -/

/-- R150: the parameters of a device. -/
def paramsOf (d : RefDevice) : Nat × Option (BitVec 32) × BitSeq := (d.irLength, d.idc, d.op)

theorem zipWith_params {ds : List RefDevice} {rs : List BitSeq} (h : rs.length = ds.length)
    {f : RefDevice → BitSeq → RefDevice} (hf : ∀ d r, paramsOf (f d r) = paramsOf d) :
    (ds.zipWith f rs).map paramsOf = ds.map paramsOf := by
  induction ds generalizing rs with
  | nil => simp
  | cons d ds ih =>
    cases rs with
    | nil => cases h
    | cons r rs => simp only [List.zipWith_cons_cons, List.map_cons, hf, ih (by simpa using h)]

theorem loadOrShift_params (s : TapState) (b : Bool) (ds : List RefDevice) :
    (loadOrShift s b ds).map paramsOf = ds.map paramsOf := by
  unfold loadOrShift
  split
  · simp [Function.comp_def, paramsOf]
  · simp [Function.comp_def, paramsOf]
  · exact zipWith_params (by rw [shiftSerial_length, List.length_map]) fun _ _ => rfl
  · exact zipWith_params (by rw [shiftSerial_length, List.length_map]) fun _ _ => rfl
  · rfl

theorem onEntry_params (s : TapState) (ds : List RefDevice) : (onEntry s ds).map paramsOf = ds.map paramsOf := by
  unfold onEntry
  split <;> simp [Function.comp_def, paramsOf]

/-- The devices of a target, `none` for one that is left unconstrained. -/
theorem targetEdge_params (e : Edge) (t : Target) :
    (targetEdge e t).devices.map (·.map paramsOf) = t.devices.map (·.map paramsOf) := by
  unfold targetEdge
  cases t.devices with
  | none => rfl
  | some ds => simp [onEntry_params, loadOrShift_params]

theorem zipWith_all {ds : List RefDevice} {rs : List BitSeq} {f : RefDevice → BitSeq → RefDevice}
    {Q : RefDevice → Prop} (h : ∀ d r, (d, r) ∈ ds.zip rs → Q (f d r)) : ∀ d ∈ ds.zipWith f rs, Q d := by
  intro d hd
  rw [← List.map_uncurry_zip_eq_zipWith] at hd
  obtain ⟨⟨x, r⟩, hx, rfl⟩ := List.mem_map.mp hd
  exact h x r hx

theorem zip_lengths {ds : List RefDevice} {g : RefDevice → BitSeq} {rs : List BitSeq}
    (h : rs.map List.length = (ds.map g).map List.length) {d : RefDevice} {r : BitSeq} (hm : (d, r) ∈ ds.zip rs) :
    d ∈ ds ∧ r.length = (g d).length := by
  induction ds generalizing rs with
  | nil => simp at hm
  | cons x ds ih =>
    cases rs with
    | nil => simp at hm
    | cons q rs =>
      simp only [List.map_cons, List.cons.injEq] at h
      rcases List.mem_cons.mp hm with h' | h'
      · cases h'; exact ⟨List.mem_cons_self, h.1⟩
      · have := ih h.2 h'; exact ⟨List.mem_cons_of_mem _ this.1, this.2⟩

theorem captureIR_length {n : Nat} (h : 1 ≤ n) : (captureIR n).length = n := by
  simp [captureIR]; omega

theorem captureDR_length (d : RefDevice) : (captureDR d).length = 1 ∨ (captureDR d).length = 32 := by
  unfold captureDR
  split
  · split
    · exact .inr (natToBits_length _ _)
    · exact .inl rfl
  · exact .inl rfl

theorem loadOrShift_ok {s : TapState} {b : Bool} {ds : List RefDevice} (h : ∀ d ∈ ds, RefDeviceOk d) :
    ∀ d ∈ loadOrShift s b ds, RefDeviceOk d := by
  unfold loadOrShift
  split
  · intro d hd
    obtain ⟨x, hx, rfl⟩ := List.mem_map.mp hd
    obtain ⟨a1, a2, a3, a4, -⟩ := h x hx
    exact ⟨a1, a2, a3, a4, captureDR_length x⟩
  · intro d hd
    obtain ⟨x, hx, rfl⟩ := List.mem_map.mp hd
    obtain ⟨a1, a2, a3, a4, a5⟩ := h x hx
    exact ⟨a1, a2, captureIR_length a1, a4, a5⟩
  · refine zipWith_all fun d r hm => ?_
    have hne : ∀ r ∈ ds.map (·.drShift), r ≠ [] := by
      intro r hr
      obtain ⟨x, hx, rfl⟩ := List.mem_map.mp hr
      obtain ⟨-, -, -, -, a5⟩ := h x hx
      intro h0; rw [h0] at a5; simp at a5
    obtain ⟨hd, hl⟩ := zip_lengths (g := (·.drShift)) (shiftSerial_lengths hne b) hm
    obtain ⟨a1, a2, a3, a4, a5⟩ := h d hd
    exact ⟨a1, a2, a3, a4, by rw [← hl] at a5; exact a5⟩
  · refine zipWith_all fun d r hm => ?_
    have hne : ∀ r ∈ ds.map (·.irShift), r ≠ [] := by
      intro r hr
      obtain ⟨x, hx, rfl⟩ := List.mem_map.mp hr
      obtain ⟨a1, -, a3, -, -⟩ := h x hx
      intro h0; rw [h0] at a3; simp at a3; omega
    obtain ⟨hd, hl⟩ := zip_lengths (g := (·.irShift)) (shiftSerial_lengths hne b) hm
    obtain ⟨a1, a2, a3, a4, a5⟩ := h d hd
    exact ⟨a1, a2, hl.trans a3, a4, a5⟩
  · exact h

theorem onEntry_ok {s : TapState} {ds : List RefDevice} (h : ∀ d ∈ ds, RefDeviceOk d) :
    ∀ d ∈ onEntry s ds, RefDeviceOk d := by
  unfold onEntry
  split
  · intro d hd
    obtain ⟨x, hx, rfl⟩ := List.mem_map.mp hd
    obtain ⟨a1, a2, a3, a4, a5⟩ := h x hx
    exact ⟨a1, a2, a3, a3, a5⟩
  · intro d hd
    obtain ⟨x, hx, rfl⟩ := List.mem_map.mp hd
    obtain ⟨a1, a2, a3, a4, a5⟩ := h x hx
    refine ⟨a1, a2, a3, ?_, a5⟩
    show (defaultInstruction x).length = x.irLength
    unfold defaultInstruction
    split
    · exact a2
    · simp
  · exact h

/-- R150: the devices of a target keep the lengths of their registers. -/
def TargetOk (t : Target) : Prop := ∀ ds, t.devices = some ds → ∀ d ∈ ds, RefDeviceOk d

theorem targetEdge_ok {e : Edge} {t : Target} (h : TargetOk t) : TargetOk (targetEdge e t) := by
  intro ds hds
  unfold targetEdge at hds
  cases ht : t.devices with
  | none => rw [ht] at hds; cases hds
  | some xs =>
    rw [ht] at hds
    obtain rfl := Option.some.inj hds
    exact onEntry_ok (loadOrShift_ok (h xs ht))

theorem targetRun_ok {es : List Edge} {t : Target} (h : TargetOk t) : TargetOk (targetRun es t) := by
  induction es generalizing t with
  | nil => exact h
  | cons e r ih => exact ih (targetEdge_ok h)

theorem targetRun_params (es : List Edge) (t : Target) :
    (targetRun es t).devices.map (·.map paramsOf) = t.devices.map (·.map paramsOf) := by
  induction es generalizing t with
  | nil => rfl
  | cons e r ih => rw [targetRun_cons, ih, targetEdge_params]

/-! ### The shift law -/

/-- A device with the register of a path replaced. -/
def setPathRegister (p : ScanTarget) (d : RefDevice) (r : BitSeq) : RefDevice :=
  match p with
  | .data => { d with drShift := r }
  | .instruction => { d with irShift := r }

theorem serial_eq_flatten (p : ScanTarget) (ds : List RefDevice) : serial p ds = (ds.map (pathRegister p)).flatten := by
  unfold serial; exact List.flatMap_def

theorem map_pathRegister_zipWith {p : ScanTarget} {ds : List RefDevice} {rs : List BitSeq} (h : rs.length = ds.length) :
    (ds.zipWith (setPathRegister p) rs).map (pathRegister p) = rs := by
  induction ds generalizing rs with
  | nil => cases rs with | nil => rfl | cons r rs => cases h
  | cons d ds ih =>
    cases rs with
    | nil => cases h
    | cons r rs =>
      simp only [List.zipWith_cons_cons, List.map_cons, ih (by simpa using h)]
      cases p <;> rfl

/-- R152: an edge taken in the Shift state of a path. -/
theorem targetEdge_shift (p : ScanTarget) (e : Edge) (ds : List RefDevice) :
    targetEdge e { tap := shiftOf p, devices := some ds } =
      { tap := if e.tms then exit1Of p else shiftOf p
        devices := some (ds.zipWith (setPathRegister p) (shiftSerial (ds.map (pathRegister p)) e.tdi)) } := by
  obtain ⟨m, d⟩ := e
  cases p <;> cases m <;> rfl

theorem dataOut_shift (p : ScanTarget) {ds : List RefDevice} (hne : ds ≠ []) (hr : ∀ d ∈ ds, pathRegister p d ≠ []) :
    dataOut { tap := shiftOf p, devices := some ds } = (serial p ds).head? := by
  obtain ⟨d, r, rfl⟩ := List.exists_cons_of_ne_nil hne
  obtain ⟨x, l, hx⟩ := List.exists_cons_of_ne_nil (hr d List.mem_cons_self)
  cases p <;> simp_all [dataOut, shiftOf, serial, pathRegister]

/-- What stays of a device when the register of a path is shifted. -/
def frameOf (p : ScanTarget) (d : RefDevice) : RefDevice := setPathRegister p d []

theorem zipWith_frame {p : ScanTarget} {ds : List RefDevice} {rs : List BitSeq} (h : rs.length = ds.length) :
    (ds.zipWith (setPathRegister p) rs).map (frameOf p) = ds.map (frameOf p) := by
  induction ds generalizing rs with
  | nil => simp
  | cons d ds ih =>
    cases rs with
    | nil => cases h
    | cons r rs =>
      simp only [List.zipWith_cons_cons, List.map_cons, ih (by simpa using h)]
      cases p <;> rfl

/-- R234 for any number of edges taken in the Shift state of a path: the bits sampled, and the registers left. -/
theorem shift_law (p : ScanTarget) {es : List Edge} {io : Interface} {ds : List RefDevice}
    (ht : io.target = { tap := shiftOf p, devices := some ds }) (hne : ds ≠ [])
    (hr : ∀ d ∈ ds, pathRegister p d ≠ []) (hes : ∀ e ∈ es.dropLast, e.tms = false) :
    (driveEdges es io).1 = (serial p ds ++ es.map (·.tdi)).take es.length ∧
      ∃ ds', (driveEdges es io).2.target =
          { tap := if es.getLast?.map (·.tms) = some true then exit1Of p else shiftOf p, devices := some ds' } ∧
        serial p ds' = (serial p ds ++ es.map (·.tdi)).drop es.length ∧
          ds'.map (fun d => (pathRegister p d).length) = ds.map (fun d => (pathRegister p d).length) ∧
            ds'.map (frameOf p) = ds.map (frameOf p) := by
  induction es generalizing io ds with
  | nil => exact ⟨by simp, ds, by simpa using ht, by simp, rfl, rfl⟩
  | cons e es ih =>
    have hr' : ∀ r ∈ ds.map (pathRegister p), r ≠ [] := by
      intro r h; obtain ⟨d, hd, rfl⟩ := List.mem_map.mp h; exact hr d hd
    have hsl := shiftSerial_length (ds.map (pathRegister p)) e.tdi
    rw [List.length_map] at hsl
    have hmap := map_pathRegister_zipWith (p := p) hsl
    have hfl : serial p (ds.zipWith (setPathRegister p) (shiftSerial (ds.map (pathRegister p)) e.tdi)) =
        (serial p ds).tail ++ [e.tdi] := by
      rw [serial_eq_flatten, hmap, shiftSerial_flatten hr' (by simpa using hne), serial_eq_flatten]
    have hln : (ds.zipWith (setPathRegister p) (shiftSerial (ds.map (pathRegister p)) e.tdi)).map
        (fun d => (pathRegister p d).length) = ds.map (fun d => (pathRegister p d).length) := by
      have h1 : ∀ l : List RefDevice, l.map (fun d => (pathRegister p d).length) =
          (l.map (pathRegister p)).map List.length := by intro l; simp [Function.comp_def]
      rw [h1, hmap, shiftSerial_lengths hr', h1]
    have hfr := zipWith_frame (p := p) hsl
    obtain ⟨x, rest, hx⟩ : ∃ x rest, serial p ds = x :: rest := by
      obtain ⟨d, r, rfl⟩ := List.exists_cons_of_ne_nil hne
      obtain ⟨y, l, hy⟩ := List.exists_cons_of_ne_nil (hr d List.mem_cons_self)
      exact ⟨y, l ++ serial p r, by simp [serial, hy]⟩
    have hout : (driveEdge e io).1 = x := by
      unfold driveEdge sampleOut
      rw [ht, dataOut_shift p hne hr, hx]; rfl
    have htgt : (driveEdge e io).2.target = Target.mk (if e.tms then exit1Of p else shiftOf p)
        (some (ds.zipWith (setPathRegister p) (shiftSerial (ds.map (pathRegister p)) e.tdi))) := by
      rw [(driveEdge_fields e io).1, ht, targetEdge_shift]
    rw [driveEdges_cons]
    cases es with
    | nil =>
      refine ⟨by simp [hout, hx], _, ?_, ?_, hln, hfr⟩
      · rw [driveEdges_nil, htgt]; cases h : e.tms <;> simp [h]
      · rw [hfl, hx]; simp
    | cons f es =>
      have he : e.tms = false := hes e (by simp)
      rw [he] at htgt
      obtain ⟨o, ds', t', s', l', f'⟩ := ih (io := (driveEdge e io).2) htgt
        (by intro h0; rw [h0] at hln; simp at hln; exact hne hln)
        (by
          intro d hd h0
          have : (pathRegister p d).length ∈ (ds.zipWith (setPathRegister p)
            (shiftSerial (ds.map (pathRegister p)) e.tdi)).map (fun d => (pathRegister p d).length) :=
              List.mem_map_of_mem hd
          rw [hln] at this
          obtain ⟨y, hy, hl⟩ := List.mem_map.mp this
          rw [h0] at hl
          exact hr y hy (List.eq_nil_of_length_eq_zero hl))
        (fun g hg => hes g (by simp at hg ⊢; exact .inr hg))
      refine ⟨?_, ds', ?_, ?_, l'.trans hln, f'.trans hfr⟩
      · rw [hout, o, hfl, hx]; simp
      · rw [t', List.getLast?_cons_cons]
      · rw [s', hfl, hx]; simp

end Sys2Proof.Machine
end

