-- ==== Sys2Proof/Laws/Keeps.lean ====
section
/-! SUPPORT. What every command keeps: a property of the engine that the few primitive changes keep is kept by the
body of every command, so by the command. -/

namespace Sys2Proof.Machine

/-- The changes a scan is made of keep the property: the flags and the position, and one edge-driving backend call. -/
structure ScanClosed (P : Engine → Prop) : Prop where
  clear : ∀ e, P e → P (clearKnown e)
  current : ∀ t e, P e → P (setCurrent t e)
  known : ∀ t e, P e → P (setKnown t e)
  freeze : ∀ e, P e → P (freezeChain e)
  burst : ∀ m d e, P e → P { e with io := (burst m d e.io).2 }

/-- The changes the body of every operation in the frame is made of keep the property: those of a scan, the other backend
calls, the frequency, the growth of the chain and the writing of an identifier. -/
structure Closed (P : Engine → Prop) : Prop extends ScanClosed P where
  edge : ∀ m d e, P e → P { e with io := (rawEdgePrim m d e.io).2 }
  rate : ∀ hz e, P e → P { e with io := (freqSetPrim hz e.io).2 }
  enable : ∀ e, P e → P { e with io := (enablePrim e.io).2 }
  disable : ∀ e, P e → P { e with io := (disablePrim e.io).2 }
  store : ∀ hz e, hz ≠ 0 → P e → P (storeFrequency hz e)
  grow : ∀ n e, n ≠ 0 → e.ctrl.chainFrozen = false → P e → P (growChain n e)
  identify : ∀ i v e, (∀ d, e.ctrl.chain[i]? = some d → d.idcode = none) → P e → P (setIdcode i v e)

variable {P : Engine → Prop}

theorem keeps_burst (h : ScanClosed P) (m d : BitSeq) : Keeps P (callBackend (burst m d)) :=
  keeps_callBackend fun e he => h.burst m d e he

/-- R181: what one backend call keeps, `transfer` keeps. -/
theorem keeps_transferPrim (h : ScanClosed P) (m d : BitSeq) (n : Nat) : Keeps P (callBackend (transferPrim m d n)) := by
  intro e he
  show P { e with io := (transferPrim m d n e.io).2 }
  rcases transferPrim_cases m d n e.io with ⟨k, e1, -⟩ | ⟨-, -, -, -, -, e1⟩ <;> rw [e1]
  · exact he
  · exact h.burst m d e he

theorem keeps_sendRanges (h : ScanClosed P) (tms tdi : BitSeq) (rs : List (Nat × Nat)) :
    Keeps P (callBackend (sendRanges tms tdi rs)) := by
  induction rs with
  | nil => exact fun e he => he
  | cons r rs ih =>
    obtain ⟨a, b⟩ := r
    intro e he
    have ht := keeps_transferPrim h (slice a b tms) (slice a b tdi) (b - a) e he
    show P { e with io := (sendRanges tms tdi ((a, b) :: rs) e.io).2 }
    have ht : P { e with io := (transferPrim (slice a b tms) (slice a b tdi) (b - a) e.io).2 } := ht
    unfold sendRanges
    rcases andThen_cases (transferPrim (slice a b tms) (slice a b tdi) (b - a))
        (fun out => andThen (sendRanges tms tdi rs) fun more => done (out ++ more)) e.io with
      ⟨out, io1, e1, e2⟩ | ⟨k, io1, e1, e2⟩ | ⟨x, io1, e1, e2⟩ <;> rw [e1] at ht <;> rw [e2]
    · have hs : P { e with io := (sendRanges tms tdi rs io1).2 } := ih { e with io := io1 } ht
      rcases andThen_cases (sendRanges tms tdi rs) (fun more => done (out ++ more)) io1 with
        ⟨o, io2, e3, e4⟩ | ⟨k, io2, e3, e4⟩ | ⟨x, io2, e3, e4⟩ <;> rw [e3] at hs <;> rw [e4] <;> exact hs
    · exact ht
    · exact ht

theorem keeps_navTransfer (h : ScanClosed P) (tms : BitSeq) : Keeps P (callBackend (navTransfer tms)) := by
  intro e he
  have hs := keeps_sendRanges h tms (zeros tms.length) (navChunks tms.length (maxTransferBits e.io.backend.spec)) e he
  show P { e with io := (navTransfer tms e.io).2 }
  have hs : P { e with io := (sendRanges tms (zeros tms.length)
    (navChunks tms.length (maxTransferBits e.io.backend.spec)) e.io).2 } := hs
  unfold navTransfer
  rcases andThen_cases (sendRanges tms (zeros tms.length) (navChunks tms.length (maxTransferBits e.io.backend.spec)))
      (fun _ => done ()) e.io with ⟨o, io2, e3, e4⟩ | ⟨k, io2, e3, e4⟩ | ⟨x, io2, e3, e4⟩ <;>
    rw [e3] at hs <;> rw [e4] <;> exact hs

theorem keeps_stateSetPrim (h : ScanClosed P) (t : TapState) (f : Bool) : Keeps P (callBackend (stateSetPrim t f)) := by
  intro e he
  show P { e with io := (stateSetPrim t f e.io).2 }
  by_cases hu : Usable e.io
  swap
  · rw [stateSetPrim_disabled t f hu]; exact he
  by_cases hb : stateSetBits e.io.backend.book t f = []
  · rw [stateSetPrim_none hu hb]; exact he
  rw [stateSetPrim_burst hu hb]
  have hp := h.burst (stateSetBits e.io.backend.book t f) (zeros (stateSetBits e.io.backend.book t f).length) e he
  rcases andThen_cases (burst (stateSetBits e.io.backend.book t f) (zeros (stateSetBits e.io.backend.book t f).length))
    (fun _ => done ()) e.io with ⟨o, io2, e3, e4⟩ | ⟨k, io2, e3, e4⟩ | ⟨x, io2, e3, e4⟩ <;>
    rw [e3] at hp <;> rw [e4] <;> exact hp

theorem keeps_freqGetPrim : Keeps P (callBackend freqGetPrim) := by
  intro e he; show P { e with io := (freqGetPrim e.io).2 }; rw [freqGetPrim_io]; exact he

theorem keeps_stateGetPrim : Keeps P (callBackend stateGetPrim) := by
  intro e he; show P { e with io := (stateGetPrim e.io).2 }; rw [stateGetPrim_io]; exact he

theorem keeps_hardReset (h : ScanClosed P) : Keeps P hardReset :=
  keeps_andThen (keeps_transferPrim h _ _ _) fun _ => keeps_update (h.known .reset)

theorem keeps_recover (h : ScanClosed P) : Keeps P recover := by
  intro eng he; unfold recover; split
  · exact he
  · exact keeps_hardReset h eng he

theorem keeps_scanCore (h : ScanClosed P) (p : ScanTarget) (d : Direction) (n : Nat) (e : TapState) (b : BitSeq) :
    Keeps P (scanCore p d n e b) := by
  refine keeps_clearOnError h.clear (keeps_andThen ?_ fun _ => keeps_andThen (keeps_update h.freeze) fun _ =>
    keeps_andThen (keeps_recover h) fun _ => ?_)
  · refine keeps_andThen (keeps_check _ _) fun _ => keeps_andThen (keeps_check _ _) fun _ =>
      keeps_andThen (keeps_check _ _) fun _ eng he => keeps_check _ _ eng he
  · intro eng he
    unfold scanEdges
    exact keeps_andThen (keeps_sendRanges h _ _ _)
      (fun out => keeps_andThen (keeps_update (h.current e)) fun _ => keeps_done _) eng he

theorem keeps_getFrequency : Keeps P getFrequencyBody := fun _ he => he

theorem keeps_getState : Keeps P getStateBody := fun _ he => he

theorem keeps_setFrequency (h : Closed P) (hz : Nat) : Keeps P (setFrequencyBody hz) := by
  intro e he
  have hr := h.rate hz e he
  unfold setFrequencyBody
  cases hc : hasCap e.io.backend.spec .freq
  · rw [andThen_err (needCap_err hc)]; exact he
  rw [andThen_ok (needCap_ok hc)]
  cases hz != 0
  · rw [andThen_err (check_false _ _)]; exact he
  rw [andThen_ok (check_true _ _)]
  by_cases hu : Usable e.io
  swap
  · rw [andThen_err (by unfold callBackend; rw [freqSetPrim_disabled hz hu])]; exact he
  rcases freqSetPrim_cases hz hu with ⟨-, e1⟩ | ⟨k, -, e1⟩ <;> rw [e1] at hr
  · rw [andThen_ok (by unfold callBackend; rw [e1])]
    exact h.store _ _ (by unfold Config.achievable; omega) hr
  · rw [andThen_err (by unfold callBackend; rw [e1])]; exact hr

theorem keeps_setState (h : Closed P) (t : TapState) (f : Bool) : Keeps P (setStateBody t f) := by
  intro e he
  unfold setStateBody
  refine keeps_andThen (keeps_check _ _) (fun _ => keeps_andThen (keeps_clearOnError h.clear ?_) fun _ =>
    keeps_andThen (keeps_update (h.known t)) fun _ => keeps_done _) e he
  split
  · exact keeps_stateSetPrim h.toScanClosed _ _
  · refine keeps_andThen ?_ fun _ g hg => keeps_navTransfer h.toScanClosed _ g hg
    split
    · exact keeps_hardReset h.toScanClosed
    · exact keeps_done _

theorem keeps_executeScan (h : Closed P) (p : ScanTarget) (d : Direction) (n : Nat) (e : TapState) (b : BitSeq) :
    Keeps P (executeScanBody p d n e b) :=
  keeps_andThen (keeps_check _ _) fun _ => keeps_andThen (keeps_scanCore h.toScanClosed p d n e b) fun _ => keeps_done _

theorem keeps_needCap (c : Capability) : Keeps P (needCap c) := fun e he => keeps_check _ _ e he

theorem keeps_rawEdge (h : Closed P) (m d : Bool) : Keeps P (rawEdgeBody m d) := by
  refine keeps_andThen (keeps_needCap _) fun _ => keeps_andThen (keeps_clearOnError h.clear ?_) fun _ =>
    keeps_andThen (keeps_update fun g hg => ?_) fun _ => keeps_done _
  · exact keeps_callBackend fun g hg => h.edge m d g hg
  · unfold trackEdge; split
    · exact h.current _ _ hg
    · exact hg

theorem keeps_addDevice (h : Closed P) (n : Nat) : Keeps P (addDeviceBody n) := by
  intro e he
  unfold addDeviceBody
  cases hn : n != 0
  · rw [andThen_err (check_false _ _)]; exact he
  rw [andThen_ok (check_true _ _)]
  cases hf : e.ctrl.chainFrozen
  · exact h.grow n e (by simpa using hn) hf he
  · exact he

theorem keeps_buildPayload (t : Nat) (b : BitSeq) : Keeps P (buildPayload t b) := by
  intro e he
  unfold buildPayload
  cases e.ctrl.chain[t]? with
  | none => exact he
  | some d => dsimp only; split <;> exact he

theorem keeps_buildInstructionPayload (t : Nat) (b : BitSeq) : Keeps P (buildInstructionPayloadBody t b) :=
  keeps_andThen (keeps_buildPayload t b) fun _ => keeps_done _

theorem keeps_dataPadding (t : Nat) : Keeps P (dataPaddingBody t) := by
  intro e he; unfold dataPaddingBody; split <;> exact he

/-- A scan writes no device of the chain. -/
theorem scanCore_chain (p : ScanTarget) (d : Direction) (n : Nat) (e : TapState) (b : BitSeq) (eng : Engine) :
    (scanCore p d n e b eng).2.ctrl.chain = eng.ctrl.chain :=
  keeps_scanCore (P := fun g => g.ctrl.chain = eng.ctrl.chain)
    ⟨fun _ h => h, fun _ _ h => h, fun _ _ h => h, fun _ h => h, fun _ _ _ h => h⟩ p d n e b eng rfl

theorem keeps_discoverOne (h : Closed P) (i : Nat) : Keeps P (discoverOne i) := by
  intro e he
  unfold discoverOne
  cases hd : e.ctrl.chain[i]? with
  | none => exact he
  | some d =>
    dsimp only
    cases hi : d.idcode.isSome
    swap
    · exact he
    rw [if_neg (by decide)]
    have hp := keeps_buildPayload (P := fun g => g = e) i (idcodeOpcodeOf e.io.opcodes i d.irLength) e rfl
    rcases andThen_cases (buildPayload i (idcodeOpcodeOf e.io.opcodes i d.irLength)) (fun pl =>
        andThen (scanCore .instruction .write (totalIr e.ctrl.chain) .idle pl) fun _ =>
          andThen (scanCore .data .read (Config.idcodeBits + e.ctrl.chain.length - 1) .idle []) fun out =>
            update (setIdcode i (identifierOf i out))) e with ⟨pl, e1, h1, r1⟩ | ⟨k, e1, h1, r1⟩ | ⟨k, e1, h1, r1⟩ <;>
      rw [h1] at hp <;> rw [r1] <;> dsimp only at hp <;> subst hp
    · have k1 := keeps_scanCore h.toScanClosed .instruction .write (totalIr e1.ctrl.chain) .idle pl e1 he
      have c1 := scanCore_chain .instruction .write (totalIr e1.ctrl.chain) .idle pl e1
      rcases andThen_cases (scanCore .instruction .write (totalIr e1.ctrl.chain) .idle pl) (fun _ =>
          andThen (scanCore .data .read (Config.idcodeBits + e1.ctrl.chain.length - 1) .idle []) fun out =>
            update (setIdcode i (identifierOf i out))) e1 with ⟨o, e2, h2, r2⟩ | ⟨k, e2, h2, r2⟩ | ⟨k, e2, h2, r2⟩ <;>
        rw [h2] at k1 c1 <;> rw [r2]
      · have k2 := keeps_scanCore h.toScanClosed .data .read (Config.idcodeBits + e1.ctrl.chain.length - 1) .idle [] e2 k1
        have c2 := scanCore_chain .data .read (Config.idcodeBits + e1.ctrl.chain.length - 1) .idle [] e2
        rcases andThen_cases (scanCore .data .read (Config.idcodeBits + e1.ctrl.chain.length - 1) .idle []) (fun out =>
            update (setIdcode i (identifierOf i out))) e2 with ⟨o, e3, h3, r3⟩ | ⟨k, e3, h3, r3⟩ | ⟨k, e3, h3, r3⟩ <;>
          rw [h3] at k2 c2 <;> rw [r3]
        · refine h.identify _ _ _ (fun x hx => ?_) k2
          dsimp only at c1 c2
          rw [c2, c1, hd] at hx
          obtain rfl := Option.some.inj hx
          simpa using hi
        · exact k2
        · exact k2
      · exact k1
      · exact k1
    · exact he
    · exact he

theorem keeps_discoverAll (h : Closed P) (is : List Nat) : Keeps P (discoverAll is) := by
  induction is with
  | nil => exact keeps_done _
  | cons i r ih => exact keeps_andThen (keeps_discoverOne h i) fun _ => ih

theorem keeps_discoverIdentifiers (h : Closed P) : Keeps P discoverIdentifiersBody := fun e he =>
  keeps_andThen (keeps_discoverAll h _)
    (fun _ => keeps_andThen (keeps_clearOnError h.clear (keeps_recover h.toScanClosed)) fun _ => keeps_done _) e he

theorem keeps_transfer (h : ScanClosed P) (m d : BitSeq) (n : Nat) : Keeps P (transferBody m d n) :=
  keeps_andThen (keeps_clearOnFault h.clear (keeps_transferPrim h m d n)) fun _ => keeps_done _

theorem keeps_edge (h : Closed P) (m d : Bool) : Keeps P (edgeBody m d) :=
  keeps_andThen (keeps_needCap _) fun _ =>
    keeps_andThen (keeps_clearOnFault h.clear (keeps_callBackend fun g hg => h.edge m d g hg)) fun _ => keeps_done _

theorem keeps_freqGet : Keeps P freqGetBody :=
  keeps_andThen (keeps_needCap _) fun _ => keeps_andThen keeps_freqGetPrim fun _ => keeps_done _

theorem keeps_freqSet (h : Closed P) (hz : Nat) : Keeps P (freqSetBody hz) :=
  keeps_andThen (keeps_needCap _) fun _ => keeps_andThen (keeps_check _ _) fun _ =>
    keeps_andThen (keeps_callBackend fun g hg => h.rate hz g hg) fun _ => keeps_done _

theorem keeps_stateGet : Keeps P stateGetBody :=
  keeps_andThen (keeps_needCap _) fun _ => keeps_andThen keeps_stateGetPrim fun _ => keeps_done _

theorem keeps_stateSet (h : ScanClosed P) (t : TapState) (f : Bool) : Keeps P (stateSetBody t f) :=
  keeps_andThen (keeps_needCap _) fun _ =>
    keeps_andThen (keeps_clearOnFault h.clear (keeps_stateSetPrim h t f)) fun _ => keeps_done _

theorem keeps_enable (h : Closed P) : Keeps P enableBody :=
  keeps_andThen (keeps_needCap _) fun _ => keeps_andThen (keeps_callBackend h.enable) fun _ => keeps_done _

theorem keeps_disable (h : Closed P) : Keeps P disableBody :=
  keeps_andThen (keeps_needCap _) fun _ => keeps_andThen (keeps_callBackend h.disable) fun _ => keeps_done _

theorem keeps_supports (c : BitVec 3) : Keeps P (supportsBody c) := fun _ he => he

theorem keeps_hardResetBody (h : Closed P) : Keeps P hardResetBody :=
  keeps_andThen (keeps_clearOnError h.clear (keeps_hardReset h.toScanClosed)) fun _ => keeps_done _

/-- R261: an operation that runs in the command frame is a command whose body keeps the property. -/
theorem takesLock_command {i : Instr} (h : i.takesLock = true) :
    ∃ b, (∀ s, exec i s = command b s) ∧ ∀ P : Engine → Prop, Closed P → Keeps P b := by
  cases i <;> first | (cases h; done) | skip
  · exact ⟨_, fun _ => rfl, fun _ _ => keeps_getFrequency⟩
  · exact ⟨_, fun _ => rfl, fun _ c => keeps_setFrequency c _⟩
  · exact ⟨_, fun _ => rfl, fun _ _ => keeps_getState⟩
  · exact ⟨_, fun _ => rfl, fun _ c => keeps_setState c _ _⟩
  · exact ⟨_, fun _ => rfl, fun _ c => keeps_executeScan c _ _ _ _ _⟩
  · exact ⟨_, fun _ => rfl, fun _ c => keeps_rawEdge c _ _⟩
  · exact ⟨_, fun _ => rfl, fun _ c => keeps_addDevice c _⟩
  · exact ⟨_, fun _ => rfl, fun _ _ => keeps_buildInstructionPayload _ _⟩
  · exact ⟨_, fun _ => rfl, fun _ c => keeps_discoverIdentifiers c⟩
  · exact ⟨_, fun _ => rfl, fun _ _ => keeps_dataPadding _⟩
  · exact ⟨_, fun _ => rfl, fun _ c => keeps_transfer c.toScanClosed _ _ _⟩
  · exact ⟨_, fun _ => rfl, fun _ c => keeps_edge c _ _⟩
  · exact ⟨_, fun _ => rfl, fun _ _ => keeps_freqGet⟩
  · exact ⟨_, fun _ => rfl, fun _ c => keeps_freqSet c _⟩
  · exact ⟨_, fun _ => rfl, fun _ _ => keeps_stateGet⟩
  · exact ⟨_, fun _ => rfl, fun _ c => keeps_stateSet c.toScanClosed _ _⟩
  · exact ⟨_, fun _ => rfl, fun _ c => keeps_enable c⟩
  · exact ⟨_, fun _ => rfl, fun _ c => keeps_disable c⟩
  · exact ⟨_, fun _ => rfl, fun _ _ => keeps_supports _⟩
  · exact ⟨_, fun _ => rfl, fun _ _ => keeps_done _⟩
  · exact ⟨_, fun _ => rfl, fun _ _ => keeps_done _⟩
  · exact ⟨_, fun _ => rfl, fun _ c => keeps_hardResetBody c⟩
  · exact ⟨_, fun _ => rfl, fun _ _ => keeps_done _⟩

/-- What every change and the lock keep, every operation that runs in the command frame keeps. -/
theorem takesLock_keeps (h : Closed P) (hl : ∀ l e, P e → P (withLock l e)) {i : Instr} (hi : i.takesLock = true) {s t : State} (hs : P s.toEngine)
    (he : exec i s = .next t) : P t.toEngine := by
  obtain ⟨b, hb, hk⟩ := takesLock_command hi
  rw [hb] at he
  exact command_keeps hl h.clear h.current (hk P h) hs he

end Sys2Proof.Machine
end

