-- ==== Sys2Proof/Laws/Commands.lean ====
section
/-! SUPPORT. The bodies of the commands that drive edges, said once: navigation (R275), `setState` (R265), the raw edge
(R267), and where a scan leads the TAP. -/

namespace Sys2Proof.Machine

/-! ### Where the edges lead -/

/-- R222 to R225: the edges of a scan lead from the position they start from to the end state. -/
theorem scan_run {eng : Engine} {p : ScanTarget} {d : Direction} {n : Nat} {e : TapState} {b : BitSeq}
    (hd : d ≠ .reserved) (ha : ScanAccepted eng.io p d n e b) {x : TapState}
    (hx : eng.ctrl.stateKnown = true → x = eng.ctrl.currentState) :
    tapRun x ((scanCommandEdges eng p d n e b).map (·.tms)) = e := by
  have hsl := scanTdi_length (scanStart eng) p (d := d) (n := n) e (b := b) hd ha.2.2.1
  unfold scanCommandEdges
  rw [List.map_append, edgesOf_tms hsl.symm, tapRun_append]
  have : tapRun x ((recoveryEdges eng).map (·.tms)) = scanStart eng := by
    unfold recoveryEdges scanStart
    cases hk : eng.ctrl.stateKnown
    · exact tapRun_ones_five x
    · exact hx hk
  rw [this, tapRun_scanTms _ _ ha.1]

theorem scanCommandEdges_ne {eng : Engine} {p : ScanTarget} {d : Direction} {n : Nat} {e : TapState} {b : BitSeq}
    (hd : d ≠ .reserved) (ha : ScanAccepted eng.io p d n e b) : scanCommandEdges eng p d n e b ≠ [] := by
  intro h
  have := congrArg List.length h
  unfold scanCommandEdges at this
  rw [List.length_append, edgesOf_length, scanTdi_length (hd := hd) (h := ha.2.2.1), Nat.min_self,
    scanTms_length] at this
  have := ha.1
  simp at *; omega

/-- R265, R200: the mode bits of a `setState` lead from the position they start from to the target. -/
theorem setState_run {e : Engine} {target : TapState} {f : Bool} {x : TapState}
    (hx : e.ctrl.stateKnown = true →
      x = if hasCap e.io.backend.spec .state then e.io.backend.book else e.ctrl.currentState) :
    tapRun x (setStateBits e target f) = target := by
  unfold setStateBits
  cases hr : (f || !e.ctrl.stateKnown)
  · have : e.ctrl.stateKnown = true := by cases h : e.ctrl.stateKnown <;> simp [h] at hr ⊢
    rw [if_neg (by decide), hx this]; exact tapRun_tapPath _ _
  · rw [if_pos rfl, tapRun_append, tapRun_ones_five, tapRun_tapPath]

/-! ### Navigation -/

theorem navChunks_adjacent {n : Nat} {limit : Option Nat} (h : ∀ m, limit = some m → 6 ≤ m) :
    Adjacent 0 (navChunks n limit) n ∧ ∀ r ∈ navChunks n limit, overLimit limit (r.2 - r.1) = false := by
  unfold navChunks
  cases limit with
  | none =>
    dsimp only
    refine ⟨?_, fun _ _ => rfl⟩
    split
    · rename_i h; exact h.symm
    · rename_i h; exact ⟨rfl, by omega, rfl⟩
  | some m =>
    have := h m rfl
    refine ⟨chunks_adjacent (by omega) (by omega) (by omega), fun r hr => ?_⟩
    have := chunks_le hr
    rw [overLimit_false]; intro k hk; cases hk; exact this

theorem slice_zeros (n : Nat) : slice 0 n (zeros n) = zeros n := by simp [slice, zeros]

/-- R275: a navigation where the backend serves. -/
theorem navTransfer_completes {tms : BitSeq} {io : Interface} (hf : Serves io) (hl : LimitOk io) :
    ∃ io', navTransfer tms io = (.ok (), io') ∧ Drives (edgesOf tms (zeros tms.length)) io io' ∧ Serves io' := by
  have ⟨ha, hlim⟩ := navChunks_adjacent (n := tms.length) hl
  obtain ⟨io', h, d, f, -⟩ := sendRanges_completes (tdi := zeros tms.length) (by simp) ha (le_refl _) hlim hf
  rw [slice_all, slice_zeros] at d
  exact ⟨io', by unfold navTransfer; rw [andThen_ok h]; rfl, d, f⟩

/-- R275: everything a navigation can do. -/
theorem navTransfer_cases (tms : BitSeq) {io : Interface} (hl : LimitOk io) :
    (∃ io', navTransfer tms io = (.ok (), io') ∧ Drives (edgesOf tms (zeros tms.length)) io io') ∨
      (∃ k es io', navTransfer tms io = (.err k, io') ∧ es <+: edgesOf tms (zeros tms.length) ∧ Drives es io io') ∨
        ∃ x io', navTransfer tms io = (.stop x, io') := by
  have ⟨ha, hlim⟩ := navChunks_adjacent (n := tms.length) hl
  obtain ⟨es, hp, hd⟩ := sendRanges_drives (io := io) (tdi := zeros tms.length) (by simp) ha (le_refl _)
  rw [slice_all, slice_zeros] at hp
  unfold navTransfer
  rcases h : sendRanges tms (zeros tms.length) (navChunks tms.length (maxTransferBits io.backend.spec)) io with
    ⟨o | k | x, io'⟩
  · obtain ⟨d, -⟩ := sendRanges_ok (by simp) ha (le_refl _) h
    rw [slice_all, slice_zeros] at d
    exact .inl ⟨io', by rw [andThen_ok h]; rfl, d⟩
  · rw [h] at hd; exact .inr (.inl ⟨k, es, io', andThen_err h, hp, hd⟩)
  · exact .inr (.inr ⟨x, io', andThen_stop h⟩)

/-! ### `setState` -/

/-- The reset edges before a path. -/
theorem edgesOf_reset_path (tms : BitSeq) :
    edgesOf (ones Config.hardResetEdges ++ tms) (zeros (ones Config.hardResetEdges ++ tms).length) =
      resetEdges ++ edgesOf tms (zeros tms.length) := by
  rw [show zeros (ones Config.hardResetEdges ++ tms).length = zeros Config.hardResetEdges ++ zeros tms.length by
    rw [List.length_append, ones_length]; unfold zeros; rw [List.replicate_add], edgesOf_append (by simp)]
  rfl

/-- The edges of a `setState`, without its checks and its flags. -/
def setStateDrive (target : TapState) (f : Bool) (e : Engine) : Ret Unit × Engine :=
  (if hasCap e.io.backend.spec .state then callBackend (stateSetPrim target (f || !e.ctrl.stateKnown))
    else setStateByPath target (f || !e.ctrl.stateKnown)) e

/-- An engine whose position is not yet final. -/
def midway (e : Engine) (pos : TapState) (known : Bool) (io : Interface) : Engine :=
  { ctrl := { e.ctrl with currentState := pos, stateKnown := known }, io := io }

theorem setStateDrive_completes (target : TapState) (f : Bool) {e : Engine} (hl : LimitOk e.io) (hf : Serves e.io) :
    ∃ pos known io', setStateDrive target f e = (.ok (), midway e pos known io') ∧
      Drives (edgesOf (setStateBits e target f) (zeros (setStateBits e target f).length)) e.io io' := by
  unfold setStateDrive
  cases hc : hasCap e.io.backend.spec .state
  · rw [if_neg (by decide)]
    unfold setStateByPath
    cases hr : (f || !e.ctrl.stateKnown)
    · have hbits : setStateBits e target f = tapPath e.ctrl.currentState target := by
        unfold setStateBits; rw [hr, hc]; rfl
      rw [hbits, if_neg (by decide), andThen_ok (done_apply _ _)]
      obtain ⟨io', h, d, -⟩ := navTransfer_completes (tms := tapPath e.ctrl.currentState target) hf hl
      exact ⟨e.ctrl.currentState, e.ctrl.stateKnown, io', by unfold callBackend; rw [h]; rfl, d⟩
    · have hbits : setStateBits e target f = ones Config.hardResetEdges ++ tapPath .reset target := by
        unfold setStateBits; rw [hr]; rfl
      rw [hbits, if_pos rfl, edgesOf_reset_path]
      obtain ⟨io1, h1, d1, f1, -⟩ := hardReset_completes hf hl
      rw [andThen_ok h1]
      obtain ⟨io', h, d, -⟩ := navTransfer_completes (tms := tapPath .reset target) f1
        (by intro m hm; exact hl m (by rw [← d1.spec]; exact hm))
      refine ⟨.reset, true, io', ?_, drives_trans d1 d⟩
      show callBackend (navTransfer (tapPath .reset target)) (setKnown .reset { e with io := io1 }) = _
      unfold callBackend
      rw [show (setKnown .reset { e with io := io1 }).io = io1 from rfl, h]; rfl
  · rw [if_pos rfl]
    have hbits : setStateBits e target f = stateSetBits e.io.backend.book target (f || !e.ctrl.stateKnown) := by
      unfold setStateBits stateSetBits; rw [hc]; rfl
    rw [hbits]
    obtain ⟨io', h, d⟩ := stateSetPrim_completes (target := target) (f := f || !e.ctrl.stateKnown) hf
    exact ⟨e.ctrl.currentState, e.ctrl.stateKnown, io', by unfold callBackend; rw [h]; rfl, d⟩

theorem setStateDrive_cases (target : TapState) (f : Bool) {e : Engine} (hl : LimitOk e.io) :
    (∃ pos known io', setStateDrive target f e = (.ok (), midway e pos known io') ∧
        Drives (edgesOf (setStateBits e target f) (zeros (setStateBits e target f).length)) e.io io') ∨
      (∃ k pos known io' es, setStateDrive target f e = (.err k, midway e pos known io') ∧ Drives es e.io io' ∧
          es <+: edgesOf (setStateBits e target f) (zeros (setStateBits e target f).length)) ∨
        ∃ x e', setStateDrive target f e = (.stop x, e') := by
  unfold setStateDrive
  have nav : ∀ g : Engine, LimitOk g.io →
      (∃ io', callBackend (navTransfer (tapPath g.ctrl.currentState target)) g = (.ok (), { g with io := io' }) ∧
          Drives (edgesOf (tapPath g.ctrl.currentState target) (zeros (tapPath g.ctrl.currentState target).length))
            g.io io') ∨
        (∃ k es io', callBackend (navTransfer (tapPath g.ctrl.currentState target)) g = (.err k, { g with io := io' }) ∧
          Drives es g.io io' ∧
            es <+: edgesOf (tapPath g.ctrl.currentState target) (zeros (tapPath g.ctrl.currentState target).length)) ∨
          ∃ x e', callBackend (navTransfer (tapPath g.ctrl.currentState target)) g = (.stop x, e') := by
    intro g hg
    rcases navTransfer_cases (tapPath g.ctrl.currentState target) hg with ⟨io', h, d⟩ | ⟨k, es, io', h, hp, d⟩ | ⟨x, io', h⟩
    · exact .inl ⟨io', by unfold callBackend; rw [h], d⟩
    · exact .inr (.inl ⟨k, es, io', by unfold callBackend; rw [h], d, hp⟩)
    · exact .inr (.inr ⟨x, { g with io := io' }, by unfold callBackend; rw [h]⟩)
  cases hc : hasCap e.io.backend.spec .state
  · rw [if_neg (by decide)]
    unfold setStateByPath
    cases hr : (f || !e.ctrl.stateKnown)
    · have hbits : setStateBits e target f = tapPath e.ctrl.currentState target := by
        unfold setStateBits; rw [hr, hc]; rfl
      rw [hbits, if_neg (by decide), andThen_ok (done_apply _ _)]
      rcases nav e hl with ⟨io', h, d⟩ | ⟨k, es, io', h, d⟩ | ⟨x, e', h⟩
      · exact .inl ⟨e.ctrl.currentState, e.ctrl.stateKnown, io', h, d⟩
      · exact .inr (.inl ⟨k, e.ctrl.currentState, e.ctrl.stateKnown, io', es, h, d⟩)
      · exact .inr (.inr ⟨x, e', h⟩)
    · have hbits : setStateBits e target f = ones Config.hardResetEdges ++ tapPath .reset target := by
        unfold setStateBits; rw [hr]; rfl
      rw [hbits, if_pos rfl, edgesOf_reset_path]
      rcases hardReset_cases e with ⟨io1, d1, h1⟩ | ⟨k, es, io1, hp, d1, h1⟩ | ⟨x, h1⟩
      · rw [andThen_ok h1]
        rcases nav (setKnown .reset { e with io := io1 }) (by intro m hm; exact hl m (by rw [← d1.spec]; exact hm)) with
          ⟨io', h, d⟩ | ⟨k, es, io', h, d, hp⟩ | ⟨x, e', h⟩
        · exact .inl ⟨.reset, true, io', h, drives_trans d1 d⟩
        · exact .inr (.inl ⟨k, .reset, true, io', _, h, drives_trans d1 d, (List.prefix_append_right_inj _).mpr hp⟩)
        · exact .inr (.inr ⟨x, e', h⟩)
      · exact .inr (.inl ⟨k, e.ctrl.currentState, e.ctrl.stateKnown, io1, es, andThen_err h1, d1,
          hp.trans (List.prefix_append _ _)⟩)
      · exact .inr (.inr ⟨x, e, andThen_stop h1⟩)
  · rw [if_pos rfl]
    have hbits : setStateBits e target f = stateSetBits e.io.backend.book target (f || !e.ctrl.stateKnown) := by
      unfold setStateBits stateSetBits; rw [hc]; rfl
    rw [hbits]
    unfold callBackend
    rcases stateSetPrim_cases target (f || !e.ctrl.stateKnown) e.io with ⟨x, h⟩ | ⟨io', h, d⟩ | ⟨k, es, io', h, -, hp, d⟩
    · exact .inr (.inr ⟨x, _, by rw [h]⟩)
    · exact .inl ⟨e.ctrl.currentState, e.ctrl.stateKnown, io', by rw [h]; rfl, d⟩
    · exact .inr (.inl ⟨k, e.ctrl.currentState, e.ctrl.stateKnown, io', es, by rw [h]; rfl, d, hp⟩)

theorem setStateBody_eq {target : TapState} (f : Bool) (e : Engine) (hs : stable target = true) :
    setStateBody target f e =
      match setStateDrive target f e with
      | (.ok _, e') => (.ok .ack, setKnown target e')
      | (.err k, e') => (.err k, clearKnown e')
      | (.stop x, e') => (.stop x, e') := by
  unfold setStateBody setStateDrive
  rw [hs, andThen_ok (check_true _ _)]
  unfold andThen clearOnError
  dsimp only
  split <;> rename_i h
  · split at h
    · cases h
    · rename_i h'; rw [h]; rfl
  · split at h
    · rename_i h'; cases h; rw [h']
    · rename_i h'; exact absurd h (h' _ _)
  · split at h
    · cases h
    · rename_i h'; rw [h]

/-- R265: `setState` to a stable state where the backend serves. -/
theorem setStateBody_completes {target : TapState} (f : Bool) {e : Engine} (hl : LimitOk e.io)
    (hs : stable target = true) (hf : Serves e.io) :
    ∃ io', setStateBody target f e = (.ok .ack, setKnown target { e with io := io' }) ∧
      Drives (edgesOf (setStateBits e target f) (zeros (setStateBits e target f).length)) e.io io' := by
  obtain ⟨pos, kn, io', h, d⟩ := setStateDrive_completes target f hl hf
  exact ⟨io', by rw [setStateBody_eq f e hs, h]; rfl, d⟩

/-- R265: everything `setState` to a stable state can do. -/
theorem setStateBody_cases {target : TapState} (f : Bool) {e : Engine} (hl : LimitOk e.io) (hs : stable target = true) :
    (∃ io', setStateBody target f e = (.ok .ack, setKnown target { e with io := io' }) ∧
        Drives (edgesOf (setStateBits e target f) (zeros (setStateBits e target f).length)) e.io io') ∨
      (∃ k pos io' es, setStateBody target f e = (.err k, midway e pos false io') ∧ Drives es e.io io' ∧
          es <+: edgesOf (setStateBits e target f) (zeros (setStateBits e target f).length)) ∨
        ∃ x e', setStateBody target f e = (.stop x, e') := by
  rw [setStateBody_eq f e hs]
  rcases setStateDrive_cases target f hl with ⟨pos, kn, io', h, d⟩ | ⟨k, pos, kn, io', es, h, d⟩ | ⟨x, e', h⟩
  · exact .inl ⟨io', by rw [h]; rfl, d⟩
  · exact .inr (.inl ⟨k, pos, io', es, by rw [h]; rfl, d⟩)
  · exact .inr (.inr ⟨x, e', by rw [h]⟩)

/-! ### The raw edge -/

/-- R267: everything `rawEdge` on a backend that has RAW_EDGE can do, where the backend may be called. -/
theorem rawEdgeBody_cases (m d : Bool) {e : Engine} (hu : Usable e.io) (hc : hasCap e.io.backend.spec .rawEdge = true) :
    (∃ io', (∀ k, nextOutcome e.io ≠ .fails k) ∧
        rawEdgeBody m d e = (.ok (.bit (driveEdge { tms := m, tdi := d } e.io).1), trackEdge m { e with io := io' }) ∧
        Drives [{ tms := m, tdi := d }] e.io io') ∨
      ∃ k io', nextOutcome e.io = .fails k ∧ rawEdgeBody m d e = (.err .busFault, clearKnown { e with io := io' }) ∧
        Drives (List.take k [{ tms := m, tdi := d }]) e.io io' := by
  unfold rawEdgeBody
  rw [andThen_ok (needCap_ok hc)]
  rcases rawEdgePrim_cases m d hu with ⟨io', hn, h, dr⟩ | ⟨k, io', hk, h, dr⟩
  · refine .inl ⟨io', hn, ?_, dr⟩
    rw [andThen_ok (a := _) (s' := { e with io := io' }) (by unfold clearOnError callBackend; rw [h])]; rfl
  · refine .inr ⟨k, io', hk, ?_, dr⟩
    rw [andThen_err (by unfold clearOnError callBackend; rw [h])]

end Sys2Proof.Machine
end

