-- ==== Sys2Proof/Laws/Reference.lean ====
section
/-! SUPPORT. The reference target chain as R150 and R158 describe it: its start state, and what every edge keeps of it. -/

namespace Sys2Proof.Machine

theorem idcodeOpcodeOf_length (l : List BitSeq) (i n : Nat) : (idcodeOpcodeOf l i n).length = n := by
  unfold idcodeOpcodeOf
  split
  · unfold fitBits; rw [List.length_take, List.length_append, zeros_length]; omega
  · exact natToBits_length _ _

@[simp] theorem freeBits_length (n first : Nat) : (freeBits n first).length = n := by simp [freeBits]

/-! ### The start state -/

/-- R158: a device at its start. -/
theorem deviceStart_spec (opcodes : List BitSeq) (j first : Nat) {len : Nat} (idc : Option (BitVec 32)) (h : 1 ≤ len) :
    RefDeviceOk (deviceStart opcodes j first len idc) ∧
      (deviceStart opcodes j first len idc).op = idcodeOpcodeOf opcodes j len ∧
        StartsSelected (deviceStart opcodes j first len idc) := by
  have hs : StartsSelected (deviceStart opcodes j first len idc) := freeBits_length _ _
  refine ⟨⟨h, idcodeOpcodeOf_length _ _ _, freeBits_length _ _, freeBits_length _ _, ?_⟩, rfl, hs⟩
  rw [hs]
  unfold selectedLength
  split
  · exact .inr rfl
  · exact .inl rfl

theorem referenceStart_params (opcodes : List BitSeq) (j first : Nat) (fixture : Fixture) :
    (referenceStart opcodes j first fixture).map (fun d => (d.irLength, d.idc)) = fixture := by
  induction fixture generalizing j first with
  | nil => rfl
  | cons x r ih => exact congrArg (_ :: ·) (ih _ _)

/-- R150, R158: the devices of a fixture at their start, from position `j` on. -/
theorem referenceStart_spec (opcodes : List BitSeq) (j first : Nat) {fixture : Fixture} (h : ∀ x ∈ fixture, 1 ≤ x.1)
    {k : Nat} {d : RefDevice} (hk : (referenceStart opcodes j first fixture)[k]? = some d) :
    RefDeviceOk d ∧ d.op = idcodeOpcodeOf opcodes (j + k) d.irLength ∧ StartsSelected d := by
  induction fixture generalizing j first k with
  | nil => cases hk
  | cons x r ih =>
    cases k with
    | zero =>
      obtain rfl := Option.some.inj hk
      exact deviceStart_spec opcodes j first x.2 (h x List.mem_cons_self)
    | succ k =>
      have := ih (j + 1) _ (fun y hy => h y (List.mem_cons_of_mem _ hy)) hk
      rwa [show j + 1 + k = j + (k + 1) by omega] at this

/-! ### What an edge keeps -/

/-- R154: a load gives the data shift stage the length of the register selected. -/
theorem captureDR_selected (d : RefDevice) : (captureDR d).length = selectedLength d := by
  unfold captureDR selectedLength selectsIdcode
  cases d.idc with
  | none => rfl
  | some v => cases d.irLatch == d.op <;> simp [natToBits_length]

/-- What a load or a shift does to one device. -/
theorem loadOrShift_getElem? {s : TapState} {b : Bool} {ds : List RefDevice} (hne : ∀ d ∈ ds, d.drShift ≠ []) {j : Nat}
    {d' : RefDevice} (h : (loadOrShift s b ds)[j]? = some d') :
    ∃ d, ds[j]? = some d ∧ paramsOf d' = paramsOf d ∧ d'.irLatch = d.irLatch ∧
      d'.drShift.length = if s = .captureDR then selectedLength d else d.drShift.length := by
  have hmap : ∀ f : RefDevice → RefDevice, (ds.map f)[j]? = some d' → ∃ d, ds[j]? = some d ∧ f d = d' := by
    intro f h
    rw [List.getElem?_map] at h
    cases hd : ds[j]? with
    | none => rw [hd] at h; cases h
    | some d => rw [hd] at h; exact ⟨d, rfl, Option.some.inj h⟩
  have hzip : ∀ (f : RefDevice → BitSeq → RefDevice) (rs : List BitSeq), (ds.zipWith f rs)[j]? = some d' →
      ∃ d r, ds[j]? = some d ∧ rs[j]? = some r ∧ f d r = d' := by
    intro f rs h
    obtain ⟨d, r, h1, h2, h3⟩ := List.getElem?_zipWith_eq_some.mp h
    exact ⟨d, r, h1, h2, h3⟩
  unfold loadOrShift at h
  split at h
  · obtain ⟨d, hd, rfl⟩ := hmap _ h; exact ⟨d, hd, rfl, rfl, by rw [if_pos rfl]; exact captureDR_selected d⟩
  · obtain ⟨d, hd, rfl⟩ := hmap _ h; exact ⟨d, hd, rfl, rfl, rfl⟩
  · obtain ⟨d, r, hd, hr, rfl⟩ := hzip _ _ h
    refine ⟨d, hd, rfl, rfl, ?_⟩
    have hl := shiftSerial_lengths (rs := ds.map (·.drShift)) (by
      intro r hr; obtain ⟨x, hx, rfl⟩ := List.mem_map.mp hr; exact hne x hx) b
    have := congrArg (·[j]?) hl
    simp only [List.getElem?_map, hr, hd, Option.map_some] at this
    exact Option.some.inj this
  · obtain ⟨d, r, hd, -, rfl⟩ := hzip _ _ h; exact ⟨d, hd, rfl, rfl, rfl⟩
  · exact ⟨d', h, rfl, rfl, by rw [if_neg (by assumption)]⟩

/-- What entering a state does to one device. -/
theorem onEntry_getElem? {s : TapState} {ds : List RefDevice} {j : Nat} {d' : RefDevice}
    (h : (onEntry s ds)[j]? = some d') :
    ∃ d, ds[j]? = some d ∧ paramsOf d' = paramsOf d ∧ d'.drShift = d.drShift ∧
      (s ∈ dataShiftStates → d'.irLatch = d.irLatch) := by
  have hmap : ∀ f : RefDevice → RefDevice, (ds.map f)[j]? = some d' → ∃ d, ds[j]? = some d ∧ f d = d' := by
    intro f h
    rw [List.getElem?_map] at h
    cases hd : ds[j]? with
    | none => rw [hd] at h; cases h
    | some d => rw [hd] at h; exact ⟨d, rfl, Option.some.inj h⟩
  unfold onEntry at h
  split at h
  · obtain ⟨d, hd, rfl⟩ := hmap _ h; exact ⟨d, hd, rfl, rfl, fun h => absurd h (by decide)⟩
  · obtain ⟨d, hd, rfl⟩ := hmap _ h; exact ⟨d, hd, rfl, rfl, fun h => absurd h (by decide)⟩
  · exact ⟨d', h, rfl, rfl, fun _ => rfl⟩

theorem selectedLength_congr {d d' : RefDevice} (h : paramsOf d' = paramsOf d) (hl : d'.irLatch = d.irLatch) :
    selectedLength d' = selectedLength d := by
  obtain ⟨h1, h2, h3⟩ := Prod.mk.inj h |>.imp_right Prod.mk.inj
  unfold selectedLength selectsIdcode; rw [h2, h3, hl]

/-- R150, R152: every edge keeps a reference chain a reference chain. -/
theorem targetEdge_reference {opcodes : List BitSeq} {e : Edge} {t : Target} (h : ReferenceOk opcodes t) :
    ReferenceOk opcodes (targetEdge e t) := by
  have hok : TargetOk t := by
    intro ds hds d hd
    obtain ⟨j, hj⟩ := List.mem_iff_getElem?.mp hd
    exact (h ds hds j d hj).1
  intro ds' hds' j d' hj'
  refine ⟨targetEdge_ok (e := e) hok ds' hds' d' (List.mem_of_getElem? hj'), ?_⟩
  unfold targetEdge at hds' ⊢
  cases ht : t.devices with
  | none => rw [ht] at hds'; cases hds'
  | some ds =>
    rw [ht] at hds'
    obtain rfl := Option.some.inj hds'
    obtain ⟨d1, hj1, p1, s1, l1⟩ := onEntry_getElem? hj'
    obtain ⟨d, hj, p, l, s⟩ := loadOrShift_getElem? (fun x hx h0 => by
      have := (hok ds ht x hx).2.2.2.2; rw [h0] at this; simp at this) hj1
    obtain ⟨-, hop, hsel⟩ := h ds ht j d hj
    have hp := p1.trans p
    obtain ⟨q1, -, q3⟩ := Prod.mk.inj hp |>.imp_right Prod.mk.inj
    refine ⟨by rw [q3, q1, hop], fun hin => ?_⟩
    have hin : tapNext t.tap e.tms ∈ dataShiftStates := hin
    rw [s1, s, selectedLength_congr hp ((l1 hin).trans l)]
    by_cases hc : t.tap = .captureDR
    · rw [if_pos hc]
    · rw [if_neg hc]
      refine hsel ?_
      revert hin hc
      cases t.tap <;> cases e.tms <;> decide

theorem targetRun_reference {opcodes : List BitSeq} {es : List Edge} {t : Target} (h : ReferenceOk opcodes t) :
    ReferenceOk opcodes (targetRun es t) := by
  induction es generalizing t with
  | nil => exact h
  | cons e r ih => exact ih (targetEdge_reference h)

end Sys2Proof.Machine
end

