-- ==== Sys2Proof/Laws/Discovery.lean ====
section
/-! SUPPORT. Whole scans on the reference chain: what an instruction scan leaves in the latches (R144), what a data scan
captures (R154, R234), and one round of the discovery (R146, R147). -/

namespace Sys2Proof.Machine

/-! ### The three parts of a scan -/

/-- The edges of a scan up to the Shift state. -/
def scanApproach (eng : Engine) (p : ScanTarget) : List Edge :=
  recoveryEdges eng ++ edgesOf (tapPath (scanStart eng) (shiftOf p)) (zeros (tapPath (scanStart eng) (shiftOf p)).length)

/-- The edges of a scan from the Exit1 state on. -/
def scanSuffix (p : ScanTarget) (e : TapState) : List Edge :=
  edgesOf (tapPath (exit1Of p) e) (zeros (tapPath (exit1Of p) e).length)

theorem scanCommandEdges_parts (eng : Engine) (p : ScanTarget) {d : Direction} {n : Nat} (e : TapState) {b : BitSeq}
    (hd : d ≠ .reserved) (hb : includesWrite d = true → b.length = n) :
    scanCommandEdges eng p d n e b =
      scanApproach eng p ++ (edgesOf (bodyTms n) (bodyTdi d n b) ++ scanSuffix p e) := by
  have : (bodyTdi d n b).length = n := by cases d <;> simp_all [bodyTdi, includesWrite]
  unfold scanCommandEdges scanApproach scanSuffix scanTms scanTdi
  rw [List.append_assoc, List.append_assoc, List.append_assoc, edgesOf_append (by simp), edgesOf_append (by simp [this])]

/-- R222, R223: the approach leads to the Shift state. -/
theorem scanApproach_run (eng : Engine) (p : ScanTarget) {x : TapState}
    (hx : eng.ctrl.stateKnown = true → x = eng.ctrl.currentState) :
    tapRun x ((scanApproach eng p).map (·.tms)) = shiftOf p := by
  unfold scanApproach
  rw [List.map_append, edgesOf_tms (by simp), tapRun_append]
  have : tapRun x ((recoveryEdges eng).map (·.tms)) = scanStart eng := by
    unfold recoveryEdges scanStart
    cases hk : eng.ctrl.stateKnown
    · exact tapRun_ones_five x
    · exact hx hk
  rw [this, tapRun_tapPath]

/-! ### The body on a reference chain -/

theorem edgesOf_tdi {a x : BitSeq} (h : a.length = x.length) : (edgesOf a x).map (·.tdi) = x := by
  induction a generalizing x with
  | nil => cases x with | nil => rfl | cons _ _ => cases h
  | cons y a ih =>
    cases x with
    | nil => cases h
    | cons z x => simp only [edgesOf, List.zipWith_cons_cons, List.map_cons]; rw [← edgesOf, ih (by simpa using h)]

/-- R234: the body of a scan on a path of reference devices. -/
theorem body_shift (p : ScanTarget) {io : Interface} {ds : List RefDevice} {tdi : BitSeq} (h0 : tdi ≠ [])
    (ht : io.target = { tap := shiftOf p, devices := some ds }) (hne : ds ≠ []) (hr : ∀ d ∈ ds, pathRegister p d ≠ []) :
    (driveEdges (edgesOf (bodyTms tdi.length) tdi) io).1 = (serial p ds ++ tdi).take tdi.length ∧
      ∃ ds', (driveEdges (edgesOf (bodyTms tdi.length) tdi) io).2.target =
          { tap := exit1Of p, devices := some ds' } ∧
        serial p ds' = (serial p ds ++ tdi).drop tdi.length ∧
        ds'.map (fun d => (pathRegister p d).length) = ds.map (fun d => (pathRegister p d).length) ∧
        ds'.map (frameOf p) = ds.map (frameOf p) := by
  obtain ⟨m, hm⟩ : ∃ m, tdi.length = m + 1 := ⟨tdi.length - 1, by
    have : tdi.length ≠ 0 := by simpa using h0
    omega⟩
  have htms : (edgesOf (bodyTms tdi.length) tdi).map (·.tms) = zeros m ++ [true] := by
    rw [edgesOf_tms (by simp), hm, bodyTms_succ]
  have hes : ∀ e ∈ (edgesOf (bodyTms tdi.length) tdi).dropLast, e.tms = false := by
    intro e he
    have : e.tms ∈ ((edgesOf (bodyTms tdi.length) tdi).dropLast).map (·.tms) := List.mem_map_of_mem he
    rw [List.map_dropLast, htms, List.dropLast_concat] at this
    exact List.eq_of_mem_replicate this
  have hlast : (edgesOf (bodyTms tdi.length) tdi).getLast?.map (·.tms) = some true := by
    rw [← List.getLast?_map, htms]; simp
  have := shift_law p ht hne hr hes
  rw [hlast, if_pos rfl, edgesOf_tdi (by simp), edgesOf_length, bodyTms_length, Nat.min_self] at this
  exact this

/-! ### Instruction scans -/

/-- R155, R156: from Exit1-IR over Update-IR to Idle the latches take the shift registers. -/
theorem instructionSuffix (ds : List RefDevice) :
    targetRun (scanSuffix .instruction .idle) { tap := .exit1IR, devices := some ds } =
      { tap := .idle, devices := some (ds.map fun d => { d with irLatch := d.irShift }) } := rfl

theorem target_cases {t : Target} {x : TapState} {l : List (Nat × Option (BitVec 32) × BitSeq)} (h : t.tap = x)
    (hp : t.devices.map (·.map paramsOf) = some l) :
    ∃ ds, t = { tap := x, devices := some ds } ∧ ds.map paramsOf = l := by
  obtain ⟨tap, dev⟩ := t
  cases dev with
  | none => cases hp
  | some ds => cases h; exact ⟨ds, rfl, Option.some.inj hp⟩

theorem irLength_of_params {a b : List RefDevice} (h : a.map paramsOf = b.map paramsOf) :
    a.map (·.irLength) = b.map (·.irLength) := by
  have : ∀ l : List RefDevice, l.map (·.irLength) = (l.map paramsOf).map (·.1) := by
    intro l; rw [List.map_map]; rfl
  rw [this, this, h]

theorem serial_length (p : ScanTarget) (ds : List RefDevice) :
    (serial p ds).length = (ds.map fun d => (pathRegister p d).length).sum := by
  unfold serial; rw [List.length_flatMap]

/-- R144: an instruction scan of as many bits as the chain's instruction registers have, ending in Idle, from any
position the target agrees with, leaves the bits in the latches, in order. -/
theorem instructionScan {eng : Engine} {io : Interface} {ds : List RefDevice} {pl : BitSeq} (h0 : pl ≠ [])
    (ht : io.target.devices = some ds) (hx : eng.ctrl.stateKnown = true → io.target.tap = eng.ctrl.currentState)
    (hok : ∀ d ∈ ds, RefDeviceOk d) (hl : (ds.map (·.irLength)).sum = pl.length) :
    ∃ ds', targetRun (scanCommandEdges eng .instruction .write pl.length .idle pl) io.target =
        { tap := .idle, devices := some ds' } ∧
      ds'.map paramsOf = ds.map paramsOf ∧ (∀ d ∈ ds', RefDeviceOk d) ∧ (ds'.map (·.irLatch)).flatten = pl := by
  rw [scanCommandEdges_parts eng .instruction .idle (by decide) (fun _ => rfl), targetRun_append, targetRun_append]
  have hok0 : TargetOk io.target := by intro xs hxs; rw [ht] at hxs; cases hxs; exact hok
  obtain ⟨ds1, e1, p1⟩ := target_cases (t := targetRun (scanApproach eng .instruction) io.target)
    (x := .shiftIR) (l := ds.map paramsOf) (by rw [targetRun_tap]; exact scanApproach_run eng .instruction hx)
    (by rw [targetRun_params, ht]; rfl)
  have hok1 : ∀ d ∈ ds1, RefDeviceOk d := targetRun_ok hok0 ds1 (by rw [e1])
  rw [e1]
  have hne : ds1 ≠ [] := by
    rintro rfl
    have := irLength_of_params p1
    rw [← this] at hl
    exact h0 (List.eq_nil_of_length_eq_zero hl.symm)
  have hreg : ∀ d ∈ ds1, pathRegister .instruction d ≠ [] := by
    intro d hd h
    have := hok1 d hd
    have hs : d.irShift.length = d.irLength := this.2.2.1
    rw [show d.irShift = [] from h] at hs
    have := this.1
    simp at hs; omega
  have hlen : (serial .instruction ds1).length = pl.length := by
    rw [serial_length, ← hl, ← irLength_of_params p1]
    congr 1
    apply List.map_congr_left
    intro d hd; exact (hok1 d hd).2.2.1
  obtain ⟨-, ds2, e2, s2, -, f2⟩ := body_shift .instruction (io := { io with target := { tap := .shiftIR, devices := some ds1 } })
    h0 rfl hne hreg
  rw [(driveEdges_fields _ _).1] at e2
  have e2 : targetRun (edgesOf (bodyTms pl.length) (bodyTdi .write pl.length pl))
      { tap := .shiftIR, devices := some ds1 } = { tap := .exit1IR, devices := some ds2 } := e2
  have hok2 : ∀ d ∈ ds2, RefDeviceOk d := by
    have : TargetOk { tap := TapState.shiftIR, devices := some ds1 } := by intro xs hxs; cases hxs; exact hok1
    exact targetRun_ok this ds2 (by rw [e2])
  rw [e2, instructionSuffix]
  refine ⟨_, rfl, ?_, ?_, ?_⟩
  · rw [List.map_map]
    have hp2 := targetRun_params (edgesOf (bodyTms pl.length) (bodyTdi .write pl.length pl))
      { tap := .shiftIR, devices := some ds1 }
    rw [e2] at hp2
    exact (Option.some.inj hp2).trans p1
  · intro d hd
    obtain ⟨x, hx, rfl⟩ := List.mem_map.mp hd
    obtain ⟨a1, a2, a3, a4, a5⟩ := hok2 x hx
    exact ⟨a1, a2, a3, a3, a5⟩
  · rw [List.map_map]
    rw [List.drop_append, List.drop_eq_nil_of_le (by omega), hlen, Nat.sub_self] at s2
    rw [serial_eq_flatten] at s2
    exact s2

/-- R143, R144: registers that hold, one after another, ones, `b` and ones: the one at `b`'s place holds `b`, the
others ones. -/
theorem registers_of_payload {ls : List BitSeq} {i A B : Nat} {b y : BitSeq}
    (h : ls.flatten = ones A ++ b ++ ones B) (hA : A = ((ls.take i).map List.length).sum) (hy : ls[i]? = some y)
    (hb : y.length = b.length) {j : Nat} {z : BitSeq} (hz : ls[j]? = some z) :
    z = if j = i then b else ones z.length := by
  induction ls generalizing i j A with
  | nil => cases hy
  | cons r rs ih =>
    cases i with
    | zero =>
      obtain rfl : r = y := by simpa using hy
      simp only [List.take_zero, List.map_nil, List.sum_nil] at hA
      subst hA
      rw [List.flatten_cons, show ones 0 = [] from rfl, List.nil_append] at h
      obtain ⟨h1, h2⟩ := List.append_inj h hb
      cases j with
      | zero => rw [if_pos rfl]; exact (Option.some.inj hz).symm.trans h1
      | succ j =>
        rw [if_neg (by omega)]
        have hz : rs[j]? = some z := by simpa using hz
        have hm : z ∈ rs := List.mem_of_getElem? hz
        refine List.eq_replicate_iff.mpr ⟨rfl, fun x hx => ?_⟩
        have : x ∈ rs.flatten := List.mem_flatten.mpr ⟨z, hm, hx⟩
        rw [h2] at this
        exact List.eq_of_mem_replicate this
    | succ i =>
      simp only [List.take_succ_cons, List.map_cons, List.sum_cons] at hA
      have hsplit : ones A ++ b ++ ones B =
          ones r.length ++ (ones (((rs.take i).map List.length).sum) ++ b ++ ones B) := by
        rw [hA]; unfold ones; rw [List.replicate_add, List.append_assoc, List.append_assoc, List.append_assoc]
      rw [List.flatten_cons, hsplit] at h
      obtain ⟨h1, h2⟩ := List.append_inj h (by simp)
      cases j with
      | zero =>
        obtain rfl : r = z := by simpa using hz
        rw [if_neg (by omega)]; exact h1
      | succ j =>
        have := ih h2 rfl (by simpa using hy) (by simpa using hz)
        rw [this]
        by_cases hji : j = i
        · rw [if_pos hji, if_pos (by omega)]
        · rw [if_neg hji, if_neg (by omega)]; simp

/-- R144: the latches after an instruction scan of the payload for device `i` of the controller's chain. -/
theorem latches_of_payload {ch : List ChainDevice} {ds' : List RefDevice} {i : Nat} {d : ChainDevice} {b : BitSeq}
    (hch : ChainOk ch) (hd : ch[i]? = some d) (hb : b.length = d.irLength)
    (hlen : ds'.map (·.irLength) = ch.map (·.irLength)) (hok : ∀ x ∈ ds', RefDeviceOk x)
    (hf : (ds'.map (·.irLatch)).flatten = payloadFor d b) {j : Nat} {x : RefDevice} (hx : ds'[j]? = some x) :
    x.irLatch = if j = i then b else ones x.irLength := by
  have hp := recompute_eq_self.mp hch.1 i d hd
  have hlat : (ds'.map (·.irLatch)).map List.length = ch.map (·.irLength) := by
    rw [← hlen, List.map_map]
    exact List.map_congr_left fun x hx => (hok x hx).2.2.2.1
  have hA : d.bypassBeforeBits = (((ds'.map (·.irLatch)).take i).map List.length).sum := by
    rw [List.map_take, hlat, ← List.map_take, ← totalIr_eq_sum, ← hp]; rfl
  have hi : ∃ y, ds'[i]? = some y ∧ y.irLength = d.irLength := by
    have := congrArg (fun l => l[i]?) hlen
    simp only [List.getElem?_map, hd, Option.map_some] at this
    cases hy : ds'[i]? with
    | none => rw [hy] at this; cases this
    | some y => rw [hy] at this; exact ⟨y, rfl, Option.some.inj this⟩
  obtain ⟨y, hy, hyl⟩ := hi
  have hmem : y ∈ ds' := List.mem_of_getElem? hy
  have := registers_of_payload (ls := ds'.map (·.irLatch)) (i := i) (b := b) (y := y.irLatch) hf hA
    (by rw [List.getElem?_map, hy]; rfl) (by rw [(hok y hmem).2.2.2.1, hyl, hb]) (j := j) (z := x.irLatch)
    (by rw [List.getElem?_map, hx]; rfl)
  rw [this]
  by_cases hji : j = i
  · rw [if_pos hji, if_pos hji]
  · rw [if_neg hji, if_neg hji, (hok x (List.mem_of_getElem? hx)).2.2.2.1]

/-! ### Data scans from Idle -/

/-- R153, R154: from Idle over Capture-DR to Shift-DR the data registers are loaded. -/
theorem dataApproach (ds : List RefDevice) :
    targetRun (edgesOf (tapPath .idle .shiftDR) (zeros (tapPath .idle .shiftDR).length))
        { tap := .idle, devices := some ds } =
      { tap := .shiftDR, devices := some (ds.map fun d => { d with drShift := captureDR d }) } := rfl

theorem serial_captured (ds : List RefDevice) :
    serial .data (ds.map fun d => { d with drShift := captureDR d }) = ds.flatMap captureDR := by
  unfold serial; rw [List.flatMap_map]; rfl

/-- R147: the identifier in the bits of a chain in which one device is selected and the others are in BYPASS. -/
theorem identifierOf_captured {ds : List RefDevice} {i : Nat} {x : RefDevice} {v : BitVec 32} (hx : ds[i]? = some x)
    (hv : captureDR x = natToBits v.toNat 32) (ho : ∀ j y, ds[j]? = some y → j ≠ i → captureDR y = [false])
    (rest : BitSeq) : identifierOf i (ds.flatMap captureDR ++ rest) = v ∧
      (ds.flatMap captureDR).length = 31 + ds.length := by
  have hk : i < ds.length := by
    by_contra hk
    rw [List.getElem?_eq_none (Nat.not_lt.mp hk)] at hx; cases hx
  have hsplit : ds = ds.take i ++ x :: ds.drop (i + 1) := by
    have := List.getElem?_eq_some_iff.mp hx
    obtain ⟨h, rfl⟩ := this
    rw [List.cons_getElem_drop_succ, List.take_append_drop]
  have len1 : ∀ l : List RefDevice, (∀ y ∈ l, captureDR y = [false]) → (l.flatMap captureDR).length = l.length := by
    intro l hl
    induction l with
    | nil => rfl
    | cons a l ih =>
      rw [List.flatMap_cons, List.length_append, hl a List.mem_cons_self,
        ih fun y hy => hl y (List.mem_cons_of_mem _ hy), List.length_cons]
      simp; omega
  have hbefore : ∀ y ∈ ds.take i, captureDR y = [false] := by
    intro y hy
    obtain ⟨j, hj⟩ := List.mem_iff_getElem?.mp hy
    rw [List.getElem?_take] at hj
    split at hj
    · exact ho j y hj (by omega)
    · cases hj
  have hafter : ∀ y ∈ ds.drop (i + 1), captureDR y = [false] := by
    intro y hy
    obtain ⟨j, hj⟩ := List.mem_iff_getElem?.mp hy
    rw [List.getElem?_drop] at hj
    exact ho _ y hj (by omega)
  have hb := len1 _ hbefore
  have ha := len1 _ hafter
  rw [List.length_take, Nat.min_eq_left hk.le] at hb
  rw [List.length_drop] at ha
  have hfm : ds.flatMap captureDR =
      (ds.take i).flatMap captureDR ++ (natToBits v.toNat 32 ++ (ds.drop (i + 1)).flatMap captureDR) := by
    conv => lhs; rw [hsplit]
    rw [List.flatMap_append, List.flatMap_cons, hv]
  refine ⟨?_, ?_⟩
  · unfold identifierOf slice
    have h32 : Config.idcodeBits = 32 := rfl
    rw [hfm, List.append_assoc, List.append_assoc, List.drop_left' hb, h32, Nat.add_sub_cancel_left,
      List.take_left' (natToBits_length _ _), bitsToNat_natToBits, Nat.mod_eq_of_lt v.isLt]
    simp
  · rw [hfm, List.length_append, List.length_append, hb, natToBits_length, ha]; omega

/-! ### One round of the discovery -/

theorem buildPayload_ok {i : Nat} {b : BitSeq} {e : Engine} {d : ChainDevice} (hd : e.ctrl.chain[i]? = some d)
    (hb : b.length = d.irLength) : buildPayload i b e = (.ok (payloadFor d b), e) := by
  unfold buildPayload; rw [hd]; dsimp only; rw [if_pos hb]

/-- R148: a device already discovered, or no device, is passed over. -/
theorem discoverOne_skip {i : Nat} {e : Engine} (h : ∀ d, e.ctrl.chain[i]? = some d → d.idcode.isSome = true) :
    discoverOne i e = (.ok (), e) := by
  unfold discoverOne
  cases hd : e.ctrl.chain[i]? with
  | none => rfl
  | some d => dsimp only; rw [if_pos (h d hd)]

/-- R146: a round of the discovery, where the device has no identifier. -/
theorem discoverOne_eq {i : Nat} {e : Engine} {d : ChainDevice} (hd : e.ctrl.chain[i]? = some d) (hn : d.idcode = none) :
    discoverOne i e =
      andThen (scanCore .instruction .write (totalIr e.ctrl.chain) .idle
          (payloadFor d (idcodeOpcodeOf e.io.opcodes i d.irLength)))
        (fun _ => andThen (scanCore .data .read (Config.idcodeBits + e.ctrl.chain.length - 1) .idle []) fun out =>
          update (setIdcode i (identifierOf i out))) e := by
  unfold discoverOne
  rw [hd]
  dsimp only
  rw [if_neg (by rw [hn]; decide), andThen_ok (buildPayload_ok hd (idcodeOpcodeOf_length _ _ _))]

/-- R146: the edges of a round, as those of its two scans, the recovery included. -/
theorem discoveryRound_eq (e : Engine) (i : Nat) (d : ChainDevice) (io' : Interface) :
    recoveryEdges e ++ discoveryRound e.io.opcodes e.ctrl.chain (scanStart e) i d =
      scanCommandEdges e .instruction .write (totalIr e.ctrl.chain) .idle
          (payloadFor d (idcodeOpcodeOf e.io.opcodes i d.irLength)) ++
        scanCommandEdges (scanDone .idle io' e) .data .read (Config.idcodeBits + e.ctrl.chain.length - 1) .idle [] :=
  (List.append_assoc _ _ _).symm

/-- R146, R229: the engine that a discovery leaves when a scan of a round whose edges are `all` ends in the error
`k`. -/
def RoundFailed (all : List Edge) (k : ErrKind) (e e' : Engine) : Prop :=
  ∃ es t frozen, es <+: all ∧ Drives es e.io e'.io ∧
    e'.ctrl = { e.ctrl with currentState := t, stateKnown := false, chainFrozen := frozen } ∧
      (e.ctrl.chainFrozen = true ∨ k = .timeoutError ∨ k = .busFault → frozen = true)

/-- R146, R148: everything a round of the discovery can do. -/
theorem discoverOne_cases (i : Nat) {e : Engine} (hl : LimitOk e.io) :
    (discoverOne i e = (.ok (), e) ∧ ∀ d, e.ctrl.chain[i]? = some d → d.idcode.isSome = true) ∨
      ∃ d, e.ctrl.chain[i]? = some d ∧ d.idcode = none ∧
        ((∃ v io', discoverOne i e = (.ok (), setIdcode i v (scanDone .idle io' e)) ∧
            Drives (recoveryEdges e ++ discoveryRound e.io.opcodes e.ctrl.chain (scanStart e) i d) e.io io') ∨
          (∃ k e', discoverOne i e = (.err k, e') ∧
            RoundFailed (recoveryEdges e ++ discoveryRound e.io.opcodes e.ctrl.chain (scanStart e) i d) k e e') ∨
            ∃ x e', discoverOne i e = (.stop x, e')) := by
  by_cases hs : ∀ d, e.ctrl.chain[i]? = some d → d.idcode.isSome = true
  · exact .inl ⟨discoverOne_skip hs, hs⟩
  push Not at hs
  obtain ⟨d, hd, hn⟩ := hs
  have hn : d.idcode = none := by simpa using hn
  rw [discoverOne_eq hd hn]
  refine .inr ⟨d, hd, hn, ?_⟩
  have hck : ∀ {k : ErrKind}, k = .invalidArgument ∨ k = .unsupportedOperation → ¬(k = .timeoutError ∨ k = .busFault) := by
    rintro k (rfl | rfl) <;> simp
  rcases scanCore_cases .instruction (d := .write) (by decide) (totalIr e.ctrl.chain) .idle
      (payloadFor d (idcodeOpcodeOf e.io.opcodes i d.irLength)) e hl with
    ⟨o1, io1, -, d1, h1, -⟩ | ⟨k, g, h1, hf⟩ | ⟨x, g, h1⟩
  · rw [discoveryRound_eq e i d io1]
    rcases scanCore_cases .data (d := .read) (by decide) (Config.idcodeBits + e.ctrl.chain.length - 1) .idle []
        (scanDone .idle io1 e) (by intro m hm; exact hl m (by rw [← d1.spec]; exact hm)) with
      ⟨o2, io2, -, d2, h2, -⟩ | ⟨k, g, h2, hf⟩ | ⟨x, g, h2⟩
    · exact .inl ⟨identifierOf i o2, io2, by rw [andThen_ok h1, andThen_ok h2]; rfl, drives_trans d1 d2⟩
    · refine .inr (.inl ⟨k, g, by rw [andThen_ok h1, andThen_err h2], ?_⟩)
      rcases hf with ⟨-, rfl, -⟩ | ⟨-, es, t, hp, dr, hc⟩
      · exact ⟨_, .idle, true, List.prefix_append _ _, d1, rfl, fun _ => rfl⟩
      · exact ⟨_, t, true, (List.prefix_append_right_inj _).mpr hp, drives_trans d1 dr, hc, fun _ => rfl⟩
    · exact .inr (.inr ⟨x, g, by rw [andThen_ok h1, andThen_stop h2]⟩)
  · rw [discoveryRound_eq e i d e.io]
    refine .inr (.inl ⟨k, g, andThen_err h1, ?_⟩)
    rcases hf with ⟨-, rfl, hk⟩ | ⟨-, es, t, hp, dr, hc⟩
    · refine ⟨[], e.ctrl.currentState, e.ctrl.chainFrozen, List.nil_prefix, drives_refl _, rfl, ?_⟩
      rintro (h | h)
      · exact h
      · exact absurd h (hck hk)
    · exact ⟨es, t, true, hp.trans (List.prefix_append _ _), dr, hc, fun _ => rfl⟩
  · exact .inr (.inr ⟨x, g, andThen_stop h1⟩)

/-- R146: a round of the discovery where the backend serves. -/
theorem discoverOne_completes {i : Nat} {e : Engine} {d : ChainDevice} (hd : e.ctrl.chain[i]? = some d)
    (hn : d.idcode = none) (hl : LimitOk e.io) (hf : Serves e.io) (hch : ChainOk e.ctrl.chain)
    (h1 : overLimit e.io.backend.spec.maxScan (totalIr e.ctrl.chain) = false)
    (h2 : overLimit e.io.backend.spec.maxScan (31 + e.ctrl.chain.length) = false) :
    ∃ io1 io2 pl, pl = payloadFor d (idcodeOpcodeOf e.io.opcodes i d.irLength) ∧
      Drives (scanCommandEdges e .instruction .write pl.length .idle pl) e.io io1 ∧
      Drives (scanCommandEdges (scanDone .idle io1 e) .data .read (31 + e.ctrl.chain.length) .idle []) io1 io2 ∧
      Serves io2 ∧
      discoverOne i e =
        (.ok (), setIdcode i
          (identifierOf i (slice 3 (3 + (31 + e.ctrl.chain.length))
            (driveEdges (scanCommandEdges (scanDone .idle io1 e) .data .read (31 + e.ctrl.chain.length) .idle [])
              io1).1)) (scanDone .idle io2 e)) := by
  have hpl := payloadFor_length hch hd (idcodeOpcodeOf_length e.io.opcodes i d.irLength)
  have hpos : totalIr e.ctrl.chain ≠ 0 := by
    have := totalIr_split hd
    have := hch.2 d (List.mem_of_getElem? hd)
    omega
  have hn1 : Config.idcodeBits + e.ctrl.chain.length - 1 = 31 + e.ctrl.chain.length := by
    have : Config.idcodeBits = 32 := rfl
    omega
  obtain ⟨io1, e1, d1, f1, -⟩ := scanCore_completes .instruction (d := .write) (by decide) (n := totalIr e.ctrl.chain)
    (e := .idle) (b := payloadFor d (idcodeOpcodeOf e.io.opcodes i d.irLength)) (eng := e) hl hf
    ⟨hpos, rfl, fun _ => hpl, h1⟩
  obtain ⟨io2, e2, d2, f2, -⟩ := scanCore_completes .data (d := .read) (by decide) (n := 31 + e.ctrl.chain.length)
    (e := .idle) (b := []) (eng := scanDone .idle io1 e) (by intro m hm; exact hl m (by rw [← d1.spec]; exact hm)) f1
    ⟨by omega, rfl, fun h => absurd h (by decide), by
      rw [show (scanDone .idle io1 e).io.backend.spec = e.io.backend.spec from d1.spec]; exact h2⟩
  refine ⟨io1, io2, _, rfl, by rw [hpl]; exact d1, d2, f2, ?_⟩
  rw [discoverOne_eq hd hn, andThen_ok e1, hn1, andThen_ok e2]
  rfl

end Sys2Proof.Machine
end

