-- ==== Sys2Proof/Laws/Enabled.lean ====
section
/-! SUPPORT. R201, D37: on a backend that has ENABLE and is disabled, an operation of the frame other than `enable` and
`disable` calls no primitive: it runs to an answer and leaves the interface as it was. -/

namespace Sys2Proof.Machine

/-- A computation on the interface makes no call while the backend may not be called. -/
def QuietIo {α : Type} (p : Prim α) : Prop := ∀ io, ¬Usable io → (p io).2 = io ∧ ∀ x, (p io).1 ≠ .stop x

/-- A computation on the engine makes no call while the backend may not be called. -/
def Quiet {α : Type} (m : Body α) : Prop := ∀ e, ¬Usable e.io → (m e).2.io = e.io ∧ ∀ x, (m e).1 ≠ .stop x

/-! ### What the combinators keep -/

theorem quietIo_whenEnabled {α : Type} (p : Prim α) : QuietIo (whenEnabled p) := fun io hu => by
  rw [whenEnabled_disabled p hu]; exact ⟨rfl, by simp⟩

theorem quietIo_done {α : Type} (a : α) : QuietIo (done a) := fun _ _ => ⟨rfl, by simp⟩

theorem quietIo_andThen {α β : Type} {m : Prim α} {f : α → Prim β} (hm : QuietIo m) (hf : ∀ a, QuietIo (f a)) :
    QuietIo (andThen m f) := by
  intro io hu
  have ⟨h1, h2⟩ := hm io hu
  rcases andThen_cases m f io with ⟨a, io', e, e'⟩ | ⟨k, io', e, e'⟩ | ⟨x, io', e, e'⟩ <;> rw [e] at h1 h2 <;> rw [e']
  · cases h1; exact hf a _ hu
  · exact ⟨h1, by simp⟩
  · exact absurd rfl (h2 x)

theorem quiet_done {α : Type} (a : α) : Quiet (done a) := fun _ _ => ⟨rfl, by simp⟩

theorem quiet_check (c : Bool) (k : ErrKind) : Quiet (check c k) := by cases c <;> exact fun _ _ => ⟨rfl, by simp⟩

theorem quiet_needCap (c : Capability) : Quiet (needCap c) := fun e hu => quiet_check _ _ e hu

theorem quiet_update {f : Engine → Engine} (h : ∀ e, (f e).io = e.io) : Quiet (update f) := fun e _ => ⟨h e, by simp⟩

theorem quiet_andThen {α β : Type} {m : Body α} {f : α → Body β} (hm : Quiet m) (hf : ∀ a, Quiet (f a)) :
    Quiet (andThen m f) := by
  intro e hu
  have ⟨h1, h2⟩ := hm e hu
  rcases andThen_cases m f e with ⟨a, e1, he, he'⟩ | ⟨k, e1, he, he'⟩ | ⟨x, e1, he, he'⟩ <;> rw [he] at h1 h2 <;> rw [he']
  · have ⟨h3, h4⟩ := hf a e1 (by rw [h1]; exact hu)
    exact ⟨h3.trans h1, h4⟩
  · exact ⟨h1, by simp⟩
  · exact absurd rfl (h2 x)

theorem quiet_callBackend {α : Type} {p : Prim α} (h : QuietIo p) : Quiet (callBackend p) := fun e hu => h e.io hu

theorem quiet_clearOnError {α : Type} {m : Body α} (hm : Quiet m) : Quiet (clearOnError m) := by
  intro e hu
  have h := hm e hu
  unfold clearOnError
  rcases hm : m e with ⟨a | k | x, e'⟩ <;> rw [hm] at h
  · exact h
  · exact ⟨h.1, by simp⟩
  · exact h

theorem quiet_clearOnFault {α : Type} {m : Body α} (hm : Quiet m) : Quiet (clearOnFault m) := by
  intro e hu
  have h := hm e hu
  unfold clearOnFault
  rcases hm : m e with ⟨a | k | x, e'⟩ <;> rw [hm] at h
  · exact h
  · cases k <;> exact ⟨h.1, by simp⟩
  · exact h

/-! ### The primitives -/

theorem quietIo_transferPrim (m d : BitSeq) (n : Nat) : QuietIo (transferPrim m d n) := by
  intro io hu
  rcases transferPrim_cases m d n io with ⟨k, h, -⟩ | ⟨-, -, -, -, hu', -⟩
  · rw [h]; exact ⟨rfl, by simp⟩
  · exact absurd hu' hu

theorem quietIo_sendRanges (m d : BitSeq) : ∀ rs : List (Nat × Nat), QuietIo (sendRanges m d rs)
  | [] => quietIo_done _
  | (_, _) :: rs => quietIo_andThen (quietIo_transferPrim _ _ _) fun _ =>
      quietIo_andThen (quietIo_sendRanges m d rs) fun _ => quietIo_done _

theorem quietIo_navTransfer (tms : BitSeq) : QuietIo (navTransfer tms) :=
  fun io hu => quietIo_andThen (quietIo_sendRanges _ _ _) (fun _ => quietIo_done _) io hu

/-! ### Bodies -/

theorem quiet_hardReset : Quiet hardReset :=
  quiet_andThen (quiet_callBackend (quietIo_transferPrim _ _ _)) fun _ => quiet_update fun _ => rfl

theorem quiet_recover : Quiet recover :=
  fun e hu => by
    unfold recover; split
    · exact ⟨rfl, by simp⟩
    · exact quiet_hardReset e hu

theorem quiet_scanCore (p : ScanTarget) (d : Direction) (n : Nat) (e : TapState) (b : BitSeq) :
    Quiet (scanCore p d n e b) := by
  refine quiet_clearOnError (quiet_andThen ?_ fun _ => quiet_andThen (quiet_update fun _ => rfl) fun _ =>
    quiet_andThen quiet_recover fun _ => ?_)
  · exact quiet_andThen (quiet_check _ _) fun _ => quiet_andThen (quiet_check _ _) fun _ =>
      quiet_andThen (quiet_check _ _) fun _ g hg => quiet_check _ _ g hg
  · intro g hg
    exact quiet_andThen (quiet_callBackend (quietIo_sendRanges _ _ _)) (fun _ =>
      quiet_andThen (quiet_update (f := setCurrent e) fun _ => rfl) fun _ => quiet_done _) g hg

theorem quiet_buildPayload (i : Nat) (b : BitSeq) : Quiet (buildPayload i b) := by
  intro e _
  unfold buildPayload
  split
  · exact ⟨rfl, by simp⟩
  · split <;> exact ⟨rfl, by simp⟩

theorem quiet_discoverOne (i : Nat) : Quiet (discoverOne i) := by
  intro e hu
  unfold discoverOne
  split
  · exact ⟨rfl, by simp⟩
  · split
    · exact ⟨rfl, by simp⟩
    · exact quiet_andThen (quiet_buildPayload _ _) (fun _ => quiet_andThen (quiet_scanCore _ _ _ _ _) fun _ =>
        quiet_andThen (quiet_scanCore _ _ _ _ _) fun _ => quiet_update (f := setIdcode _ _) fun _ => rfl) e hu

theorem quiet_discoverAll : ∀ is : List Nat, Quiet (discoverAll is)
  | [] => quiet_done _
  | i :: is => quiet_andThen (quiet_discoverOne i) fun _ => quiet_discoverAll is

theorem quiet_setState (t : TapState) (f : Bool) : Quiet (setStateBody t f) := by
  intro e hu
  unfold setStateBody
  refine quiet_andThen (quiet_check _ _) (fun _ => quiet_andThen (quiet_clearOnError ?_) fun _ =>
    quiet_andThen (quiet_update (f := setKnown t) fun _ => rfl) fun _ => quiet_done _) e hu
  split
  · exact quiet_callBackend (quietIo_whenEnabled _)
  · refine quiet_andThen ?_ fun _ g hg => quiet_callBackend (quietIo_navTransfer _) g hg
    split
    · exact quiet_hardReset
    · exact quiet_done _

/-- What comes after a call of `freqSet` is not reached. -/
theorem quiet_afterFreqSet {α : Type} (hz : Nat) (f : Nat → Body α) : Quiet (andThen (callBackend (freqSetPrim hz)) f) := by
  intro e hu
  rw [andThen_err (k := .busFault) (s' := e) (by unfold callBackend; rw [freqSetPrim_disabled hz hu])]
  exact ⟨rfl, by simp⟩

/-- R201: every operation in the frame but `enable` and `disable` is a command whose body calls no primitive of a
disabled backend. -/
theorem takesLock_quiet {i : Instr} (h : i.takesLock = true) (he : i ≠ .enable) (hd : i ≠ .disable) :
    ∃ b, (∀ s, exec i s = command b s) ∧ Quiet b := by
  cases i <;> first | (cases h; done) | skip
  · exact ⟨_, fun _ => rfl, fun _ _ => ⟨rfl, by simp [getFrequencyBody]⟩⟩
  · exact ⟨_, fun _ => rfl, quiet_andThen (quiet_needCap _) fun _ => quiet_andThen (quiet_check _ _) fun _ =>
      quiet_afterFreqSet _ _⟩
  · exact ⟨_, fun _ => rfl, fun _ _ => ⟨rfl, by simp [getStateBody]⟩⟩
  · exact ⟨_, fun _ => rfl, quiet_setState _ _⟩
  · exact ⟨_, fun _ => rfl, quiet_andThen (quiet_check _ _) fun _ =>
      quiet_andThen (quiet_scanCore _ _ _ _ _) fun _ => quiet_done _⟩
  · refine ⟨_, fun _ => rfl, quiet_andThen (quiet_needCap _) fun _ =>
      quiet_andThen (quiet_clearOnError (quiet_callBackend (quietIo_whenEnabled _))) fun _ =>
        quiet_andThen (quiet_update fun e => ?_) fun _ => quiet_done _⟩
    unfold trackEdge; split <;> rfl
  · exact ⟨_, fun _ => rfl, fun e hu => quiet_andThen (quiet_check _ _) (fun _ => quiet_andThen (quiet_check _ _) fun _ =>
      quiet_andThen (quiet_update (f := growChain _) fun _ => rfl) fun _ => quiet_done _) e hu⟩
  · exact ⟨_, fun _ => rfl, quiet_andThen (quiet_buildPayload _ _) fun _ => quiet_done _⟩
  · exact ⟨_, fun _ => rfl, fun e hu => quiet_andThen (quiet_discoverAll _) (fun _ =>
      quiet_andThen (quiet_clearOnError quiet_recover) fun _ => quiet_done _) e hu⟩
  · refine ⟨_, fun _ => rfl, fun e _ => ?_⟩
    unfold dataPaddingBody; split <;> exact ⟨rfl, by simp⟩
  · exact ⟨_, fun _ => rfl, quiet_andThen (quiet_clearOnFault (quiet_callBackend (quietIo_transferPrim _ _ _)))
      fun _ => quiet_done _⟩
  · exact ⟨_, fun _ => rfl, quiet_andThen (quiet_needCap _) fun _ =>
      quiet_andThen (quiet_clearOnFault (quiet_callBackend (quietIo_whenEnabled _))) fun _ => quiet_done _⟩
  · exact ⟨_, fun _ => rfl, quiet_andThen (quiet_needCap _) fun _ =>
      quiet_andThen (quiet_callBackend (quietIo_whenEnabled _)) fun _ => quiet_done _⟩
  · exact ⟨_, fun _ => rfl, quiet_andThen (quiet_needCap _) fun _ => quiet_andThen (quiet_check _ _) fun _ =>
      quiet_afterFreqSet _ _⟩
  · exact ⟨_, fun _ => rfl, quiet_andThen (quiet_needCap _) fun _ =>
      quiet_andThen (quiet_callBackend (quietIo_whenEnabled _)) fun _ => quiet_done _⟩
  · exact ⟨_, fun _ => rfl, quiet_andThen (quiet_needCap _) fun _ =>
      quiet_andThen (quiet_clearOnFault (quiet_callBackend (quietIo_whenEnabled _))) fun _ => quiet_done _⟩
  · exact absurd rfl he
  · exact absurd rfl hd
  · exact ⟨_, fun _ => rfl, fun _ _ => ⟨rfl, by simp [supportsBody]⟩⟩
  · exact ⟨_, fun _ => rfl, quiet_done _⟩
  · exact ⟨_, fun _ => rfl, quiet_done _⟩
  · exact ⟨_, fun _ => rfl, quiet_andThen (quiet_clearOnError quiet_hardReset) fun _ => quiet_done _⟩
  · exact ⟨_, fun _ => rfl, quiet_done _⟩

/-! ### What the edge-driving operations answer -/

/-- R201, R342: the hard reset of a disabled backend is not called. -/
theorem hardReset_disabled {e : Engine} (hu : ¬Usable e.io) (hl : LimitOk e.io) :
    hardReset e = (.err .busFault, e) := by
  have hlim : overLimit (maxTransferBits e.io.backend.spec) Config.hardResetEdges = false :=
    overLimit_false.mpr fun m hm => (by decide : Config.hardResetEdges ≤ 6).trans (hl m hm)
  unfold hardReset
  rw [andThen_err (k := .busFault) (s' := e)]
  unfold callBackend
  rw [transferPrim_disabled (n := Config.hardResetEdges) hu (by decide) rfl rfl hlim]

/-- R201, R231: the first piece of a sequence is not sent to a disabled backend. -/
theorem sendRanges_disabled {tms tdi : BitSeq} (hlen : tms.length = tdi.length) {rs : List (Nat × Nat)} {lo hi : Nat}
    {io : Interface} (hu : ¬Usable io) (hadj : Adjacent lo rs hi) (hne : lo ≠ hi) (hhi : hi ≤ tms.length)
    (hlim : ∀ r ∈ rs, overLimit (maxTransferBits io.backend.spec) (r.2 - r.1) = false) :
    sendRanges tms tdi rs io = (.err .busFault, io) := by
  cases rs with
  | nil => exact absurd hadj hne
  | cons r rs =>
    obtain ⟨a, b⟩ := r
    obtain ⟨rfl, hab, hr⟩ := hadj
    have := adjacent_le hr
    unfold sendRanges
    exact andThen_err (transferPrim_disabled hu (by omega) (slice_length _ _ _ (by omega))
      (slice_length _ _ _ (by omega)) (hlim (a, b) List.mem_cons_self))

/-- R201, R263, R307: an accepted scan on a disabled backend freezes the chain, ends in `BusFault` and forgets the
position. -/
theorem scanCore_disabled (p : ScanTarget) {d : Direction} (hd : d ≠ .reserved) {n : Nat} {e : TapState} {b : BitSeq}
    {eng : Engine} (hu : ¬Usable eng.io) (hl : LimitOk eng.io) (ha : ScanAccepted eng.io p d n e b) :
    scanCore p d n e b eng = (.err .busFault, clearKnown (freezeChain eng)) := by
  rcases scanChecks_cases p d n e b eng with ⟨-, hc⟩ | ⟨k, -, hn, -⟩
  swap
  · exact absurd ha hn
  have : andThen (scanChecks p d n e b) (fun _ => andThen (update freezeChain) fun _ =>
      andThen recover fun _ => scanEdges p d n e b) eng = (.err .busFault, freezeChain eng) := by
    rw [andThen_ok hc]
    show andThen recover _ (freezeChain eng) = _
    cases hk : eng.ctrl.stateKnown
    · rw [andThen_err]
      unfold recover
      simp only [freezeChain, hk]
      exact hardReset_disabled hu hl
    · rw [andThen_ok (a := ()) (s' := freezeChain eng) (by unfold recover; simp only [freezeChain, hk]; rfl)]
      unfold scanEdges
      dsimp only
      rw [andThen_err (k := .busFault) (s' := freezeChain eng)]
      unfold callBackend
      rw [sendRanges_disabled (io := (freezeChain eng).io)
        (scanTdi_length _ p (d := d) (n := n) e (b := b) hd ha.2.2.1).symm hu
        (partition_adjacent (suffix_length ha.2.1).1 (fun m h => by have := hl m h; omega))
        (by have := ha.1; omega) (by simp)
        (partition_limit hl (tapPath_shiftOf_length_le _ _) (suffix_length ha.2.1).2)]
  unfold scanCore clearOnError
  rw [this]

end Sys2Proof.Machine
end

