-- ==== Sys2Proof/Laws/PerInstr.lean ====
section
/-! SUPPORT. Statements about every operation as syntax, one lemma for each constructor. -/

namespace Sys2Proof.Laws.OpcodeByte

open Sys2Proof Sys2Proof.Machine

/-- R86, R87: the record of an operation begins with the operation code of its row, which the decoder knows. -/
def Statement (i : Instr) : Prop :=
  (encode i).head?.map (·.toNat) = some (opcodeOf i) ∧ opcodeOf i ∈ listedCodes ∧ (operandsOf (opcodeOf i)).isSome = true

theorem getFrequency : Statement .getFrequency :=
  ⟨rfl, by simp [opcodeOf, listedCodes], rfl⟩

theorem setFrequency (hz : Nat) : Statement (.setFrequency hz) :=
  ⟨rfl, by simp [opcodeOf, listedCodes], rfl⟩

theorem getState : Statement .getState :=
  ⟨rfl, by simp [opcodeOf, listedCodes], rfl⟩

theorem setState (target : TapState) (forceReset : Bool) : Statement (.setState target forceReset) :=
  ⟨rfl, by simp [opcodeOf, listedCodes], rfl⟩

theorem executeScan (target : ScanTarget) (direction : Direction) (bitLength : Nat) (endState : TapState)
    (inputBits : BitSeq) : Statement (.executeScan target direction bitLength endState inputBits) :=
  ⟨rfl, by simp [opcodeOf, listedCodes], rfl⟩

theorem rawEdge (modeBit dataInBit : Bool) : Statement (.rawEdge modeBit dataInBit) :=
  ⟨rfl, by simp [opcodeOf, listedCodes], rfl⟩

theorem addDevice (irLength : Nat) : Statement (.addDevice irLength) :=
  ⟨rfl, by simp [opcodeOf, listedCodes], rfl⟩

theorem buildInstructionPayload (targetIndex : Nat) (instructionBits : BitSeq) : Statement (.buildInstructionPayload targetIndex instructionBits) :=
  ⟨rfl, by simp [opcodeOf, listedCodes], rfl⟩

theorem discoverIdentifiers : Statement .discoverIdentifiers :=
  ⟨rfl, by simp [opcodeOf, listedCodes], rfl⟩

theorem dataPadding (targetIndex : Nat) : Statement (.dataPadding targetIndex) :=
  ⟨rfl, by simp [opcodeOf, listedCodes], rfl⟩

theorem attach (layout : List Nat) (backend : BackendSpec) : Statement (.attach layout backend) :=
  ⟨rfl, by simp [opcodeOf, listedCodes], rfl⟩

theorem detach : Statement .detach :=
  ⟨rfl, by simp [opcodeOf, listedCodes], rfl⟩

theorem transfer (modeBits dataInBits : BitSeq) (bitLength : Nat) : Statement (.transfer modeBits dataInBits bitLength) :=
  ⟨rfl, by simp [opcodeOf, listedCodes], rfl⟩

theorem edge (modeBit dataInBit : Bool) : Statement (.edge modeBit dataInBit) :=
  ⟨rfl, by simp [opcodeOf, listedCodes], rfl⟩

theorem freqGet : Statement .freqGet :=
  ⟨rfl, by simp [opcodeOf, listedCodes], rfl⟩

theorem freqSet (hz : Nat) : Statement (.freqSet hz) :=
  ⟨rfl, by simp [opcodeOf, listedCodes], rfl⟩

theorem stateGet : Statement .stateGet :=
  ⟨rfl, by simp [opcodeOf, listedCodes], rfl⟩

theorem stateSet (target : TapState) (forceReset : Bool) : Statement (.stateSet target forceReset) :=
  ⟨rfl, by simp [opcodeOf, listedCodes], rfl⟩

theorem enable : Statement .enable :=
  ⟨rfl, by simp [opcodeOf, listedCodes], rfl⟩

theorem disable : Statement .disable :=
  ⟨rfl, by simp [opcodeOf, listedCodes], rfl⟩

theorem supports (cap : BitVec 3) : Statement (.supports cap) :=
  ⟨rfl, by simp [opcodeOf, listedCodes], rfl⟩

theorem next (state : TapState) (bit : Bool) : Statement (.next state bit) :=
  ⟨rfl, by simp [opcodeOf, listedCodes], rfl⟩

theorem path (source target : TapState) : Statement (.path source target) :=
  ⟨rfl, by simp [opcodeOf, listedCodes], rfl⟩

theorem hardReset : Statement .hardReset :=
  ⟨rfl, by simp [opcodeOf, listedCodes], rfl⟩

theorem run (state : TapState) (bits : BitSeq) : Statement (.run state bits) :=
  ⟨rfl, by simp [opcodeOf, listedCodes], rfl⟩

end Sys2Proof.Laws.OpcodeByte
end

