-- ==== Sys2Proof/Machine/Pseudo.lean ====
section
/-! DEFINITION. The pseudo-commands of 30_encoding.md R94: each expands to commands of R87 and has no meaning of its
own. Those built on `buildInstructionPayload` have no expansion where that rejects its operands (R143). -/

namespace Sys2Proof.Machine

/-- R94 `hardReset()`. -/
def pseudoHardReset : Instr := .setState .reset true

/-- R94 `goIdle()`. -/
def pseudoGoIdle : Instr := .setState .idle false

/-- R94 `readDR(n, end)`. -/
def pseudoReadDR (n : Nat) (e : TapState) : Instr := .executeScan .data .read n e []

/-- R94 `writeDR(bits, end)`. -/
def pseudoWriteDR (bits : BitSeq) (e : TapState) : Instr := .executeScan .data .write bits.length e bits

/-- R94 `bypassAll(end)`. -/
def pseudoBypassAll (chain : List ChainDevice) (e : TapState) : Instr :=
  .executeScan .instruction .write (totalIr chain) e (ones (totalIr chain))

/-- R143: the payload where the operands are admitted. -/
def payloadIfAny (chain : List ChainDevice) (i : Nat) (bits : BitSeq) : Option BitSeq :=
  match chain[i]? with
  | some d => if bits.length = d.irLength then some (payloadFor d bits) else none
  | none => none

/-- R94 `scanIR(i, bits, end)`. -/
def pseudoScanIR (chain : List ChainDevice) (i : Nat) (bits : BitSeq) (e : TapState) : Option Instr :=
  (payloadIfAny chain i bits).map fun pl => .executeScan .instruction .write (totalIr chain) e pl

/-- R94 `scanIRrw(i, bits, end)`. -/
def pseudoScanIRrw (chain : List ChainDevice) (i : Nat) (bits : BitSeq) (e : TapState) : Option Instr :=
  (payloadIfAny chain i bits).map fun pl => .executeScan .instruction .readWrite (totalIr chain) e pl

end Sys2Proof.Machine
end

