-- ==== Sys2Proof/Tests/Slice0.lean ====
section
/-! SUPPORT. The model's own tests. Records are written out by hand from R80, R83, R87 and log entry 2; expected results
are the vectors of 95_test_vectors.md (named in the comments) or are worked out by hand from the rules. The last part
shows, for every statement with hypotheses, operands and a state that meet them. -/

namespace Sys2Proof.Tests

open Sys2Proof Sys2Proof.Machine

/-! ### Well-formedness: each check refuses a term that breaks it -/

def plainBackend : BackendSpec := { variant := .bulk none, caps := 0x01#8, maxScan := none, rate := 1 }

theorem test_wf_plain : (Instr.attach [4] plainBackend).wf = true := by decide

/-- R8: `MAX_TRANSFER_BITS` is at least 6. -/
theorem test_wf_limit_five : (Instr.attach [] { plainBackend with variant := .bulk (some 5) }).wf = false ∧
    (Instr.attach [] { plainBackend with variant := .accelerated (some 5) }).wf = false ∧
    (Instr.attach [] { plainBackend with variant := .bulk (some 6) }).wf = true := by decide

/-- R8: `MAX_SCAN_BITS` is at least 1. -/
theorem test_wf_max_scan_zero : (Instr.attach [] { plainBackend with maxScan := some 0 }).wf = false ∧
    (Instr.attach [] { plainBackend with maxScan := some 1 }).wf = true := by decide

/-- R22: the rate is at least 1. -/
theorem test_wf_rate_zero : (Instr.attach [] { plainBackend with rate := 0 }).wf = false := by decide

/-- R204: an admitted bitbang backend has RAW_EDGE and not STATE; a mask that is not admitted is left to the attach. -/
theorem test_wf_bitbang : (Instr.attach [] { plainBackend with variant := .bitbang }).wf = false ∧
    (Instr.attach [] { plainBackend with variant := .bitbang, caps := 0x0F#8 }).wf = false ∧
    (Instr.attach [] { plainBackend with variant := .bitbang, caps := 0x0B#8 }).wf = true ∧
    (Instr.attach [] { plainBackend with variant := .bitbang, caps := 0x00#8 }).wf = true ∧
    (Instr.attach [] { plainBackend with variant := .bitbang, caps := 0x21#8 }).wf = true := by decide

/-! ### Decoding: a record written out by hand for every operation -/

theorem test_decode_commands : decode [0x01#8] = .ok .getFrequency ∧ decode [0x02#8, 0x03#8] = .ok (.setFrequency 1) ∧
    decode [0x03#8] = .ok .getState ∧ decode [0x04#8, 0x10#8] = .ok (.setState .reset true) ∧
    decode [0x06#8, 0x01#8] = .ok (.rawEdge true false) := by decide

/-- Data, write, 4, Idle, `"1101"`: bits 1 00 1010110 1000 1010110 1101. -/
theorem test_decode_scan : decode [0x05#8, 0xa9#8, 0x45#8, 0x6d#8, 0x01#8] =
    .ok (.executeScan .data .write 4 .idle [true, true, false, true]) := by decide

/-- `addDevice(4)`: bits 1010110. Payload: 110 1010110 0100. -/
theorem test_decode_chain : decode [0x10#8, 0x35#8] = .ok (.addDevice 4) ∧
    decode [0x11#8, 0xab#8, 0x09#8] = .ok (.buildInstructionPayload 1 [false, true, false, false]) ∧
    decode [0x12#8] = .ok .discoverIdentifiers ∧ decode [0x13#8, 0x0d#8] = .ok (.dataPadding 2) := by decide

/-- A layout of one device of 4 bits, mask 0x0B, bitbang, no scan limit, rate 1: bits 110 1010110 11010000 10 0 0. -/
theorem test_decode_attach : decode [0x20#8, 0xab#8, 0x2d#8, 0x04#8] =
    .ok (.attach [4] { variant := .bitbang, caps := 0x0B#8, maxScan := none, rate := 1 }) ∧
    decode [0x21#8] = .ok .detach := by decide

/-- `transfer("10", "01", 2)`: bits 10110 10 10110 01 10110. -/
theorem test_decode_backend : decode [0x30#8, 0xad#8, 0x66#8, 0x03#8] = .ok (.transfer [true, false] [false, true] 2) ∧
    decode [0x31#8, 0x02#8] = .ok (.edge false true) ∧ decode [0x32#8] = .ok .freqGet ∧
    decode [0x33#8, 0x0d#8] = .ok (.freqSet 2) ∧ decode [0x34#8] = .ok .stateGet ∧
    decode [0x35#8, 0x1d#8] = .ok (.stateSet .pauseIR true) ∧ decode [0x36#8] = .ok .enable ∧
    decode [0x37#8] = .ok .disable ∧ decode [0x38#8, 0x02#8] = .ok (.supports 2#3) := by decide

/-- `run(Idle, "100")`: bits 1000 11110 100. -/
theorem test_decode_functions : decode [0x40#8, 0x12#8] = .ok (.next .selectDR true) ∧
    decode [0x41#8, 0xb1#8] = .ok (.path .idle .shiftIR) ∧ decode [0x42#8] = .ok .hardReset ∧
    decode [0x43#8, 0xf1#8, 0x02#8] = .ok (.run .idle [true, false, false]) := by decide

/-- R87, R91: unlisted codes and malformed records are rejected by name. -/
theorem test_decode_rejects : decode [] = .error .truncated ∧ decode [0x00#8] = .error (.unknownOperation 0) ∧
    decode [0x44#8] = .error (.unknownOperation 0x44) ∧ decode [0x04#8] = .error .truncated ∧
    decode [0x20#8, 0x02#8, 0x06#8] = .error .reservedVariant ∧
    decode [0x20#8, 0x02#8, 0x02#8] = .error .illFormedBackend := by decide

/-- R91: a bitbang backend with mask 0 is decoded, so that the attach refuses it: bits 0 00000000 10 0 0. -/
theorem test_decode_mask_zero : decode [0x20#8, 0x00#8, 0x02#8] =
    .ok (.attach [] { variant := .bitbang, caps := 0x00#8, maxScan := none, rate := 1 }) ∧
    exec (.attach [] { variant := .bitbang, caps := 0x00#8, maxScan := none, rate := 1 }) State.reset =
      .refused .capabilityMask := ⟨by decide, rfl⟩

/-! ### Small states -/

/-- A backend bound and, where it has ENABLE, enabled, with its bookkeeping at `pos`. -/
def backendAt (v : Variant) (caps : BitVec 8) (pos : TapState) : Backend :=
  { freshBackend { variant := v, caps := caps, maxScan := some 64, rate := 1000000 } 0 with
    enabled := caps.getLsbD 4
    book := pos }

/-- A controller at `pos` on that backend, with the target chain there too, and `IDCODE_OPCODE` its devices' own. -/
def at_ (v : Variant) (caps : BitVec 8) (pos : TapState) (layout : List Nat) (ds : Option (List RefDevice)) : State :=
  { State.reset with
    ctrl := { State.reset.ctrl with currentState := pos, stateKnown := true, chain := chainOfLayout layout }
    io :=
      { State.reset.io with
        backend := backendAt v caps pos
        target := { tap := pos, devices := ds }
        drawn := 0
        opcodes := (ds.getD []).map (·.op) } }

/-- The device of 2.6: `dev(4, 0xABCD1234, "0100")` holding its identification instruction. -/
def dev1 : RefDevice :=
  { irLength := 4
    idc := some 0xABCD1234#32
    op := [false, true, false, false]
    irShift := zeros 4
    irLatch := [false, true, false, false]
    drShift := zeros 32 }

/-- A device without identifier, in BYPASS. -/
def dev0 (n : Nat) : RefDevice :=
  { irLength := n, idc := none, op := ones n, irShift := zeros n, irLatch := ones n, drShift := [false] }

def bitbang : State := at_ .bitbang 0x0B#8 .idle [4] (some [dev1])

def accel : State := at_ (.accelerated none) 0x17#8 .idle [4] (some [dev1])

def bulk : State := at_ (.bulk (some 8)) 0x01#8 .idle [4] (some [dev1])

/-- The state with this outcome of the next backend call. -/
def facing (d : BackendDraw) (s : State) : State := { s with io := { s.io with outcomes := [d] } }

/-- The state with the position not known. -/
def lost (s : State) : State := { s with ctrl := { s.ctrl with stateKnown := false } }

/-- The state an outcome reaches. -/
def reached : Host.Outcome State Fault Refusal → Option State
  | .next s => some s
  | _ => none

/-- What the caller got. -/
def answered (o : Host.Outcome State Fault Refusal) : Option (Option (CallerId × Result)) :=
  (reached o).map (·.results.getLast?)

/-- The mode bits of all edges driven. -/
def driven (o : Host.Outcome State Fault Refusal) : Option BitSeq :=
  (reached o).map fun s => (wireEdges s.io).map (·.tms)

/-- The position and whether it is known. -/
def position (o : Host.Outcome State Fault Refusal) : Option (TapState × Bool) :=
  (reached o).map fun s => (s.ctrl.currentState, s.ctrl.stateKnown)

def bits (s : String) : BitSeq := s.toList.map (· == '1')

/-! ### One step of each operation -/

/-- FSM-04, PATH-02, RUN-04. -/
theorem test_functions : answered (exec (.next .idle true) bitbang) = some (some (0, .tap .selectDR)) ∧
    answered (exec (.path .idle .shiftIR) bitbang) = some (some (0, .bits (bits "1100"))) ∧
    answered (exec (.run .shiftDR (bits "10")) bitbang) = some (some (0, .tap .pauseDR)) := by decide

/-- CTL-01, CTL-02. -/
theorem test_reads : answered (exec .getState (lost bitbang)) = some (some (0, .unknown)) ∧
    answered (exec .getFrequency bitbang) = some (some (0, .hz 1000000)) := by decide

/-- CTL-04. -/
theorem test_set_state : driven (exec (.setState .pauseIR false) bitbang) = some (bits "11010") ∧
    position (exec (.setState .pauseIR false) bitbang) = some (.pauseIR, true) := by decide

/-- CTL-06, CTL-03. -/
theorem test_set_state_checks : answered (exec (.setState .captureDR false) bitbang) =
      some (some (0, .error .invalidArgument)) ∧
    driven (exec (.setState .idle false) (lost bitbang)) = some (bits "111110") := by decide

/-- CTL-11: the sequence in two transfers. -/
theorem test_set_state_chunks :
    (reached (exec (.setState .pauseIR false) (at_ (.bulk (some 6)) 0x01#8 .shiftDR [4] (some [dev1])))).map
      (fun s => s.io.wire.map (·.map (·.tms))) = some [bits "111101", bits "0"] := by decide

/-- CTL-12. -/
theorem test_set_state_fails : answered (exec (.setState .pauseDR false) (facing (.fails 2) bitbang)) =
      some (some (0, .error .busFault)) ∧
    driven (exec (.setState .pauseDR false) (facing (.fails 2) bitbang)) = some (bits "10") ∧
    (position (exec (.setState .pauseDR false) (facing (.fails 2) bitbang))).map (·.2) = some false := by decide

/-- SCAN-01. -/
theorem test_scan_identifier : answered (exec (.executeScan .data .read 32 .idle []) bitbang) =
    some (some (0, .bits (bits "00101100010010001011001111010101"))) := by decide

/-- SCAN-02: one bit. -/
theorem test_scan_one_bit : driven (exec (.executeScan .data .readWrite 1 .idle [true]) bitbang) =
      some (bits "100110") ∧
    answered (exec (.executeScan .data .readWrite 1 .idle [true]) bitbang) = some (some (0, .bits [false])) := by decide

/-- SCAN-08: three devices in BYPASS. -/
theorem test_scan_bypass : answered (exec (.executeScan .data .readWrite 8 .idle (bits "11010010"))
      (at_ .bitbang 0x0B#8 .reset [4, 8, 4] (some [dev0 4, dev0 8, dev0 4]))) =
    some (some (0, .bits (bits "00011010"))) := by decide

/-- SCAN-E2, SCAN-E6: the flag after a rejection. -/
theorem test_scan_rejected : position (exec (.executeScan .data .read 8 .pauseIR []) bitbang) = some (.idle, false) ∧
    position (exec (.executeScan .data .reserved 8 .idle []) bitbang) = some (.idle, true) := by decide

/-- SCAN-FRAG-1. -/
theorem test_scan_fragments :
    (reached (exec (.executeScan .data .write 20 .idle (bits "10101010101010101010")) bulk)).map
      (fun s => s.io.wire.map (·.map (·.tms))) =
    some [bits "100", bits "00000000", bits "000000", bits "00000110"] := by decide

/-- SCAN-FRAG-2. -/
theorem test_partition_reset : partition 3 20 4 (some 8) = [(0, 3), (3, 11), (11, 19), (19, 27)] := by decide

/-- R267: the position follows the edge. -/
theorem test_raw_edge : position (exec (.rawEdge true false) bitbang) = some (.selectDR, true) ∧
    answered (exec (.rawEdge true false) bulk) = some (some (0, .error .unsupportedOperation)) := by decide

/-- CTL-13: the half period. -/
theorem test_set_frequency : halfPeriodOf 1000000 = 500 ∧ halfPeriodOf 3000000 = 167 ∧ halfPeriodOf 7000000 = 72 ∧
    answered (exec (.setFrequency 0) bitbang) = some (some (0, .error .unsupportedOperation)) := by decide

/-- CH-01. -/
theorem test_add_device :
    (chainOfLayout [4, 8, 4]).map (fun d => (d.bypassBeforeBits, d.bypassAfterBits)) = [(0, 12), (4, 4), (12, 0)] ∧
    totalIr (chainOfLayout [4, 8, 4]) = 16 ∧
    answered (exec (.addDevice 0) bitbang) = some (some (0, .error .invalidArgument)) := by decide

/-- CH-03, CH-06. -/
theorem test_payload : answered (exec (.buildInstructionPayload 1 (bits "01000000"))
      (at_ .bitbang 0x0B#8 .idle [4, 8, 4] none)) = some (some (0, .bits (bits "1111010000001111"))) ∧
    answered (exec (.buildInstructionPayload 3 (bits "0100")) (at_ .bitbang 0x0B#8 .idle [4, 8, 4] none)) =
      some (some (0, .error .invalidArgument)) := by decide

/-- CH-10, CH-11. -/
theorem test_data_padding : answered (exec (.dataPadding 2) (at_ .bitbang 0x0B#8 .idle [4, 8, 4] none)) =
      some (some (0, .padding 2 0)) ∧
    answered (exec (.dataPadding 3) (at_ .bitbang 0x0B#8 .idle [4, 8, 4] none)) =
      some (some (0, .error .invalidArgument)) := by decide

set_option maxRecDepth 20000 in
/-- R146, R147 on the device of 2.6. -/
theorem test_discovery :
    (reached (exec .discoverIdentifiers
      bitbang)).map
      (fun s => s.ctrl.chain.map (·.idcode)) = some [some 0xABCD1234#32] := by decide

/-- The position lost, with every identifier written. -/
def discovered : State := lost { bitbang with toEngine := setIdcode 0 5#32 bitbang.toEngine }

/-- R277, R308, D11: with nothing to discover and the position not known, the hard reset is all. -/
theorem test_discovery_reset : driven (exec .discoverIdentifiers discovered) = some (bits "11111") ∧
    position (exec .discoverIdentifiers discovered) = some (.reset, true) ∧
    answered (exec .discoverIdentifiers discovered) = some (some (0, .ack)) := by decide

/-- CH-15, with the position known; and R277, D11, log entry 10 with it not known. -/
theorem test_discovery_empty : driven (exec .discoverIdentifiers (at_ .bitbang 0x0B#8 .idle [] none)) = some [] ∧
    answered (exec .discoverIdentifiers (at_ .bitbang 0x0B#8 .idle [] none)) = some (some (0, .ack)) ∧
    driven (exec .discoverIdentifiers (lost (at_ .bitbang 0x0B#8 .idle [] none))) = some (bits "11111") := by decide

/-- R270, R204. -/
theorem test_attach :
    (reached (exec (.attach [4, 8] { plainBackend with variant := .bitbang, caps := 0x0B#8, rate := 3000000 })
      bulk)).map (fun s => (s.ctrl.frequencyHz, s.io.backend.halfPeriodNs, s.ctrl.stateKnown)) =
    some (3000000, 167, false) ∧
    exec (.attach [] { plainBackend with caps := 0x21#8 }) bulk = .refused .capabilityMask := by
  refine ⟨by decide, rfl⟩

/-- R271: the waiting caller gets `InvalidArgument`. -/
theorem test_detach :
    (reached (exec .detach
      { accel with ctrl := { accel.ctrl with lock := { accel.ctrl.lock with waiters := [7] } } })).map
      (fun s => (s.results, s.ctrl.attached, s.io.backend.enabled)) =
    some ([(7, .error .invalidArgument), (0, .nothing)], false, false) := by decide

/-- TR-01, TR-03. -/
theorem test_transfer : (reached (exec (.transfer (bits "100") (bits "000") 3) bitbang)).map (·.io.target.tap) =
      some .shiftDR ∧
    answered (exec (.transfer (bits "10") (bits "0") 2) bitbang) = some (some (0, .error .invalidArgument)) := by decide

/-- TR-04 on a limit of 8. -/
theorem test_transfer_limit : answered (exec (.transfer (ones 9) (zeros 9) 9) bulk) =
      some (some (0, .error .unsupportedOperation)) ∧
    (answered (exec (.transfer (ones 8) (zeros 8) 8) bulk)).map (·.map (·.1)) = some (some 0) := by decide

/-- TR-18. -/
theorem test_edge : (reached (exec (.edge true false) bitbang)).map (·.io.target.tap) = some .selectDR := by decide

/-- R202, R307: an edge that fails undelivered. -/
theorem test_edge_fails : position (exec (.edge true false) (facing (.fails 0) bitbang)) = some (.idle, false) ∧
    driven (exec (.edge true false) (facing (.fails 0) bitbang)) = some [] ∧
    driven (exec (.edge true false) (facing (.fails 1) bitbang)) = some [true] := by decide

/-- R199: no capability, no rate. -/
theorem test_freq : answered (exec .freqGet bitbang) = some (some (0, .hz 1000000)) ∧
    answered (exec (.freqSet 5) bulk) = some (some (0, .error .unsupportedOperation)) := by decide

/-- TR-07, TR-08. -/
theorem test_state_set : driven (exec (.stateSet .idle true) accel) = some (bits "111110") ∧
    (reached (exec (.stateSet .pauseIR false) accel)).map (·.io.backend.book) = some .pauseIR := by decide

/-- R200, R201. -/
theorem test_state_get : answered (exec .stateGet accel) = some (some (0, .tap .idle)) ∧
    (reached (exec .disable accel)).map (·.io.backend.enabled) = some false ∧
    (reached (exec .enable { accel with io := { accel.io with backend := { accel.io.backend with enabled := false } } })).map
      (·.io.backend.enabled) = some true := by decide

/-- TR-09, TR-10. -/
theorem test_supports : answered (exec (.supports 2#3) bitbang) = some (some (0, .bit false)) ∧
    answered (exec (.supports 3#3) bitbang) = some (some (0, .bit true)) ∧
    answered (exec (.supports 2#3) accel) = some (some (0, .bit true)) ∧
    answered (exec (.supports 3#3) accel) = some (some (0, .bit false)) := by decide

/-- R116. -/
theorem test_hard_reset : driven (exec .hardReset (lost bitbang)) = some (bits "11111") ∧
    position (exec .hardReset (lost bitbang)) = some (.reset, true) := by decide

/-- TR-12. -/
theorem test_pack : pack 8 (bits "1011000011") = [0x0D, 0x03] ∧ unpack 8 [0x0D, 0x03] 10 = bits "1011000011" := by decide

/-- R91: an unlisted code, fetched. -/
theorem test_step_rejects : (reached (step (issue 3 [0xff#8] bitbang))).map (·.results) =
    some [(3, .error .invalidArgument)] := by decide

/-- R94: `bypassAll`. -/
theorem test_pseudo : pseudoBypassAll (chainOfLayout [4, 8, 4]) .idle =
    .executeScan .instruction .write 16 .idle (ones 16) := by decide

/-! ### Operands and states that meet the hypotheses of the statements -/

/-- The premises of a command where the backend serves. -/
abbrev Normal (s : State) : Prop := Ready s ∧ Serves s.io ∧ LimitOk s.io ∧ Synced s.toEngine

theorem limit_bitbang : LimitOk bitbang.io := by intro m hm; cases hm

theorem limit_bulk : LimitOk bulk.io := by intro m hm; cases hm; decide

theorem test_normal_bitbang : Normal bitbang :=
  ⟨by decide, by decide, limit_bitbang, by decide⟩

theorem test_normal_accel : Normal accel :=
  ⟨by decide, by decide, (by intro m hm; cases hm), by decide⟩

theorem test_normal_bulk : Normal bulk := ⟨by decide, by decide, limit_bulk, by decide⟩

theorem test_normal_lost : Normal (lost bitbang) := ⟨by decide, by decide, limit_bitbang, by decide⟩

theorem test_witness_PathIsTheShortest : Ready bitbang ∧ tapRun .idle (bits "0100") = .shiftDR := by decide

theorem test_witness_CanonicalPathLaws : ScanTarget.data ≠ .instruction ∧ TapState.pauseDR = pauseOf .data := by decide

theorem test_witness_FiveOnesReachReset : ∀ s, tapRun s (ones 5) = .reset := by intro s; cases s <;> decide

theorem test_witness_NavigationPassesUpdate : TapState.shiftDR ∈ segment .data ∧
    tapRun .shiftDR (bits "11") ∉ segment .data := by decide

theorem test_witness_DecodeInvertsEncode : (Instr.attach [4, 8] State.resetBackend).wf = true := by decide

theorem test_witness_DecodedIsWellFormed : decode [0x42#8] = .ok .hardReset := by decide

theorem test_witness_RejectedRecords : (0x07#8 : Byte).toNat ∉ listedCodes ∧
    (fetch (issue 0 [0x07#8] bitbang)).1 = some [0x07#8] ∧ decode [0x07#8] = .error (.unknownOperation 7) := by decide

theorem test_witness_StepRunsTheDecodedOperation :
    requestOf 0 (bitbang.withFetchWord 8 0x42) = some { caller := 0, record := 0x42#8 :: List.replicate 16 0#8 } ∧
    (bitbang.withFetchWord 8 0x42).turns = [.move 0 .run] ∧
    decode (0x42#8 :: List.replicate 16 0#8) = .ok .hardReset := by decide

theorem test_witness_StepRunsTheDefault : (issue 2 [0x03#8] bitbang).turns = [] ∧
    defaultRequest (issue 2 [0x03#8] bitbang) = some { caller := 2, record := [0x03#8] } ∧
    decode [0x03#8] = .ok .getState := by decide

theorem test_witness_IdleSteps : State.reset.inbox = [] ∧
    ({ bitbang with turns := [.lateCompletion] } : State).turns = [.lateCompletion] := by decide

theorem test_witness_RecomputeGivesPadding : recompute (chainOfLayout [4, 8, 4]) = chainOfLayout [4, 8, 4] ∧
    ∃ d, d ∈ chainOfLayout [4, 8, 4] := ⟨by decide, _, List.mem_cons_self⟩

/-- A frozen chain. -/
def frozen : State := { bitbang with ctrl := { bitbang.ctrl with chainFrozen := true } }

theorem test_witness_AddDevice : (Ready bitbang ∧ (1 : Nat) ≠ 0 ∧ bitbang.ctrl.chainFrozen = false) ∧
    (Ready frozen ∧ frozen.ctrl.chainFrozen = true) := by decide

theorem test_witness_Payload : ∃ d, Ready bitbang ∧ bitbang.ctrl.chain[0]? = some d ∧ (bits "0100").length = d.irLength ∧
    (∀ x, bitbang.ctrl.chain[0]? = some x → (bits "010").length ≠ x.irLength) ∧
    (∀ x, bitbang.ctrl.chain[1]? = some x → (bits "0100").length ≠ x.irLength) ∧
    recompute bitbang.ctrl.chain = bitbang.ctrl.chain :=
  ⟨_, by decide, rfl, rfl, (by intro x hx; cases hx; decide), (by intro x hx; cases hx), by decide⟩

theorem test_witness_DataPadding : 0 < bitbang.ctrl.chain.length ∧ bitbang.ctrl.chain.length ≤ 1 := by decide

theorem test_witness_Discovery : Normal (lost bitbang) ∧ ChainOk bitbang.ctrl.chain ∧
    overLimit bitbang.io.backend.spec.maxScan (totalIr bitbang.ctrl.chain) = false ∧
    overLimit bitbang.io.backend.spec.maxScan (31 + bitbang.ctrl.chain.length) = false ∧
    (∃ d ∈ bitbang.ctrl.chain, d.idcode = none) ∧ Normal discovered ∧
    (∀ d ∈ discovered.ctrl.chain, d.idcode.isSome = true) ∧ discovered.ctrl.stateKnown = false :=
  ⟨test_normal_lost, by decide, by decide, by decide, by decide, ⟨by decide, by decide, limit_bitbang, by decide⟩,
    by decide, rfl⟩

theorem test_witness_ChainIsAppendOnly : ∃ t, (∀ layout b, Instr.addDevice 4 ≠ .attach layout b) ∧
    exec (.addDevice 4) bitbang = .next t ∧ ∃ u, exec .hardReset frozen = .next u :=
  ⟨_, by simp, rfl, _, rfl⟩

/-- The target in Shift-DR. -/
def shifting : State := at_ .bitbang 0x0B#8 .shiftDR [4] (some [dev1])

theorem test_witness_ShiftLaw : bits "1" ≠ [] ∧
    shifting.io.target = { tap := shiftOf .data, devices := some [dev1] } ∧ [dev1] ≠ [] ∧
    ∀ d ∈ [dev1], pathRegister .data d ≠ [] := by decide

theorem test_witness_PayloadReaches : ∃ d, Normal bitbang ∧ ChainOk bitbang.ctrl.chain ∧ TargetIs [dev1] bitbang ∧
    (∀ x ∈ [dev1], RefDeviceOk x) ∧ [dev1].map (·.irLength) = bitbang.ctrl.chain.map (·.irLength) ∧
    bitbang.ctrl.chain[0]? = some d ∧ (bits "0100").length = d.irLength ∧
    overLimit bitbang.io.backend.spec.maxScan (totalIr bitbang.ctrl.chain) = false :=
  ⟨_, test_normal_bitbang, by decide, by decide, by decide, by decide, rfl, rfl, by decide⟩

/-- A chain of two devices, one without identifier, with `IDCODE_OPCODE` given. -/
def pair : State := at_ .bitbang 0x0B#8 .idle [4, 2] (some [dev1, dev0 2])

theorem reference_pair : ReferenceOk pair.io.opcodes pair.io.target := by
  intro ds hds j d hj
  obtain rfl : [dev1, dev0 2] = ds := Option.some.inj hds
  match j with
  | 0 => obtain rfl : dev1 = d := Option.some.inj hj; decide
  | 1 => obtain rfl : dev0 2 = d := Option.some.inj hj; decide
  | j + 2 => cases hj

theorem test_witness_RoundTrip : ∃ d, Normal pair ∧ ChainOk pair.ctrl.chain ∧ TargetIs [dev1, dev0 2] pair ∧
    ReferenceOk pair.io.opcodes pair.io.target ∧
    [dev1, dev0 2].map (·.irLength) = pair.ctrl.chain.map (·.irLength) ∧
    (∀ x ∈ [dev1, dev0 2], x.idc.isSome = true → x.op ≠ ones x.irLength) ∧
    overLimit pair.io.backend.spec.maxScan (totalIr pair.ctrl.chain) = false ∧
    overLimit pair.io.backend.spec.maxScan (31 + pair.ctrl.chain.length) = false ∧
    pair.ctrl.chain[0]? = some d ∧ dev1.idc = some 0xABCD1234#32 ∧ d.idcode = none :=
  ⟨_, ⟨by decide, by decide, (by intro m hm; cases hm), by decide⟩, by decide, by decide, reference_pair, by decide,
    by decide, by decide, by decide, rfl, rfl, rfl⟩

theorem test_witness_Transfer : Ready bulk ∧ Serves bulk.io ∧
    overLimit (maxTransferBits bulk.io.backend.spec) 8 = false ∧
    overLimit (maxTransferBits bulk.io.backend.spec) 9 = true := by decide

theorem test_witness_TransferFailures : nextOutcome (facing (.fails 0) bulk).io = .fails 0 ∧
    nextOutcome (facing (.timesOut 1) bulk).io = .timesOut 1 ∧
    (facing (.timesOut 1) bulk).io.backend.spec.variant ≠ .bitbang ∧
    nextOutcome (facing (.timesOut 1) bitbang).io = .timesOut 1 ∧
    (facing (.timesOut 1) bitbang).io.backend.spec.variant = .bitbang ∧ Ready (facing (.fails 0) bulk) := by decide

theorem test_witness_TransfersCompose : Serves bulk.io ∧ bits "1" ≠ [] ∧ bits "0000000" ≠ [] ∧
    overLimit (maxTransferBits bulk.io.backend.spec) ((bits "1").length + (bits "0000000").length) = false := by decide

theorem test_witness_Bursts : ∃ t out, exec (.transfer (bits "1") (bits "0") 1) bulk = .next t ∧
    t.results = bulk.results ++ [(bulk.caller, .bits out)] := ⟨_, _, rfl, rfl⟩

theorem test_witness_Edge : Ready bitbang ∧ Serves bitbang.io ∧
    hasCap bitbang.io.backend.spec .rawEdge = true ∧ hasCap bitbang.io.backend.spec .freq = true ∧
    nextOutcome (facing (.fails 0) bitbang).io = .fails 0 ∧ nextOutcome (facing .refuses bitbang).io = .refuses ∧
    (facing .refuses bitbang).io.backend.spec.variant = .bitbang ∧ nextOutcome (facing .refuses accel).io = .refuses ∧
    (facing .refuses accel).io.backend.spec.variant ≠ .bitbang := by decide

theorem test_witness_StatePrimitives : Ready accel ∧ Serves accel.io ∧ NoFailure accel.io ∧
    hasCap accel.io.backend.spec .state = true ∧ hasCap accel.io.backend.spec .enable = true ∧
    nextOutcome (facing (.fails 0) accel).io = .fails 0 ∧ tapPath accel.io.backend.book .idle = [] ∧
    tapPath accel.io.backend.book .pauseDR ≠ [] ∧ nextOutcome (facing (.timesOut 2) accel).io = .timesOut 2 ∧
    accel.io.backend.spec.variant ≠ .bitbang := by decide

theorem test_witness_Supports : (5#3 : BitVec 3).toNat ≥ 5 ∧ maskAdmitted plainBackend.caps = true ∧
    State.resetBackend.caps = defaultCaps .bitbang := by decide

theorem test_witness_Absent : Ready bulk ∧ hasCap bulk.io.backend.spec .rawEdge = false ∧ hasCap bulk.io.backend.spec .freq = false ∧
    hasCap bulk.io.backend.spec .state = false ∧ hasCap bulk.io.backend.spec .enable = false := by decide

/-- A disabled backend. -/
def disabled : State := { accel with io := { accel.io with backend := { accel.io.backend with enabled := false } } }

/-- R201, log entry 12: a transfer on a disabled backend drives no edge; its own checks come first. -/
theorem test_disabled_transfer : driven (exec (.transfer (bits "100") (bits "000") 3) disabled) = some [] ∧
    answered (exec (.transfer (bits "100") (bits "000") 3) disabled) = some (some (0, .error .busFault)) ∧
    (position (exec (.transfer (bits "100") (bits "000") 3) disabled)).map (·.2) = some false ∧
    answered (exec (.transfer (bits "100") (bits "000") 2) disabled) = some (some (0, .error .invalidArgument)) := by
  decide

/-- R201, log entry 12: nor do a read of the rate and a scan; enabled again, the scan runs. -/
theorem test_disabled_scan : answered (exec .freqGet disabled) = some (some (0, .error .busFault)) ∧
    (reached (exec (.executeScan .data .read 1 .idle []) disabled)).map
      (fun s => (s.io.wire, s.ctrl.chainFrozen, s.ctrl.stateKnown)) = some ([], true, false) ∧
    (answered (exec (.executeScan .data .read 1 .idle []) accel)) = some (some (0, .bits [false])) := by decide

/-- A disabled backend with RAW_EDGE, FREQ and ENABLE and no STATE. -/
def disabledRaw : State :=
  let s := at_ (.bulk none) 0x1B#8 .idle [4] (some [dev1])
  { s with io := { s.io with backend := { s.io.backend with enabled := false } } }

theorem test_witness_DisabledBackend : (Ready disabled ∧ ¬Usable disabled.io ∧ LimitOk disabled.io ∧
      overLimit (maxTransferBits disabled.io.backend.spec) (bits "1").length = false ∧
      hasCap disabled.io.backend.spec .freq = true ∧ hasCap disabled.io.backend.spec .state = true ∧
      ScanAccepted disabled.io .data .write 1 .idle [true]) ∧
    Ready disabledRaw ∧ ¬Usable disabledRaw.io ∧ hasCap disabledRaw.io.backend.spec .rawEdge = true ∧
      hasCap disabledRaw.io.backend.spec .state = false ∧ setStateBits disabledRaw.toEngine .idle false = [] ∧
      setStateBits disabledRaw.toEngine .pauseDR false ≠ [] :=
  ⟨⟨by decide, by decide, (by intro m hm; cases hm), by decide⟩, by decide⟩

/-- R194, R185: a timeout is a completion not signalled, a success a completion signalled. -/
theorem test_completion : (reached (exec (.transfer (bits "1") (bits "0") 1) (facing (.timesOut 0) accel))).map
      (·.io.backend.regs.completion) = some false ∧
    (reached (exec (.transfer (bits "1") (bits "0") 1) accel)).map (·.io.backend.regs.completion) = some true := by decide

theorem test_witness_WordPacking : (bits "101")[2]? = some true ∧ (pack 1 (bits "101"))[2 / 1]? = some 1 ∧
    (1 : Nat).testBit (2 % 1) = true := by decide

theorem test_witness_BitbangNeverTimesOut : ∃ t, bitbang.io.backend.spec.variant = .bitbang ∧ bitbang.draw ≠ .expire ∧
    exec .hardReset bitbang = .next t := ⟨_, by decide, by decide, rfl⟩

theorem test_witness_BackendOperations : (∃ t, Instr.isBackend .stateGet = true ∧ Ready accel ∧
      exec .stateGet accel = .next t) ∧
    ∃ t, Ready (facing (.fails 0) bulk) ∧ exec (.transfer [true] [false] 1) (facing (.fails 0) bulk) = .next t ∧
      t.results.getLast? = some (0, .error .busFault) ∧ t.ctrl.stateKnown = false :=
  ⟨⟨_, rfl, by decide, rfl⟩, _, by decide, rfl, by decide, rfl⟩

theorem test_witness_ExecuteScan : Normal bulk ∧ Direction.write ≠ .reserved ∧
    ScanAccepted bulk.io .instruction .write 1 .pauseIR [true] ∧ ScanAccepted bulk.io .data .read 64 .reset [] :=
  ⟨test_normal_bulk, by decide, by decide, by decide⟩

theorem test_witness_ScanValidation : legalEnd .data .pauseIR = false ∧
    (includesWrite .write = true ∧ (bits "101").length ≠ 8) ∧ legalEnd .data .idle = true ∧
    (includesWrite .read = true → (bits "").length = 65) ∧
    overLimit bulk.io.backend.spec.maxScan 65 = true := by decide

theorem test_witness_FailedScan : (∃ t, exec (.executeScan .data .read 8 .idle []) (facing (.fails 1) bulk) = .next t ∧
      t.results = bulk.results ++ [(bulk.caller, .error .busFault)] ∧ ScanAccepted bulk.io .data .read 8 .idle []) ∧
    ∃ t, exec (.executeScan .data .read 0 .idle []) bulk = .next t ∧
      t.results = bulk.results ++ [(bulk.caller, .error .invalidArgument)] ∧
      ¬ScanAccepted bulk.io .data .read 0 .idle [] := ⟨⟨_, rfl, rfl, by decide⟩, _, rfl, rfl, by decide⟩

theorem test_witness_ScanEdgeCount : ∃ t out, Ready bulk ∧ exec (.executeScan .data .read 8 .idle []) bulk = .next t ∧
    t.results = bulk.results ++ [(bulk.caller, .bits out)] := ⟨_, _, by decide, rfl, rfl⟩

theorem test_witness_Partition : (1 : Nat) ≠ 0 ∧ legalEnd .instruction .reset = true ∧ ∀ m, some 6 = some m → 6 ≤ m := by
  refine ⟨by decide, by decide, ?_⟩; intro m hm; cases hm; decide

theorem test_witness_Fragmentation : Normal bitbang ∧ Normal bulk ∧ ScanAccepted bitbang.io .data .read 8 .idle [] ∧
    ScanAccepted bulk.io .data .read 8 .idle [] ∧ bulk.ctrl.stateKnown = bitbang.ctrl.stateKnown ∧
    bulk.ctrl.currentState = bitbang.ctrl.currentState ∧ bulk.io.target = bitbang.io.target ∧
    bulk.io.drawn = bitbang.io.drawn :=
  ⟨test_normal_bitbang, test_normal_bulk, by decide, by decide, rfl, rfl, rfl, rfl⟩

theorem test_witness_ReadsAnswerTheCache : ∃ t, Ready bitbang ∧ exec .getFrequency bitbang = .next t := ⟨_, by decide, rfl⟩

theorem test_witness_SetFrequency : Ready accel ∧ Serves accel.io ∧ nextOutcome (facing .refuses bitbang).io = .refuses ∧
    bitbang.io.backend.spec.variant = .bitbang ∧ hasCap accel.io.backend.spec .freq = true ∧
    nextOutcome (facing .refuses accel).io = .refuses ∧ accel.io.backend.spec.variant ≠ .bitbang ∧
    nextOutcome (facing (.fails 0) accel).io = .fails 0 ∧ hasCap bulk.io.backend.spec .freq = false := by decide

theorem test_witness_SetState : stable .pauseDR = true ∧ stable .exit1DR = false ∧
    ∃ t, exec (.setState .pauseDR true) (facing (.fails 3) bulk) = .next t ∧
      t.results = bulk.results ++ [(bulk.caller, .error .busFault)] := ⟨by decide, by decide, _, rfl, rfl⟩

theorem test_witness_RawEdge : Ready bitbang ∧ hasCap bitbang.io.backend.spec .rawEdge = true ∧
    nextOutcome (facing (.fails 1) bitbang).io = .fails 1 ∧ hasCap bulk.io.backend.spec .rawEdge = false := by decide

theorem test_witness_Attach : maskAdmitted State.resetBackend.caps = true ∧ (∀ n ∈ [4, 8], n ≠ 0) ∧
    NoFailure bitbang.io ∧ maskAdmitted 0x00#8 = false ∧ maskAdmitted 0x21#8 = false ∧ 0 ∈ [4, 0] ∧
    maskAdmitted 0x11#8 = true ∧ hasCap { plainBackend with caps := 0x11#8 } .enable = true ∧
    nextOutcome (facing (.fails 0) bitbang).io = .fails 0 := by decide

/-- Another caller holds the lock. -/
def busy : State :=
  { bitbang with ctrl := { bitbang.ctrl with lock := { phase := .busy, owner := some 9, waiters := [3] } } }

/-- R318, R261: an operation of any class waits for the lock. -/
theorem test_frame_queues : (reached (exec (.next .idle true) busy)).map (fun s => (s.results, s.ctrl.lock.waiters)) =
      some ([], [3, 0]) ∧
    (reached (exec (.edge true false) busy)).map (fun s => (s.io.wire, s.ctrl.lock.waiters)) = some ([], [3, 0]) := by
  decide

theorem test_witness_Detach : Attached bitbang ∧ bitbang.ctrl.lock.phase = .idle ∧ busy.ctrl.lock.phase = .busy := by decide

theorem test_witness_Detached : ({ bitbang with ctrl := { bitbang.ctrl with attached := false } } : State).ctrl.attached =
    false ∧ ∀ layout b, Instr.detach ≠ .attach layout b := ⟨rfl, fun _ _ => by simp⟩

theorem test_witness_HardReset : ∃ ds, Normal bitbang ∧ bitbang.io.target.devices = some ds ∧
    nextOutcome (facing (.fails 2) bitbang).io = .fails 2 ∧ nextOutcome (facing (.timesOut 5) bulk).io = .timesOut 5 ∧
    bulk.io.backend.spec.variant ≠ .bitbang := ⟨_, test_normal_bitbang, rfl, rfl, rfl, by decide⟩

theorem test_witness_LockContention : ∃ t, Attached busy ∧ busy.ctrl.lock.phase = .busy ∧
    busy.ctrl.lock.owner = some 9 ∧ 9 ≠ busy.caller ∧ exec .getState busy = .next t ∧ busy.draw ≠ .expire ∧
    ownsLock { busy with draw := .expire } = false := ⟨_, by decide, rfl, rfl, by decide, rfl, by decide, by decide⟩

theorem test_witness_CommandsReleaseTheLock : ∃ t, Ready bitbang ∧ exec (.setState .idle false) bitbang = .next t :=
  ⟨_, by decide, rfl⟩

theorem test_witness_Recovery : (∃ t r, exec (.setState .idle false) (lost bitbang) = .next t ∧
      t.results = (lost bitbang).results ++ [((lost bitbang).caller, r)] ∧ ∀ k, r ≠ .error k) ∧
    (∃ t r, exec (.executeScan .data .write 1 .idle [true]) (lost bitbang) = .next t ∧
      t.results = (lost bitbang).results ++ [((lost bitbang).caller, r)] ∧ ∀ k, r ≠ .error k) ∧
    (∃ t r, exec .discoverIdentifiers (lost bitbang) = .next t ∧
      t.results = (lost bitbang).results ++ [((lost bitbang).caller, r)] ∧ ∀ k, r ≠ .error k) ∧
    ∃ t r, exec .discoverIdentifiers discovered = .next t ∧
      t.results = discovered.results ++ [(discovered.caller, r)] ∧ ∀ k, r ≠ .error k :=
  ⟨⟨_, _, rfl, rfl, by simp⟩, ⟨_, _, rfl, rfl, by simp⟩, ⟨_, _, rfl, rfl, by simp⟩, _, _, rfl, rfl, by simp⟩

/-- Caller `c` with `getState` issued, to obtain the lock and hold it, then to run. -/
def starting (c : CallerId) (s : State) : State :=
  { issue c [0x03#8] s with turns := [.move c .hold, .move c .run] }

theorem starts_starting (c : CallerId) (s : State) (ha : s.ctrl.attached = true) (hi : lockIdle s = true)
    (hb : s.inbox = []) : Starts c (starting c s) :=
  ⟨ha, hi, [.move c .run], { caller := c, record := [0x03#8] }, .getState, rfl,
    by simp [starting, issue, requestOf, hb], rfl, rfl⟩

theorem test_witness_Controllers : (0 : Nat) ≠ 1 ∧ Starts 4 (starting 4 bitbang) ∧ Starts 5 (starting 5 bulk) ∧
    (starting 4 bitbang).turns = .move 4 .hold :: .move 4 .run :: [] ∧
    ∃ t, step { starting 4 bitbang with
      turns := [.move 4 .run]
      ctrl := { bitbang.ctrl with lock := { phase := .busy, owner := some 4, waiters := [] } } } = .next t :=
  ⟨by decide, starts_starting 4 bitbang rfl rfl rfl, starts_starting 5 bulk rfl rfl rfl, rfl, _, rfl⟩

theorem test_witness_StepKeepsTheInvariant : MachineOk bitbang where
  chain := by decide
  lock := ⟨by decide, by decide, by intro c hc; cases hc⟩
  frequency := by decide
  rate := by decide
  limit := limit_bitbang
  outstanding := rfl
  devices := by
    intro ds hds j d hj
    obtain rfl : [dev1] = ds := Option.some.inj hds
    match j with
    | 0 => obtain rfl : dev1 = d := Option.some.inj hj; decide
    | j + 1 => cases hj

/-- R158: a fixture of two devices. -/
theorem test_witness_Fixture : ∀ x ∈ ([(4, some 0xABCD1234#32), (2, none)] : Fixture), 1 ≤ x.1 := by decide

theorem test_witness_FailedDiscovery : (∃ t, exec .discoverIdentifiers (facing (.fails 1) discovered) = .next t ∧
      t.results = bitbang.results ++ [(bitbang.caller, .error .busFault)] ∧
      (∀ d ∈ discovered.ctrl.chain, d.idcode.isSome = true)) ∧
    ∃ t, Ready (facing (.fails 1) bitbang) ∧ LimitOk (facing (.fails 1) bitbang).io ∧
    exec .discoverIdentifiers (facing (.fails 1) bitbang) = .next t ∧
    t.results = bitbang.results ++ [(bitbang.caller, .error .busFault)] :=
  ⟨⟨_, rfl, rfl, by decide⟩, _, by decide, (by intro m hm; cases hm), rfl, rfl⟩

theorem test_witness_CommandsKeepTheKnownPosition : (∃ t, Synced accel.toEngine ∧
      exec (.transfer (bits "1") (bits "0") 1) accel = .next t ∧ hasCap accel.io.backend.spec .state = true) ∧
    ∃ t, (∀ m d n, Instr.setState .pauseIR false ≠ .transfer m d n) ∧ LimitOk bitbang.io ∧ Synced bitbang.toEngine ∧
    exec (.setState .pauseIR false) bitbang = .next t ∧ bitbang.ctrl.stateKnown = true :=
  ⟨⟨_, by decide, rfl, rfl⟩, _, by simp, limit_bitbang, by decide, rfl, rfl⟩

end Sys2Proof.Tests
end

section
/-! SUPPORT. The decoder answers well-formed operations only (R8, R204), and a step runs the operation decoded (R17,
R261, R318). -/

namespace Sys2Proof

open Sys2Proof.Machine

/-! ### What a field can read -/

/-- Whatever the field reads, from any bits, has the property. -/
def OnlyReads {α : Type} (Q : α → Prop) (m : RecordField α) : Prop := ∀ b a r, m b = some (a, r) → Q a

theorem onlyReads_done {α : Type} {Q : α → Prop} {a : α} (h : Q a) : OnlyReads Q (fieldDone a) := by
  intro b a' r e
  cases e
  exact h

theorem onlyReads_then {α β : Type} {Q : β → Prop} {m : RecordField α} {f : α → RecordField β}
    (h : ∀ a, OnlyReads Q (f a)) : OnlyReads Q (fieldThen m f) := by
  intro b c r e
  unfold fieldThen at e
  split at e
  · exact h _ _ _ _ e
  · cases e

/-- An operation that was read is well formed; a rejection claims nothing. -/
def WfIfRead (x : Except Reject Instr) : Prop := ∀ i, x = .ok i → i.wf = true

theorem onlyReads_instrOf {m : RecordField Instr} (h : OnlyReads (·.wf = true) m) : OnlyReads WfIfRead (instrOf m) := by
  intro b x r e
  unfold instrOf fieldThen at e
  split at e
  · cases e
    rintro i ⟨⟩
    exact h _ _ _ ‹_›
  · cases e

/-- R8, R204, log entry 33: an `attach` is read only with a backend whose parameters passed the check. -/
theorem takeAttach_wf : OnlyReads WfIfRead takeAttach := by
  refine onlyReads_then fun _ => onlyReads_then fun _ => onlyReads_then fun _ => onlyReads_then fun v =>
    onlyReads_then fun _ => onlyReads_then fun _ => onlyReads_done ?_
  cases v with
  | none => rintro i ⟨⟩
  | some v =>
    dsimp only
    split
    · rintro i ⟨⟩
      assumption
    · rintro i ⟨⟩

/-- R87: the operands of every operation but `attach` are typed, so they leave nothing to break (R91, D47). -/
theorem operandsOf_wf {code : Nat} {field : RecordField (Except Reject Instr)} (h : operandsOf code = some field) :
    OnlyReads WfIfRead field := by
  unfold operandsOf at h
  split at h <;> cases h
  on_goal 11 => exact takeAttach_wf
  all_goals
    refine onlyReads_instrOf ?_
    repeat refine onlyReads_then fun _ => ?_
    exact onlyReads_done rfl

/-- R86: a record that decodes to an operation has a listed code whose operands were read. -/
theorem decode_ok {record : List Byte} {i : Instr} (h : decode record = .ok i) :
    ∃ code rest field r, record = code :: rest ∧ operandsOf code.toNat = some field ∧
      field (bytesToBits rest) = some (.ok i, r) := by
  cases record with
  | nil => cases h
  | cons code rest =>
    unfold decode at h
    dsimp only at h
    split at h
    · cases h
    · split at h
      · subst h
        exact ⟨code, rest, _, _, rfl, ‹_›, ‹_›⟩
      · cases h

/-- Settles O9: a record's operation comes from the fields of its code, which read well-formed operations only. -/
theorem decodedIsWellFormed : Obligations.DecodedIsWellFormed := by
  intro record i h
  obtain ⟨_, _, _, _, -, hf, hr⟩ := decode_ok h
  exact operandsOf_wf hf _ _ _ hr i rfl

end Sys2Proof

namespace Sys2Proof.Machine

/-! ### One step -/

/-- R318: a caller's move fetches its oldest command and uses up the turn. -/
theorem fetch_move {s : State} {c : CallerId} {d : LockDraw} {ts : List Turn} {q : Request}
    (ht : s.turns = .move c d :: ts) (hq : requestOf c s = some q) :
    fetch s = (some q.record, { s with turns := ts, caller := c, draw := d }) := by
  simp only [fetch, ht, hq, setMover, dropTurn, List.tail_cons]

/-- Log entry 7: with no turn listed the default command is fetched. -/
theorem fetch_default {s : State} {q : Request} (ht : s.turns = []) (hq : defaultRequest s = some q) :
    fetch s = (some q.record, { s with caller := q.caller, draw := .run }) := by
  simp only [fetch, ht, hq, setMover]

/-- R17, R261: a fetched record that decodes is executed. -/
theorem step_exec {s s' : State} {record : List Byte} {i : Instr} (hf : fetch s = (some record, s'))
    (hd : decode record = .ok i) : step s = exec i s' := by
  unfold step
  rw [hf]
  dsimp only
  rw [hd]

/-- Settles O11: the two ways to fetch a command, each followed by its execution. -/
theorem stepRunsTheDecodedOperation : Obligations.StepRunsTheDecodedOperation :=
  ⟨fun _ _ _ _ _ _ ht hq hd => step_exec (fetch_move ht hq) hd, fun _ _ _ ht hq hd => step_exec (fetch_default ht hq) hd⟩

end Sys2Proof.Machine
end

section
/-! SUPPORT. The invariant of the machine (R8, R22, R25, R28, R34, R150): what a backend call keeps of the interface, what
the body of a command keeps of the engine, what the frame keeps of the lock, and so what a step keeps. -/

namespace Sys2Proof.Machine

/-! ### The interface -/

/-- The part of `MachineOk` that a backend call can touch. -/
structure InterfaceOk (io : Interface) : Prop where
  rate : 1 ≤ io.backend.rate
  limit : LimitOk io
  outstanding : NothingOutstanding io
  devices : ReferenceOk io.opcodes io.target

/-- R150, R181: edges keep the interface in form where they leave no transfer outstanding. -/
theorem interfaceOk_drives {es : List Edge} {io io' : Interface} (h : InterfaceOk io) (d : Drives es io io')
    (ho : NothingOutstanding io') : InterfaceOk io' where
  rate := d.rate ▸ h.rate
  limit := by rw [LimitOk, d.spec]; exact h.limit
  outstanding := ho
  devices := by rw [d.opcodes, d.target]; exact targetRun_reference h.devices

/-- R34, R192: only an accelerated backend can have a transfer outstanding. -/
def OutstandingOnlyAccelerated (io : Interface) : Prop :=
  (∀ m, io.backend.spec.variant ≠ .accelerated m) → NothingOutstanding io

theorem drives_outstandingOnlyAccelerated {es : List Edge} {io io' : Interface} (h : NothingOutstanding io)
    (d : Drives es io io') : OutstandingOnlyAccelerated io' := by
  intro hv
  rw [d.spec] at hv
  rw [NothingOutstanding, d.regs hv]
  exact h

/-- R194: a call that completes leaves no transfer outstanding. -/
theorem settle_outstanding (out : BitSeq) {io : Interface} (h : OutstandingOnlyAccelerated io) :
    NothingOutstanding (settle out io) := by
  unfold settle
  split <;> rename_i hv
  · rfl
  · exact h (by simp [hv])
  · exact h (by simp [hv])

/-- R185: nor does one that fails. -/
theorem settleFailed_outstanding (k : ErrKind) {io : Interface} (h : OutstandingOnlyAccelerated io) :
    NothingOutstanding (settleFailed k io) := by
  unfold settleFailed
  split <;> rename_i hv
  · rfl
  · exact h (by simp [hv])
  · exact h (by simp [hv])

/-- R34: a transfer is outstanding only within a backend call. -/
theorem burst_outstanding (tms tdi : BitSeq) {io : Interface} (h : NothingOutstanding io) :
    NothingOutstanding (burst tms tdi io).2 := by
  have hprog : Drives [] io (program tms tdi (dropOutcome io)) :=
    drives_trans (dropOutcome_drives io) (program_drives tms tdi _)
  unfold burst
  dsimp only
  split
  · exact h
  · split
    · exact settle_outstanding _ (drives_outstandingOnlyAccelerated h (drives_trans hprog (logged_drives _ _)))
    · exact settleFailed_outstanding _ (drives_outstandingOnlyAccelerated h (drives_trans hprog (failing_drives _ _ _)))

theorem burst_interfaceOk (tms tdi : BitSeq) {io : Interface} (h : InterfaceOk io) : InterfaceOk (burst tms tdi io).2 := by
  have ho := burst_outstanding tms tdi h.outstanding
  rcases burst_cases tms tdi io with ⟨_, _, e, -, d⟩ | ⟨_, _, _, e, -, d⟩ | e <;> rw [e] at ho ⊢
  · exact interfaceOk_drives h d ho
  · exact interfaceOk_drives h d ho
  · exact h

/-- R33, R188: edges, delivered or not, do not touch the registers of the accelerated variant. -/
theorem driveFailing_regs (es : List Edge) (n : Nat) (io : Interface) :
    (driveFailing es n io).backend.regs = io.backend.regs := by
  obtain ⟨-, -, -, -, -, -, hregs, -⟩ := driveEdges_fields (es.take n) io
  have hloose : ∀ io' : Interface, (looseLines io').backend.regs = io'.backend.regs := by
    intro io'
    unfold looseLines
    split <;> rfl
  unfold driveFailing
  dsimp only
  split
  · rw [hloose, logEdges_backend, hregs]
  · rw [logEdges_backend, hregs]

theorem rawEdgePrim_regs (m d : Bool) (io : Interface) : (rawEdgePrim m d io).2.backend.regs = io.backend.regs := by
  by_cases hu : Usable io
  swap
  · rw [rawEdgePrim_disabled m d hu]
  unfold rawEdgePrim
  rw [whenEnabled_usable _ hu]
  dsimp only
  split
  · exact driveFailing_regs _ _ _
  · obtain ⟨-, -, -, -, -, -, hregs, -⟩ := driveEdge_fields { tms := m, tdi := d } (dropOutcome io)
    exact hregs

theorem rawEdgePrim_interfaceOk (m d : Bool) {io : Interface} (h : InterfaceOk io) :
    InterfaceOk (rawEdgePrim m d io).2 := by
  have ho : NothingOutstanding (rawEdgePrim m d io).2 := by
    rw [NothingOutstanding, rawEdgePrim_regs]
    exact h.outstanding
  by_cases hu : Usable io
  swap
  · rw [rawEdgePrim_disabled m d hu]
    exact h
  rcases rawEdgePrim_cases m d hu with ⟨_, -, e, dr⟩ | ⟨_, _, -, e, dr⟩ <;> rw [e] at ho ⊢ <;>
    exact interfaceOk_drives h dr ho

theorem freqSetPrim_interfaceOk (hz : Nat) {io : Interface} (h : InterfaceOk io) :
    InterfaceOk (freqSetPrim hz io).2 := by
  by_cases hu : Usable io
  swap
  · rw [freqSetPrim_disabled hz hu]
    exact h
  rcases freqSetPrim_cases hz hu with ⟨-, e⟩ | ⟨_, -, e⟩ <;> rw [e]
  · exact { h with rate := Nat.le_add_left 1 _ }
  · exact { h with }

theorem enablePrim_interfaceOk {io : Interface} (h : InterfaceOk io) : InterfaceOk (enablePrim io).2 := by
  rcases enablePrim_cases io with e | ⟨_, -, e⟩ <;> rw [e] <;> exact { h with }

/-! ### The engine -/

/-- `MachineOk` without its clause on the lock. -/
structure EngineOk (e : Engine) : Prop where
  chain : ChainOk e.ctrl.chain
  frequency : 1 ≤ e.ctrl.frequencyHz
  io : InterfaceOk e.io

theorem machineOk_iff {s : State} : MachineOk s ↔ EngineOk s.toEngine ∧ LockOk s.ctrl.lock :=
  ⟨fun h => ⟨⟨h.chain, h.frequency, h.rate, h.limit, h.outstanding, h.devices⟩, h.lock⟩,
    fun ⟨⟨hc, hf, hio⟩, hl⟩ => ⟨hc, hl, hf, hio.rate, hio.limit, hio.outstanding, hio.devices⟩⟩

theorem engineOk_withLock (l : Lock) {e : Engine} (h : EngineOk e) : EngineOk (withLock l e) := { h with }

/-- R263, R189: a positive frequency is stored. -/
theorem engineOk_storeFrequency {hz : Nat} (hz0 : hz ≠ 0) {e : Engine} (h : EngineOk e) :
    EngineOk (storeFrequency hz e) := by
  refine ⟨h.chain, Nat.one_le_iff_ne_zero.mpr hz0, ?_⟩
  unfold storeFrequency
  dsimp only
  split
  · exact { h.io with }
  · exact h.io

/-- Every change the operations of the frame are made of keeps the engine in form. -/
theorem engineOk_closed : Closed EngineOk where
  clear _ h := { h with }
  current _ _ h := { h with }
  known _ _ h := { h with }
  freeze _ h := { h with }
  burst m d _ h := { h with io := burst_interfaceOk m d h.io }
  edge m d _ h := { h with io := rawEdgePrim_interfaceOk m d h.io }
  rate hz _ h := { h with io := freqSetPrim_interfaceOk hz h.io }
  enable _ h := { h with io := enablePrim_interfaceOk h.io }
  disable _ h := { h with io := { h.io with } }
  store _ _ hz0 h := engineOk_storeFrequency hz0 h
  grow _ _ hn _ h := { h with chain := appendDevice_ok h.chain hn }
  identify i v _ _ h := { h with chain := setIdcode_ok i v h.chain }

/-! ### The lock -/

theorem nodup_addWaiter {w : List CallerId} (h : w.Nodup) (c : CallerId) : (addWaiter c w).Nodup := by
  unfold addWaiter
  split
  · exact h
  · exact List.nodup_append_comm.mpr (List.nodup_cons.mpr ⟨‹_›, h⟩)

theorem mem_addWaiter {c x : CallerId} {w : List CallerId} : x ∈ addWaiter c w ↔ x ∈ w ∨ x = c := by
  unfold addWaiter
  split
  · exact ⟨.inl, fun h => h.elim id fun hx => hx ▸ ‹_›⟩
  · simp

theorem mem_dropWaiter {c x : CallerId} {w : List CallerId} : x ∈ dropWaiter c w ↔ x ∈ w ∧ x ≠ c := by
  simp [dropWaiter]

theorem nodup_dropWaiter {w : List CallerId} (h : w.Nodup) (c : CallerId) : (dropWaiter c w).Nodup := h.filter _

/-- R25: a lock that nobody owns. -/
theorem lockOk_idle {w : List CallerId} (h : w.Nodup) : LockOk { phase := .idle, owner := none, waiters := w } :=
  ⟨by simp, h, by simp⟩

/-- R260: a caller that stops waiting. -/
theorem lockOk_dropWaiter {l : Lock} (h : LockOk l) (c : CallerId) :
    LockOk { l with waiters := dropWaiter c l.waiters } := by
  obtain ⟨hphase, hnodup, howner⟩ := h
  exact ⟨hphase, nodup_dropWaiter hnodup c, fun x hx hm => howner x hx (mem_dropWaiter.mp hm).1⟩

/-- R260: the owner no longer waits. -/
theorem lockOk_grant {s : State} (h : LockOk s.ctrl.lock) : LockOk (grant s).ctrl.lock := by
  obtain ⟨-, hnodup, -⟩ := h
  refine ⟨by simp, nodup_dropWaiter hnodup _, ?_⟩
  rintro c hc hm
  exact (mem_dropWaiter.mp hm).2 (Option.some.inj hc).symm

/-- R260: only a caller that does not hold the lock is queued on it. -/
theorem lockOk_enqueue {s : State} (h : LockOk s.ctrl.lock) (ho : ownsLock s = false) :
    LockOk (enqueue s).ctrl.lock := by
  obtain ⟨hphase, hnodup, howner⟩ := h
  refine ⟨hphase, nodup_addWaiter hnodup _, fun c hc hm => ?_⟩
  rcases mem_addWaiter.mp hm with hm | rfl
  · exact howner c hc hm
  · have hown : s.ctrl.lock.owner = some s.caller := hc
    have hbusy : s.ctrl.lock.phase = .busy := hphase.mpr (by rw [hown]; rfl)
    simp [ownsLock, hown, hbusy] at ho

/-- R261: a command whose body leaves the lock alone keeps it in form. -/
theorem command_lockOk {body : Body Result} (hb : ∀ l, Keeps (fun e : Engine => e.ctrl.lock = l) body) {s t : State}
    (h : LockOk s.ctrl.lock) (ht : command body s = .next t) : LockOk t.ctrl.lock := by
  obtain ⟨-, hnodup, -⟩ := id h
  have hrun : ∀ {x e}, body (grant s).toEngine = (x, e) →
      LockOk { e.ctrl.lock with phase := .idle, owner := none } := by
    intro x e hbody
    have hlock : (body (grant s).toEngine).2.ctrl.lock = (grant s).ctrl.lock := hb _ _ rfl
    rw [hbody] at hlock
    dsimp only at hlock
    rw [hlock]
    exact lockOk_idle (nodup_dropWaiter hnodup _)
  rcases command_cases ht with ⟨-, rfl⟩ | ⟨-, -, -, rfl⟩ | ⟨-, -, -, rfl⟩ | ⟨-, ho, -, rfl⟩ | ⟨-, -, -, rfl⟩ |
      ⟨-, v, e, he, rfl⟩ | ⟨-, k, e, he, rfl⟩
  · exact h
  · exact h
  · unfold expireWait
    cases s.lockTimeoutClears <;> exact lockOk_dropWaiter h _
  · exact lockOk_enqueue h ho
  · exact lockOk_grant h
  · have hrefresh : (refresh (grant s).toEngine e).ctrl.lock = e.ctrl.lock := by
      unfold refresh
      split <;> rfl
    rw [release_ctrl_lock, setEngine_toEngine, hrefresh]
    exact hrun he
  · exact hrun he

/-- Only the frame changes the lock. -/
theorem lock_closed (l : Lock) : Closed fun e : Engine => e.ctrl.lock = l where
  clear _ h := h
  current _ _ h := h
  known _ _ h := h
  freeze _ h := h
  burst _ _ _ h := h
  edge _ _ _ h := h
  rate _ _ h := h
  enable _ h := h
  disable _ h := h
  store _ _ _ h := h
  grow _ _ _ _ h := h
  identify _ _ _ _ h := h

/-- R261: every operation that runs in the frame keeps the invariant. -/
theorem takesLock_machineOk {i : Instr} (hi : i.takesLock = true) {s t : State} (hs : MachineOk s)
    (ht : exec i s = .next t) : MachineOk t := by
  obtain ⟨he, hl⟩ := machineOk_iff.mp hs
  refine machineOk_iff.mpr ⟨takesLock_keeps engineOk_closed (fun l _ => engineOk_withLock l) hi he ht, ?_⟩
  obtain ⟨body, hbody, hkeeps⟩ := takesLock_command hi
  rw [hbody] at ht
  exact command_lockOk (fun l => hkeeps _ (lock_closed l)) hl ht

/-! ### The lifecycle -/

/-- R8: what a well-formed backend operand promises of its limit. -/
theorem wf_limit {spec : BackendSpec} (h : spec.wf = true) : ∀ m, maxTransferBits spec = some m → 6 ≤ m := by
  obtain ⟨variant, caps, maxScan, rate⟩ := spec
  simp only [BackendSpec.wf, Bool.and_eq_true] at h
  obtain ⟨⟨⟨hlimit, -⟩, -⟩, -⟩ := h
  intro m hm
  cases variant with
  | accelerated limit =>
    obtain rfl : limit = some m := hm
    exact of_decide_eq_true hlimit
  | bitbang => cases hm
  | bulk limit =>
    obtain rfl : limit = some m := hm
    exact of_decide_eq_true hlimit

/-- R8: and of its rate. -/
theorem wf_rate {spec : BackendSpec} (h : spec.wf = true) : 1 ≤ spec.rate := by
  simp only [BackendSpec.wf, Bool.and_eq_true, decide_eq_true_eq] at h
  exact h.2

theorem initialFrequencyOf_pos {spec : BackendSpec} (h : spec.wf = true) : 1 ≤ initialFrequencyOf spec := by
  unfold initialFrequencyOf
  split
  · exact wf_rate h
  · exact Nat.le_add_left 1 _

/-- R270: a backend just bound. -/
theorem bindBackend_interfaceOk {spec : BackendSpec} (hw : spec.wf = true) {io : Interface} (h : InterfaceOk io) :
    InterfaceOk (bindBackend spec io) :=
  ⟨wf_rate hw, wf_limit hw, rfl, h.devices⟩

theorem enableIfAny_interfaceOk (spec : BackendSpec) {io : Interface} (h : InterfaceOk io) :
    InterfaceOk (enableIfAny spec io).2 := by
  unfold enableIfAny
  split
  · exact enablePrim_interfaceOk h
  · exact h

/-- R270: everything an `attach` that gives a next state can do: it answers an error and constructs nothing, or it
constructs a controller for a layout without a zero. -/
theorem execAttach_cases {layout : List Nat} {spec : BackendSpec} {s t : State} (h : execAttach layout spec s = .next t) :
    (∃ k outcomes, t = complete (.error k) (setIo { s.io with outcomes := outcomes } s)) ∨
      (∀ n ∈ layout, n ≠ 0) ∧ t = complete .controller (setEngine (construct layout spec (Config.freeTap (s.io.drawn + 1))
        (enableIfAny spec (bindBackend spec s.io)).2) s) := by
  unfold execAttach at h
  split at h
  · cases h
  split at h
  · cases h
    exact .inl ⟨_, s.io.outcomes, rfl⟩
  rename_i hz
  split at h
  · cases h
    rename_i hio
    exact .inr ⟨fun n hn h0 => hz (List.any_eq_true.mpr ⟨n, hn, by simpa using h0⟩), by rw [hio]⟩
  · cases h
    exact .inl ⟨_, _, rfl⟩
  · cases h

theorem execAttach_machineOk {layout : List Nat} {spec : BackendSpec} (hw : spec.wf = true) {s t : State}
    (hs : MachineOk s) (ht : execAttach layout spec s = .next t) : MachineOk t := by
  rcases execAttach_cases ht with ⟨k, outcomes, rfl⟩ | ⟨hn, rfl⟩
  · exact { hs with }
  · obtain ⟨he, -⟩ := machineOk_iff.mp hs
    have hio := enableIfAny_interfaceOk spec (bindBackend_interfaceOk hw he.io)
    exact machineOk_iff.mpr
      ⟨⟨chainOfLayout_ok hn, initialFrequencyOf_pos hw, { hio with }⟩, lockOk_idle List.nodup_nil⟩

/-- R271: the dismissal of the waiters touches nothing of the engine but the waiters. -/
theorem dismissWaiters_toEngine (s : State) :
    (dismissWaiters s).toEngine = withLock { s.ctrl.lock with waiters := [] } s.toEngine := by
  have hdeliver : ∀ (w : List CallerId) (u : State),
      (w.foldl (fun t c => deliver c (.error .invalidArgument) t) u).toEngine = u.toEngine := by
    intro w
    induction w with
    | nil => exact fun _ => rfl
    | cons c w ih => exact fun u => ih (deliver c _ u)
  unfold dismissWaiters setLock withLock
  dsimp only
  rw [hdeliver]

theorem tearDown_engineOk {e : Engine} (h : EngineOk e) : EngineOk (tearDown e) := by
  refine ⟨h.chain, h.frequency, ?_⟩
  unfold tearDown
  dsimp only
  split
  · exact { h.io with }
  · exact h.io

theorem execDetach_machineOk {s t : State} (hs : MachineOk s) (ht : execDetach s = .next t) : MachineOk t := by
  unfold execDetach at ht
  split at ht
  · cases ht
    exact { hs with }
  split at ht
  · cases ht
  cases ht
  obtain ⟨he, hphase, -, -⟩ := machineOk_iff.mp hs
  refine machineOk_iff.mpr ⟨tearDown_engineOk ?_, ?_⟩
  · rw [dismissWaiters_toEngine]
    exact engineOk_withLock _ he
  · show LockOk (dismissWaiters s).toEngine.ctrl.lock
    rw [dismissWaiters_toEngine]
    exact ⟨hphase, List.nodup_nil, by simp⟩

/-! ### A step -/

/-- The two operations of the lifecycle are the only ones outside the frame (R318). -/
theorem exec_machineOk {i : Instr} (hw : i.wf = true) {s t : State} (hs : MachineOk s) (ht : exec i s = .next t) :
    MachineOk t := by
  cases i with
  | attach layout spec => exact execAttach_machineOk hw hs ht
  | detach => exact execDetach_machineOk hs ht
  | _ => exact takesLock_machineOk rfl hs ht

/-- R17: choosing who moves touches nothing of the engine. -/
@[simp] theorem fetch_toEngine (s : State) : (fetch s).2.toEngine = s.toEngine := by
  unfold fetch
  split
  · split <;> rfl
  · rfl
  · split <;> rfl

/-- R17, R91, R340: everything a step with a next state can do: it only uses up the turn, it rejects the record, or
it executes the operation decoded. -/
theorem step_cases {s t : State} (h : step s = .next t) :
    t = (fetch s).2 ∨ t = rejectRecord (fetch s).2 ∨ ∃ record i, decode record = .ok i ∧ exec i (fetch s).2 = .next t := by
  unfold step at h
  split at h
  · rename_i hf
    cases h
    exact .inl (by rw [hf])
  · rename_i record s' hf
    rw [hf]
    split at h
    · exact .inr (.inr ⟨record, _, ‹_›, h⟩)
    · cases h
      exact .inr (.inl rfl)

/-- Settles O59: choosing the mover keeps the engine, so the invariant; a rejection too; and the operation a record
decodes to is well formed (O9), so its execution keeps the invariant. -/
theorem stepKeepsTheInvariant : Obligations.StepKeepsTheInvariant := by
  intro s t hs ht
  have hf : MachineOk (fetch s).2 := by
    rw [machineOk_iff, fetch_toEngine, ← machineOk_iff]
    exact hs
  rcases step_cases ht with rfl | rfl | ⟨record, i, hd, he⟩
  · exact hf
  · exact { hf with }
  · exact exec_machineOk (decodedIsWellFormed record i hd) hf he

end Sys2Proof.Machine
end

section
/-! SUPPORT. The position of the TAP (R34, R355, R229, R272, R307): what keeps the controller's known position true in
the body of each operation, in the command frame and in the lifecycle; then the controller after detach (R271) and the
machine after construction (R37, R158). -/

namespace Sys2Proof.Machine

/-! ### A position that is known and true -/

/-- `Synced`, with the limit without which the transfers of a command are not all of its edges. -/
structure Tracked (e : Engine) : Prop where
  limit : LimitOk e.io
  position : PositionTrue e
  book : BookTrue e

theorem limitOk_drives {es : List Edge} {io io' : Interface} (h : LimitOk io) (d : Drives es io io') : LimitOk io' := by
  rw [LimitOk, d.spec]
  exact h

/-- R229: a position that is not known claims nothing. -/
theorem synced_of_unknown {e : Engine} (hk : e.ctrl.stateKnown = false) : Synced e := by
  have hn : ¬KnownIs true e := by rw [KnownIs, hk]; decide
  exact ⟨fun h => absurd h hn, fun _ h => absurd h hn⟩

theorem tracked_of_unknown {e : Engine} (hl : LimitOk e.io) (hk : e.ctrl.stateKnown = false) : Tracked e where
  limit := hl
  position := (synced_of_unknown hk).1
  book := (synced_of_unknown hk).2

theorem tracked_clearKnown {e : Engine} (hl : LimitOk e.io) : Tracked (clearKnown e) := tracked_of_unknown hl rfl

theorem tracked_withLock (l : Lock) {e : Engine} (h : Tracked e) : Tracked (withLock l e) := { h with }

/-- R35, R200: after edges that lead the target, and the bookkeeping of a backend with STATE, to the position held. -/
theorem tracked_of_run {es : List Edge} {io : Interface} {e : Engine} (hl : LimitOk io) (d : Drives es io e.io)
    (htap : tapRun io.target.tap (es.map (·.tms)) = e.ctrl.currentState)
    (hbook : hasCap io.backend.spec .state = true → tapRun io.backend.book (es.map (·.tms)) = e.ctrl.currentState) :
    Tracked e where
  limit := limitOk_drives hl d
  position _ := by rw [d.target, targetRun_tap, htap]
  book hs _ := by
    rw [d.spec] at hs
    rw [d.book, hbook hs, d.target, targetRun_tap, htap]

/-! ### The refresh -/

/-- R272: the refresh makes the position that of the bookkeeping, so the position has to be true already only where the
refresh does nothing. -/
theorem tracked_refresh {before after : Engine} (hl : LimitOk after.io) (hb : BookTrue after)
    (hp : ¬(hasCap after.io.backend.spec .state = true ∧
      (wireEdges before.io).length ≠ (wireEdges after.io).length) → PositionTrue after) :
    Tracked (refresh before after) := by
  unfold refresh
  split
  · rename_i hs
    exact ⟨hl, hb hs.1, hb⟩
  · rename_i hs
    exact ⟨hl, hp hs, hb⟩

/-- R272, R181: after bare edges on a backend with STATE, where only the refresh moves the position. -/
theorem tracked_refresh_driven {e : Engine} (h : Tracked e) (hs : hasCap e.io.backend.spec .state = true)
    {es : List Edge} {io' : Interface} (d : Drives es e.io io') : Tracked (refresh e { e with io := io' }) := by
  refine tracked_refresh (limitOk_drives h.limit d) (fun _ hk => ?_) fun hn hk => ?_
  · show io'.backend.book = io'.target.tap
    rw [d.book, d.target, targetRun_tap, h.book hs hk]
  · have hwire : (wireEdges e.io).length = (wireEdges io').length := by
      by_contra hne
      exact hn ⟨by rw [← hs, ← d.spec], hne⟩
    rw [d.wire, List.length_append] at hwire
    obtain rfl : es = [] := List.eq_nil_of_length_eq_zero (by omega)
    show e.ctrl.currentState = io'.target.tap
    rw [d.target, targetRun_nil]
    exact h.position hk

/-! ### What a computation that is not refused keeps -/

/-- The state a computation ended in has the property; after a stop no state follows, so nothing is claimed. -/
def Holding {σ α : Type} (P : σ → Prop) : Ret α × σ → Prop
  | (.ok _, s) => P s
  | (.err _, s) => P s
  | (.stop _, _) => True

/-- A computation keeps a property, unless it stops. -/
def KeepsUnlessStopped {σ α : Type} (P : σ → Prop) (m : Act σ α) : Prop := ∀ s, P s → Holding P (m s)

theorem keepsUnlessStopped_of_keeps {σ α : Type} {P : σ → Prop} {m : Act σ α} (h : Keeps P m) :
    KeepsUnlessStopped P m := by
  intro s hs
  have hm := h s hs
  rcases e : m s with ⟨_ | _ | _, s'⟩ <;> rw [e] at hm
  · exact hm
  · exact hm
  · trivial

theorem keepsUnlessStopped_andThen {σ α β : Type} {P : σ → Prop} {m : Act σ α} {f : α → Act σ β}
    (hm : KeepsUnlessStopped P m) (hf : ∀ a, KeepsUnlessStopped P (f a)) : KeepsUnlessStopped P (andThen m f) := by
  intro s hs
  have h := hm s hs
  rcases andThen_cases m f s with ⟨a, s', e, e'⟩ | ⟨k, s', e, e'⟩ | ⟨x, s', e, e'⟩ <;> rw [e] at h <;> rw [e']
  · exact hf a s' h
  · exact h
  · trivial

/-- A value returned after it changes nothing. -/
theorem keepsUnlessStopped_returning {σ α β : Type} {P : σ → Prop} {m : Act σ α} (hm : KeepsUnlessStopped P m)
    (f : α → β) : KeepsUnlessStopped P (andThen m fun a => done (f a)) :=
  keepsUnlessStopped_andThen hm fun _ => keepsUnlessStopped_of_keeps (keeps_done _)

/-! ### Operations that drive edges and keep the position themselves -/

/-- R116, R307: the hard reset. -/
theorem hardReset_tracked : KeepsUnlessStopped Tracked (clearOnError hardReset) := by
  intro e he
  unfold clearOnError
  rcases hardReset_cases e with ⟨io', d, h⟩ | ⟨k, es, io', -, d, h⟩ | ⟨x, h⟩ <;> rw [h]
  · exact tracked_of_run (e := setKnown .reset { e with io := io' }) he.limit d (tapRun_ones_five _)
      fun _ => tapRun_ones_five _
  · exact tracked_clearKnown (limitOk_drives he.limit d)
  · trivial

/-- R222: the recovery is the hard reset where the position is not known, and nothing where it is. -/
theorem recover_tracked : KeepsUnlessStopped Tracked (clearOnError recover) := by
  intro e he
  cases hk : e.ctrl.stateKnown
  · have h : clearOnError recover e = clearOnError hardReset e := by
      unfold clearOnError recover
      rw [hk]
      rfl
    rw [h]
    exact hardReset_tracked e he
  · have h : clearOnError recover e = (.ok (), e) := by
      unfold clearOnError recover
      rw [hk]
      rfl
    rw [h]
    exact he

/-- R228, R229: a scan. -/
theorem scanCore_tracked (p : ScanTarget) {d : Direction} (hd : d ≠ .reserved) (n : Nat) (t : TapState) (b : BitSeq) :
    KeepsUnlessStopped Tracked (scanCore p d n t b) := by
  intro e he
  rcases scanCore_cases p hd n t b e he.limit with ⟨out, io', ha, dr, h, -⟩ | ⟨k, e', h, hf⟩ | ⟨x, e', h⟩ <;> rw [h]
  · exact tracked_of_run (e := scanDone t io' e) he.limit dr (scan_run hd ha fun hk => (he.position hk).symm)
      fun hs => scan_run hd ha fun hk => (he.book hs hk).trans (he.position hk).symm
  · rcases hf with ⟨-, rfl, -⟩ | ⟨-, es, pos, -, dr, hc⟩
    · exact tracked_clearKnown he.limit
    · exact tracked_of_unknown (limitOk_drives he.limit dr) (by rw [hc])
  · trivial

/-- R266. -/
theorem executeScan_tracked (p : ScanTarget) (d : Direction) (n : Nat) (t : TapState) (b : BitSeq) :
    KeepsUnlessStopped Tracked (executeScanBody p d n t b) := by
  by_cases hd : d = .reserved
  · subst hd
    exact fun _ he => he
  · exact keepsUnlessStopped_andThen (keepsUnlessStopped_of_keeps (keeps_check _ _)) fun _ =>
      keepsUnlessStopped_returning (scanCore_tracked p hd n t b) _

theorem discoverOne_tracked (i : Nat) : KeepsUnlessStopped Tracked (discoverOne i) := by
  intro e he
  unfold discoverOne
  split
  · exact he
  split
  · exact he
  refine keepsUnlessStopped_andThen (keepsUnlessStopped_of_keeps (keeps_buildPayload _ _)) (fun _ =>
    keepsUnlessStopped_andThen (scanCore_tracked _ (by decide) _ _ _) fun _ =>
      keepsUnlessStopped_andThen (scanCore_tracked _ (by decide) _ _ _) fun _ =>
        keepsUnlessStopped_of_keeps (keeps_update fun _ h => ?_)) e he
  exact { h with }

theorem discoverAll_tracked : ∀ is : List Nat, KeepsUnlessStopped Tracked (discoverAll is)
  | [] => keepsUnlessStopped_of_keeps (keeps_done _)
  | i :: is => keepsUnlessStopped_andThen (discoverOne_tracked i) fun _ => discoverAll_tracked is

/-- R146, R229. -/
theorem discoverIdentifiers_tracked : KeepsUnlessStopped Tracked discoverIdentifiersBody := fun e he =>
  keepsUnlessStopped_andThen (discoverAll_tracked _) (fun _ => keepsUnlessStopped_returning recover_tracked _) e he

/-- R265, R200: a path starts from the bookkeeping of a backend with STATE, which agrees with a known position. -/
theorem setState_tracked (target : TapState) (f : Bool) : KeepsUnlessStopped Tracked (setStateBody target f) := by
  intro e he
  cases hs : stable target
  · have h : setStateBody target f e = (.err .invalidArgument, e) := by
      unfold setStateBody
      rw [hs]
      rfl
    rw [h]
    exact he
  have hrun : ∀ x, (e.ctrl.stateKnown = true →
      x = if hasCap e.io.backend.spec .state then e.io.backend.book else e.ctrl.currentState) →
      tapRun x ((edgesOf (setStateBits e target f) (zeros (setStateBits e target f).length)).map (·.tms)) = target := by
    intro x hx
    rw [edgesOf_tms (zeros_length _).symm]
    exact setState_run hx
  rcases setStateBody_cases f he.limit hs with ⟨io', h, d⟩ | ⟨k, pos, io', es, h, d, -⟩ | ⟨x, e', h⟩ <;> rw [h]
  · refine tracked_of_run (e := setKnown target { e with io := io' }) he.limit d (hrun _ fun hk => ?_)
      fun hst => hrun _ fun _ => by rw [if_pos hst]
    split
    · exact (he.book ‹_› hk).symm
    · exact (he.position hk).symm
  · exact tracked_of_unknown (limitOk_drives he.limit d) rfl
  · trivial

/-- R267: the tracked edge. -/
theorem trackEdge_tracked (m d : Bool) {e : Engine} (he : Tracked e) {io' : Interface}
    (dr : Drives [{ tms := m, tdi := d }] e.io io') : Tracked (trackEdge m { e with io := io' }) := by
  unfold trackEdge
  split <;> rename_i hk
  · exact tracked_of_run (e := setCurrent (tapNext e.ctrl.currentState m) { e with io := io' }) he.limit dr
      (by rw [setCurrent_ctrl_currentState, he.position hk]; rfl)
      fun hs => by rw [setCurrent_ctrl_currentState, he.position hk, ← he.book hs hk]; rfl
  · exact tracked_of_unknown (limitOk_drives he.limit dr) (by simpa using hk)

/-- R267. -/
theorem rawEdge_tracked (m d : Bool) : KeepsUnlessStopped Tracked (rawEdgeBody m d) := by
  intro e he
  cases hc : hasCap e.io.backend.spec .rawEdge
  · unfold rawEdgeBody
    rw [andThen_err (needCap_err hc)]
    exact he
  by_cases hu : Usable e.io
  · rcases rawEdgeBody_cases m d hu hc with ⟨io', -, h, dr⟩ | ⟨k, io', -, h, dr⟩ <;> rw [h]
    · exact trackEdge_tracked m d he dr
    · exact tracked_clearKnown (limitOk_drives he.limit dr)
  · have h : rawEdgeBody m d e = (.err .busFault, clearKnown e) := by
      unfold rawEdgeBody
      rw [andThen_ok (needCap_ok hc), andThen_err]
      unfold clearOnError callBackend
      rw [rawEdgePrim_disabled m d hu]
    rw [h]
    exact tracked_clearKnown he.limit

/-! ### Operations that leave the position alone -/

theorem freqSetPrim_tracked (hz : Nat) : Keeps Tracked (callBackend (freqSetPrim hz)) := by
  intro e he
  show Tracked { e with io := (freqSetPrim hz e.io).2 }
  by_cases hu : Usable e.io
  swap
  · rw [freqSetPrim_disabled hz hu]
    exact he
  rcases freqSetPrim_cases hz hu with ⟨-, h⟩ | ⟨_, -, h⟩ <;> rw [h] <;> exact { he with }

theorem enablePrim_tracked : Keeps Tracked (callBackend enablePrim) := by
  intro e he
  show Tracked { e with io := (enablePrim e.io).2 }
  rcases enablePrim_cases e.io with h | ⟨_, -, h⟩ <;> rw [h] <;> exact { he with }

theorem disablePrim_tracked : Keeps Tracked (callBackend disablePrim) := fun _ he => { he with }

theorem storeFrequency_tracked (hz : Nat) {e : Engine} (h : Tracked e) : Tracked (storeFrequency hz e) := by
  obtain ⟨ctrl, io⟩ := e
  unfold storeFrequency
  dsimp only
  split <;> exact { h with }

theorem setFrequency_tracked (hz : Nat) : Keeps Tracked (setFrequencyBody hz) :=
  keeps_andThen (keeps_needCap _) fun _ => keeps_andThen (keeps_check _ _) fun _ =>
    keeps_andThen (freqSetPrim_tracked hz) fun _ =>
      keeps_andThen (keeps_update fun _ => storeFrequency_tracked _) fun _ => keeps_done _

theorem freqSet_tracked (hz : Nat) : Keeps Tracked (freqSetBody hz) :=
  keeps_andThen (keeps_needCap _) fun _ => keeps_andThen (keeps_check _ _) fun _ =>
    keeps_andThen (freqSetPrim_tracked hz) fun _ => keeps_done _

theorem addDevice_tracked (n : Nat) : Keeps Tracked (addDeviceBody n) := fun e he =>
  keeps_andThen (keeps_check _ _) (fun _ => keeps_andThen (keeps_check _ _) fun _ =>
    keeps_andThen (keeps_update (f := growChain n) fun _ h => { h with }) fun _ => keeps_done _) e he

theorem enable_tracked : Keeps Tracked enableBody :=
  keeps_andThen (keeps_needCap _) fun _ => keeps_andThen enablePrim_tracked fun _ => keeps_done _

theorem disable_tracked : Keeps Tracked disableBody :=
  keeps_andThen (keeps_needCap _) fun _ => keeps_andThen disablePrim_tracked fun _ => keeps_done _

/-! ### Bare edges on a backend with STATE -/

/-- R261, R272: what the frame needs of a body that ran from `e`: the position is true after the refresh of a success,
and after an error as it stands. -/
def TrackedAtEnd (e : Engine) : Ret Result × Engine → Prop
  | (.ok _, e') => Tracked (refresh e e')
  | (.err _, e') => Tracked e'
  | (.stop _, _) => True

/-- A position kept by the body itself is not disturbed by the refresh. -/
theorem trackedAtEnd_of_keepsUnlessStopped {body : Body Result} (h : KeepsUnlessStopped Tracked body) {e : Engine}
    (he : Tracked e) : TrackedAtEnd e (body e) := by
  have hb := h e he
  rcases hbody : body e with ⟨_ | _ | _, e'⟩ <;> rw [hbody] at hb
  · exact tracked_refresh hb.limit hb.book fun _ => hb.position
  · exact hb
  · trivial

/-- R181, R186, R200, R202: a primitive drives some edges, and an error of any other kind than `TimeoutError` and
`BusFault` comes before the first of them. -/
structure DrivesOrRejects {α : Type} (p : Prim α) (io : Interface) : Prop where
  drives : ∃ es, Drives es io (p io).2
  rejects : ∀ k io', p io = (.err k, io') → k = .timeoutError ∨ k = .busFault ∨ io' = io

theorem transferPrim_drivesOrRejects (tms tdi : BitSeq) (n : Nat) (io : Interface) :
    DrivesOrRejects (transferPrim tms tdi n) io := by
  obtain ⟨es, -, d⟩ := transferPrim_drives tms tdi n io
  refine ⟨⟨es, d⟩, fun k io' h => ?_⟩
  rcases transferPrim_cases tms tdi n io with ⟨_, h', -⟩ | ⟨-, -, -, -, -, h'⟩ <;> rw [h'] at h
  · cases h
    exact .inr (.inr rfl)
  · rcases burst_cases tms tdi io with ⟨_, _, h', -, -⟩ | ⟨_, _, _, h', hk, -⟩ | h' <;> rw [h'] at h <;> cases h
    exact hk.imp_right .inl

theorem rawEdgePrim_drivesOrRejects (m d : Bool) (io : Interface) : DrivesOrRejects (rawEdgePrim m d) io := by
  by_cases hu : Usable io
  · rcases rawEdgePrim_cases m d hu with ⟨io', -, h, dr⟩ | ⟨k, io', -, h, dr⟩
    · exact ⟨⟨_, by rw [h]; exact dr⟩, fun k io'' h' => by rw [h] at h'; cases h'⟩
    · exact ⟨⟨_, by rw [h]; exact dr⟩, fun k io'' h' => by rw [h] at h'; cases h'; exact .inr (.inl rfl)⟩
  · have h := rawEdgePrim_disabled m d hu
    exact ⟨⟨[], by rw [h]; exact drives_refl io⟩, fun k io' h' => by rw [h] at h'; cases h'; exact .inr (.inl rfl)⟩

theorem stateSetPrim_drivesOrRejects (target : TapState) (f : Bool) (io : Interface) :
    DrivesOrRejects (stateSetPrim target f) io := by
  rcases stateSetPrim_cases target f io with ⟨x, h⟩ | ⟨io', h, d⟩ | ⟨k, es, io', h, hk, -, d⟩
  · exact ⟨⟨[], by rw [h]; exact drives_refl io⟩, fun k io' h' => by rw [h] at h'; cases h'⟩
  · exact ⟨⟨_, by rw [h]; exact d⟩, fun k io' h' => by rw [h] at h'; cases h'⟩
  · exact ⟨⟨es, by rw [h]; exact d⟩, fun k io' h' => by rw [h] at h'; cases h'; exact hk.imp_right .inl⟩

/-- R272, R307: a backend operation on a backend with STATE: the refresh follows the edges of a success, a fault clears
`stateKnown`, and a rejection has driven none. -/
theorem trackedAtEnd_driving {α : Type} {p : Prim α} (f : α → Result) {e : Engine} (he : Tracked e)
    (hs : hasCap e.io.backend.spec .state = true) (hp : DrivesOrRejects p e.io) :
    TrackedAtEnd e (andThen (clearOnFault (callBackend p)) (fun a => done (f a)) e) := by
  obtain ⟨⟨es, d⟩, hrej⟩ := hp
  have hcall : callBackend p e = ((p e.io).1, { e with io := (p e.io).2 }) := rfl
  rcases h : p e.io with ⟨a | k | x, io'⟩ <;> rw [h] at d hcall
  · rw [andThen_ok (clearOnFault_ok hcall)]
    exact tracked_refresh_driven he hs d
  · by_cases hk : k = .timeoutError ∨ k = .busFault
    · rw [andThen_err (clearOnFault_fault hcall hk)]
      exact tracked_clearKnown (limitOk_drives he.limit d)
    · obtain ⟨ht, hb⟩ := not_or.mp hk
      obtain rfl := ((hrej k io' h).resolve_left ht).resolve_left hb
      have hcheck : k = .invalidArgument ∨ k = .unsupportedOperation := by
        cases k <;> simp at ht hb ⊢
      rw [andThen_err (clearOnFault_check hcall hcheck)]
      exact he
  · rw [andThen_stop (clearOnFault_stop hcall)]
    trivial

theorem trackedAtEnd_needCap {c : Capability} {f : Unit → Body Result} {e : Engine} (he : Tracked e)
    (h : hasCap e.io.backend.spec c = true → TrackedAtEnd e (f () e)) : TrackedAtEnd e (andThen (needCap c) f e) := by
  cases hc : hasCap e.io.backend.spec c
  · rw [andThen_err (needCap_err hc)]
    exact he
  · rw [andThen_ok (needCap_ok hc)]
    exact h hc

/-! ### The frame and the lifecycle -/

/-- The operations that write nothing in the controller on a backend without STATE (R181, R202) are left out there. -/
def Followed (spec : BackendSpec) (i : Instr) : Prop :=
  hasCap spec .state = false → (∀ m d n, i ≠ .transfer m d n) ∧ ∀ m d, i ≠ .edge m d

/-- R261: the operation is a command whose body, from a true position, leaves one at its end. -/
def FollowsPosition (i : Instr) : Prop :=
  ∃ b, (∀ s, exec i s = command b s) ∧ ∀ e, Tracked e → Followed e.io.backend.spec i → TrackedAtEnd e (b e)

theorem followsPosition_of_keepsUnlessStopped {i : Instr} {b : Body Result} (hb : ∀ s, exec i s = command b s)
    (hk : KeepsUnlessStopped Tracked b) : FollowsPosition i :=
  ⟨b, hb, fun _ he _ => trackedAtEnd_of_keepsUnlessStopped hk he⟩

theorem followsPosition_of_keeps {i : Instr} {b : Body Result} (hb : ∀ s, exec i s = command b s)
    (hk : Keeps Tracked b) : FollowsPosition i :=
  followsPosition_of_keepsUnlessStopped hb (keepsUnlessStopped_of_keeps hk)

/-- R318: every operation in the frame, one by one. -/
theorem takesLock_followsPosition {i : Instr} (h : i.takesLock = true) : FollowsPosition i := by
  cases i with
  | attach => cases h
  | detach => cases h
  | getFrequency => exact followsPosition_of_keeps (fun _ => rfl) keeps_getFrequency
  | setFrequency hz => exact followsPosition_of_keeps (fun _ => rfl) (setFrequency_tracked hz)
  | getState => exact followsPosition_of_keeps (fun _ => rfl) keeps_getState
  | setState target f => exact followsPosition_of_keepsUnlessStopped (fun _ => rfl) (setState_tracked target f)
  | executeScan p d n t b => exact followsPosition_of_keepsUnlessStopped (fun _ => rfl) (executeScan_tracked p d n t b)
  | rawEdge m d => exact followsPosition_of_keepsUnlessStopped (fun _ => rfl) (rawEdge_tracked m d)
  | addDevice n => exact followsPosition_of_keeps (fun _ => rfl) (addDevice_tracked n)
  | buildInstructionPayload t b => exact followsPosition_of_keeps (fun _ => rfl) (keeps_buildInstructionPayload t b)
  | discoverIdentifiers => exact followsPosition_of_keepsUnlessStopped (fun _ => rfl) discoverIdentifiers_tracked
  | dataPadding t => exact followsPosition_of_keeps (fun _ => rfl) (keeps_dataPadding t)
  | transfer m d n =>
    refine ⟨_, fun _ => rfl, fun e he hf => ?_⟩
    have hs := Bool.of_not_eq_false fun hs => (hf hs).1 m d n rfl
    exact trackedAtEnd_driving _ he hs (transferPrim_drivesOrRejects m d n e.io)
  | edge m d =>
    refine ⟨_, fun _ => rfl, fun e he hf => trackedAtEnd_needCap he fun _ => ?_⟩
    have hs := Bool.of_not_eq_false fun hs => (hf hs).2 m d rfl
    exact trackedAtEnd_driving _ he hs (rawEdgePrim_drivesOrRejects m d e.io)
  | freqGet => exact followsPosition_of_keeps (fun _ => rfl) keeps_freqGet
  | freqSet hz => exact followsPosition_of_keeps (fun _ => rfl) (freqSet_tracked hz)
  | stateGet => exact followsPosition_of_keeps (fun _ => rfl) keeps_stateGet
  | stateSet target f =>
    exact ⟨_, fun _ => rfl, fun e he _ => trackedAtEnd_needCap he fun hs =>
      trackedAtEnd_driving _ he hs (stateSetPrim_drivesOrRejects target f e.io)⟩
  | enable => exact followsPosition_of_keeps (fun _ => rfl) enable_tracked
  | disable => exact followsPosition_of_keeps (fun _ => rfl) disable_tracked
  | supports c => exact followsPosition_of_keeps (fun _ => rfl) (keeps_supports c)
  | next s b => exact followsPosition_of_keeps (fun _ => rfl) (keeps_done _)
  | path a b => exact followsPosition_of_keeps (fun _ => rfl) (keeps_done _)
  | hardReset =>
    exact followsPosition_of_keepsUnlessStopped (fun _ => rfl) (keepsUnlessStopped_returning hardReset_tracked _)
  | run s b => exact followsPosition_of_keeps (fun _ => rfl) (keeps_done _)

/-- R260, R261: the lock and the end of a command leave the position true where the body does. -/
theorem command_tracked {body : Body Result} {s t : State} (hs : Tracked s.toEngine)
    (hb : TrackedAtEnd (grant s).toEngine (body (grant s).toEngine)) (h : command body s = .next t) :
    Tracked t.toEngine := by
  rcases command_cases h with ⟨-, rfl⟩ | ⟨-, -, -, rfl⟩ | ⟨-, -, -, rfl⟩ | ⟨-, -, -, rfl⟩ | ⟨-, -, -, rfl⟩ |
      ⟨-, v, e, he, rfl⟩ | ⟨-, k, e, he, rfl⟩
  · exact hs
  · exact hs
  · unfold expireWait
    cases s.lockTimeoutClears
    · exact tracked_withLock _ hs
    · exact tracked_of_unknown hs.limit rfl
  · exact tracked_withLock _ hs
  · exact tracked_withLock _ hs
  · rw [he] at hb
    exact tracked_withLock _ hb
  · rw [he] at hb
    exact tracked_withLock _ hb

/-- R270, R37: an `attach` that constructs leaves the position not known. -/
theorem execAttach_synced {layout : List Nat} {spec : BackendSpec} {s t : State} (hs : Synced s.toEngine)
    (h : execAttach layout spec s = .next t) : Synced t.toEngine := by
  rcases execAttach_cases h with ⟨k, outcomes, rfl⟩ | ⟨-, rfl⟩
  · exact hs
  · exact synced_of_unknown rfl

/-- R271: everything a `detach` that gives a next state can do. -/
theorem execDetach_cases {s t : State} (h : execDetach s = .next t) :
    t.toEngine = s.toEngine ∨ t.toEngine = tearDown (withLock { s.ctrl.lock with waiters := [] } s.toEngine) := by
  unfold execDetach at h
  split at h
  · cases h
    exact .inl rfl
  split at h
  · cases h
  cases h
  exact .inr (by rw [complete_toEngine, setEngine_toEngine, dismissWaiters_toEngine])

/-- R271, R201: disabling the backend moves no position. -/
theorem tearDown_synced {e : Engine} (h : Synced e) : Synced (tearDown e) := by
  unfold tearDown
  split <;> exact h

theorem execDetach_synced {s t : State} (hs : Synced s.toEngine) (h : execDetach s = .next t) : Synced t.toEngine := by
  rcases execDetach_cases h with ht | ht <;> rw [ht]
  · exact hs
  · exact tearDown_synced hs

/-- Settles O60: the two operations of the lifecycle, and those of the frame, whose bodies leave the position true. -/
theorem commandsKeepTheKnownPosition : Obligations.CommandsKeepTheKnownPosition := by
  intro i s t hf hl hs ht
  cases hi : i.takesLock
  · cases i with
    | attach layout spec => exact execAttach_synced hs ht
    | detach => exact execDetach_synced hs ht
    | _ => cases hi
  · obtain ⟨b, hexec, hb⟩ := takesLock_followsPosition hi
    rw [hexec] at ht
    have htracked : Tracked s.toEngine := ⟨hl, hs.1, hs.2⟩
    have h := command_tracked htracked (hb _ (tracked_withLock (grantedLock s) htracked) hf) ht
    exact ⟨h.position, h.book⟩

/-! ### After detach -/

/-- Settles O51: the frame checks that the controller is attached, and so does a second `detach`. -/
theorem detachedAnswersInvalidArgument : Obligations.DetachedAnswersInvalidArgument := by
  intro i s ha hne
  cases hi : i.takesLock
  · cases i with
    | attach layout b => exact absurd rfl (hne layout b)
    | detach => exact if_pos ha
    | _ => cases hi
  · obtain ⟨b, hexec, -⟩ := takesLock_command hi
    rw [hexec]
    exact if_pos ha

/-! ### Construction -/

/-- Settles O57, by the fields of the state. -/
theorem constructionState : Obligations.ConstructionState :=
  ⟨rfl, ⟨rfl, rfl, rfl⟩, rfl, rfl, rfl, rfl, rfl, by decide, rfl, ⟨rfl, rfl, rfl⟩, rfl⟩

/-- R150, R158: the start state of a fixture is a reference chain, whatever the TAP state. -/
theorem referenceStart_referenceOk (opcodes : List BitSeq) (tap : TapState) (first : Nat) {fixture : Fixture}
    (h : ∀ x ∈ fixture, 1 ≤ x.1) :
    ReferenceOk opcodes { tap := tap, devices := some (referenceStart opcodes 0 first fixture) } := by
  rintro ds hds j d hj
  obtain rfl := Option.some.inj hds
  obtain ⟨hok, hop, hsel⟩ := referenceStart_spec opcodes 0 first h hj
  exact ⟨hok, by rw [hop, Nat.zero_add], fun _ => hsel⟩

/-- R158: at its start every data shift stage is that of the register selected. -/
theorem referenceStart_startsSelected (opcodes : List BitSeq) (j first : Nat) {fixture : Fixture}
    (h : ∀ x ∈ fixture, 1 ≤ x.1) : ∀ d ∈ referenceStart opcodes j first fixture, StartsSelected d := by
  intro d hd
  obtain ⟨k, hk⟩ := List.mem_iff_getElem?.mp hd
  obtain ⟨-, -, hsel⟩ := referenceStart_spec opcodes j first h hk
  exact hsel

/-- R37, R340: the machine after construction keeps the form of its data. -/
theorem reset_machineOk : MachineOk State.reset where
  chain := ⟨rfl, by decide⟩
  lock := lockOk_idle List.nodup_nil
  frequency := by decide
  rate := by decide
  limit := by rintro m ⟨⟩
  outstanding := rfl
  devices := referenceStart_referenceOk [] _ 3 (by simp)

/-- Settles O58: the form of the data at reset, and the start of a fixture device by device. -/
theorem constructionMeetsTheInvariant : Obligations.ConstructionMeetsTheInvariant :=
  ⟨reset_machineOk, fun _ io h => ⟨referenceStart_referenceOk io.opcodes _ _ h, _, rfl,
    referenceStart_params _ _ _ _, referenceStart_startsSelected _ _ _ h⟩⟩

end Sys2Proof.Machine
end

section
/-! SUPPORT. The records of operations (R86, R87): the decoder reads back what the encoder puts, and a record it rejects
is answered without the lock (R91, R261). -/

namespace Sys2Proof

open Sys2Proof.Machine

/-! ### The operands of every operation -/

/-- R87: the codes with operand fields are the listed ones. -/
theorem operandsOf_listed {code : Nat} {field : RecordField (Except Reject Instr)} (h : operandsOf code = some field) :
    code ∈ listedCodes := by
  unfold operandsOf at h
  split at h
  case h_26 => cases h
  all_goals decide

theorem operandsOf_eq_none {code : Nat} (h : code ∉ listedCodes) : operandsOf code = none :=
  Option.eq_none_iff_forall_ne_some.mpr fun _ hf => h (operandsOf_listed hf)

theorem listedCodes_lt : ∀ code ∈ listedCodes, code < 256 := by decide

theorem reads_instrOf {m : RecordField Instr} {b : BitSeq} {i : Instr} (h : Reads m b i) : Reads (instrOf m) b (.ok i) :=
  reads_last h (reads_done _)

/-- The two bits of an edge. -/
theorem reads_bitPair {α : Type} (f : Bool → Bool → α) (m d : Bool) :
    Reads (fieldThen takeBit fun x => fieldThen takeBit fun y => fieldDone (f x y)) [m, d] (f m d) :=
  reads_then (reads_bit m) (reads_last (reads_bit d) (reads_done _))

/-- A state and a bit. -/
theorem reads_tapBit {α : Type} (f : TapState → Bool → α) (t : TapState) (b : Bool) :
    Reads (fieldThen takeTap fun x => fieldThen takeBit fun y => fieldDone (f x y)) (putTap t ++ [b]) (f t b) :=
  reads_then (reads_tap t) (reads_last (reads_bit b) (reads_done _))

/-- R8: the conditions of a backend's parameters that make its fields readable. -/
theorem backend_wf_fields {b : BackendSpec} (h : b.wf = true) :
    b.variant.limitOk = true ∧ (∀ m, b.maxScan = some m → 1 ≤ m) ∧ 1 ≤ b.rate := by
  simp only [BackendSpec.wf, Bool.and_eq_true, decide_eq_true_eq] at h
  obtain ⟨⟨⟨hlimit, -⟩, hscan⟩, hrate⟩ := h
  refine ⟨hlimit, fun m hm => ?_, hrate⟩
  rw [hm] at hscan
  exact of_decide_eq_true hscan

/-- R87, log entry 2: the layout and the backend of a well-formed `attach` are read back, and pass the check. -/
theorem reads_attach (l : List Nat) {b : BackendSpec} (h : b.wf = true) :
    Reads takeAttach (putLayout l ++ putBackend b) (.ok (.attach l b)) := by
  obtain ⟨hlimit, hscan, hrate⟩ := backend_wf_fields h
  simp only [putLayout, putBackend, List.append_assoc]
  refine reads_then (reads_nat _) <| reads_then (reads_nats l) <| reads_then (reads_fixed b.caps.isLt) <|
    reads_then (reads_variant hlimit) <| reads_then (reads_limit hscan) <| reads_last (reads_nat _) ?_
  simp only [BitVec.ofNat_toNat, BitVec.setWidth_eq, Nat.sub_add_cancel hrate, h, if_true]
  exact reads_done _

/-- R86, R87: the fields of an operation's code read back all its operands. -/
theorem operandsOf_reads {i : Instr} (hw : i.wf = true) :
    ∃ field, operandsOf (opcodeOf i) = some field ∧ Reads field (operandBits i) (.ok i) := by
  cases i with
  | attach l b => exact ⟨_, rfl, reads_attach l hw⟩
  | getFrequency | getState | discoverIdentifiers | detach | freqGet | stateGet | enable | disable | hardReset =>
    exact ⟨_, rfl, reads_instrOf (reads_done _)⟩
  | setFrequency n | addDevice n | dataPadding n | freqSet n =>
    exact ⟨_, rfl, reads_instrOf (reads_last (reads_nat n) (reads_done _))⟩
  | setState t b | stateSet t b | next t b => exact ⟨_, rfl, reads_instrOf (reads_tapBit _ t b)⟩
  | rawEdge m d | edge m d => exact ⟨_, rfl, reads_instrOf (reads_bitPair _ m d)⟩
  | executeScan p d n e b =>
    refine ⟨_, rfl, reads_instrOf ?_⟩
    simp only [operandBits, List.append_assoc]
    exact reads_then (reads_target p) <| reads_then (reads_direction d) <| reads_then (reads_nat n) <|
      reads_then (reads_tap e) <| reads_last (reads_seq b) (reads_done _)
  | buildInstructionPayload n b =>
    exact ⟨_, rfl, reads_instrOf (reads_then (reads_nat n) (reads_last (reads_seq b) (reads_done _)))⟩
  | transfer m d n =>
    refine ⟨_, rfl, reads_instrOf ?_⟩
    simp only [operandBits, List.append_assoc]
    exact reads_then (reads_seq m) <| reads_then (reads_seq d) <| reads_last (reads_nat n) (reads_done _)
  | supports c =>
    refine ⟨_, rfl, reads_instrOf (reads_last (reads_fixed c.isLt) ?_)⟩
    rw [BitVec.ofNat_toNat, BitVec.setWidth_eq]
    exact reads_done _
  | path s t => exact ⟨_, rfl, reads_instrOf (reads_then (reads_tap s) (reads_last (reads_tap t) (reads_done _)))⟩
  | run s b => exact ⟨_, rfl, reads_instrOf (reads_then (reads_tap s) (reads_last (reads_seq b) (reads_done _)))⟩

/-- Settles O7: the fields of each operation's code read back its operands from the bits packed into the record. -/
theorem decodeInvertsEncode : Obligations.DecodeInvertsEncode := by
  intro i hw
  obtain ⟨field, hf, hr⟩ := operandsOf_reads hw
  exact decode_of_reads (listedCodes_lt _ (operandsOf_listed hf)) hf hr

/-- Settles O8, by running the decoder on the ten records. -/
theorem sampleRecordsDecode : Obligations.SampleRecordsDecode := by
  unfold Obligations.SampleRecordsDecode
  decide

/-! ### Rejected records -/

/-- R91: a code that R87 does not list is rejected by name. -/
theorem decode_unlisted {code : Byte} (rest : List Byte) (h : code.toNat ∉ listedCodes) :
    decode (code :: rest) = .error (.unknownOperation code.toNat) := by
  unfold decode
  dsimp only
  rw [operandsOf_eq_none h]

/-- R91, R261: a fetched record that does not decode is rejected. -/
theorem step_reject {s s' : State} {record : List Byte} {e : Reject} (hf : fetch s = (some record, s'))
    (hd : decode record = .error e) : step s = .next (rejectRecord s') := by
  unfold step
  rw [hf]
  dsimp only
  rw [hd]

/-- Settles O10: an unlisted code has no operand fields, and the rejection only delivers its answer. -/
theorem rejectedRecordsAnswerInvalidArgument : Obligations.RejectedRecordsAnswerInvalidArgument :=
  ⟨fun _ rest h => decode_unlisted rest h, fun _ _ _ _ hf hd => step_reject hf hd⟩

end Sys2Proof
end

section
/-! SUPPORT. The TAP State Machine as its four operations answer it (R110 to R117): canonical paths are the one shortest
sequences, and what else is said of them and of one-edges follows from that; the hard reset, and the instructions it
leaves in the devices (R116, R155). -/

namespace Sys2Proof.Machine

/-! ### Operations that only answer -/

/-- R118, R318: a command that has a value and no other effect. -/
theorem command_done {s : State} (v : Result) (h : Ready s) : command (done v) s = .next (answer s s.toEngine v) :=
  (command_ready h).trans (finish_ok (refresh_same rfl))

/-! ### Canonical paths -/

/-- R113: a canonical path is no longer than any first step followed by the canonical path from there, and of the same
length only if it is the same. -/
theorem tapPath_step (a b : TapState) (x : Bool) :
    x :: tapPath (tapNext a x) b = tapPath a b ∨ (tapPath a b).length < (tapPath (tapNext a x) b).length + 1 := by
  cases a <;> cases x <;> cases b <;> decide

/-- R113: every other sequence to the target is longer than the canonical path, by induction along the sequence. -/
theorem tapPath_shortest {a b : TapState} {p : BitSeq} (h : tapRun a p = b) :
    p = tapPath a b ∨ (tapPath a b).length < p.length := by
  induction p generalizing a with
  | nil =>
    obtain rfl : a = b := h
    exact .inl (tapPath_self a).symm
  | cons x r ih =>
    have hstep := tapPath_step a b x
    rw [List.length_cons]
    rcases ih h with hr | hr
    · rwa [← hr] at hstep
    · rcases hstep with hs | hs
      · rw [← hs, List.length_cons]
        exact .inr (by omega)
      · exact .inr (by omega)

/-- R113: nothing shorter than the canonical path reaches its target. -/
theorem tapRun_ne_of_shorter {a b : TapState} {p : BitSeq} (h : p.length < (tapPath a b).length) : tapRun a p ≠ b := by
  intro hp
  rcases tapPath_shortest hp with rfl | hl
  · exact absurd h (Nat.lt_irrefl _)
  · omega

/-- R112: the canonical path to Reset is the state's own count of one-edges. -/
theorem tapPath_reset (s : TapState) : tapPath s .reset = ones (onesToReset s) := by cases s <;> rfl

theorem onesToReset_le (s : TapState) : onesToReset s ≤ 5 := by cases s <;> decide

/-- Settles O3: a shortest path is a step followed by a shortest path, so the table is compared step by step. -/
theorem pathIsTheShortest : Obligations.PathIsTheShortest :=
  ⟨fun _ _ _ h => command_done _ h, fun a b => ⟨tapRun_tapPath a b, tapPath_length_le a b⟩,
    fun _ _ _ h => tapPath_shortest h, fun a => ⟨tapPath_self a, tapPath_reset a, onesToReset_le a⟩,
    rfl, rfl, rfl, fun _ _ => rfl⟩

/-! ### The hard reset -/

theorem clearOnError_ok {α : Type} {m : Body α} {e e' : Engine} {a : α} (h : m e = (.ok a, e')) :
    clearOnError m e = (.ok a, e') := by
  unfold clearOnError
  rw [h]

theorem clearOnError_err {α : Type} {m : Body α} {e e' : Engine} {k : ErrKind} (h : m e = (.err k, e')) :
    clearOnError m e = (.err k, clearKnown e') := by
  unfold clearOnError
  rw [h]

/-- R116, R186: the hard reset where its backend call fails. -/
theorem hardReset_fails {e : Engine} (hu : Usable e.io) (hl : LimitOk e.io) {k : ErrKind} {n : Nat}
    (h : failureOf e.io.backend.spec.variant (nextOutcome e.io) = some (k, n)) :
    ∃ io', hardReset e = (.err k, { e with io := io' }) ∧ Drives (resetEdges.take n) e.io io' := by
  obtain ⟨io', hb, d⟩ := burst_fails (tms := ones Config.hardResetEdges) (tdi := zeros Config.hardResetEdges) h
  refine ⟨io', andThen_err ?_, d⟩
  have hlim : overLimit (maxTransferBits e.io.backend.spec) Config.hardResetEdges = false :=
    overLimit_false.mpr fun m hm => (by decide : Config.hardResetEdges ≤ 6).trans (hl m hm)
  unfold callBackend
  rw [transferPrim_burst (n := Config.hardResetEdges) hu (by decide) rfl rfl hlim, hb]

/-- R116, R318: `HARD_RESET` where the backend serves. The bookkeeping of the backend is at Reset as well, so the refresh
of R272 changes nothing. -/
theorem exec_hardReset_completes {s : State} (hr : Ready s) (hl : LimitOk s.io) (hf : Serves s.io) :
    ∃ io', exec .hardReset s = .next (answer s (setKnown .reset { s.toEngine with io := io' }) (.bits (ones 5))) ∧
      Drives resetEdges s.io io' := by
  obtain ⟨io', h, d, -, -⟩ := hardReset_completes (eng := (grant s).toEngine) hf hl
  have hbody : hardResetBody (grant s).toEngine =
      (.ok (.bits (ones 5)), withLock (grantedLock s) (setKnown .reset { s.toEngine with io := io' })) :=
    andThen_ok (clearOnError_ok h)
  have hbook : io'.backend.book = .reset := d.book.trans (tapRun_ones_five _)
  refine ⟨io', ?_, d⟩
  calc exec .hardReset s = finishCommand (grant s) (hardResetBody (grant s).toEngine) := command_ready hr
    _ = _ := by
      rw [hbody]
      exact finish_ok (refresh_consistent hbook)

/-- R116, R307, R318: `HARD_RESET` where its backend call fails. -/
theorem exec_hardReset_fails {s : State} (hr : Ready s) (hl : LimitOk s.io) (hu : Usable s.io) {k : ErrKind} {n : Nat}
    (h : failureOf s.io.backend.spec.variant (nextOutcome s.io) = some (k, n)) :
    ∃ io', exec .hardReset s = .next (answer s (clearKnown { s.toEngine with io := io' }) (.error k)) ∧
      Drives (resetEdges.take n) s.io io' := by
  obtain ⟨io', he, d⟩ := hardReset_fails (e := (grant s).toEngine) hu hl h
  have hbody : hardResetBody (grant s).toEngine =
      (.err k, withLock (grantedLock s) (clearKnown { s.toEngine with io := io' })) :=
    andThen_err (clearOnError_err he)
  refine ⟨io', ?_, d⟩
  calc exec .hardReset s = finishCommand (grant s) (hardResetBody (grant s).toEngine) := command_ready hr
    _ = _ := by
      rw [hbody]
      exact finish_err

/-! ### Reset and the instructions of the devices -/

/-- R155: the default instruction is one of the parameters of a device. -/
theorem defaultInstruction_of_params {a b : List RefDevice} (h : a.map paramsOf = b.map paramsOf) :
    a.map defaultInstruction = b.map defaultInstruction := by
  have hp : ∀ l : List RefDevice,
      l.map defaultInstruction = (l.map paramsOf).map fun x => if x.2.1.isSome then x.2.2 else ones x.1 := by
    intro l
    rw [List.map_map]
    rfl
  rw [hp, hp, h]

/-- R155: an edge that enters Reset leaves every device its default instruction. -/
theorem targetEdge_defaultInstruction {e : Edge} {t : Target} {ds : List RefDevice}
    (h : tapNext t.tap e.tms = .reset) (hds : t.devices = some ds) :
    ∃ ds', (targetEdge e t).devices = some ds' ∧ ds'.map (·.irLatch) = ds.map defaultInstruction := by
  refine ⟨onEntry .reset (loadOrShift t.tap e.tdi ds), ?_, ?_⟩
  · unfold targetEdge
    rw [h, hds]
    rfl
  · calc (onEntry .reset (loadOrShift t.tap e.tdi ds)).map (·.irLatch)
        = (loadOrShift t.tap e.tdi ds).map defaultInstruction := List.map_map
      _ = ds.map defaultInstruction := defaultInstruction_of_params (loadOrShift_params _ _ _)

/-- R155: edges that end in Reset leave every device its default instruction: the last of them enters Reset, and those
before it keep the parameters. -/
theorem targetRun_defaultInstruction {es : List Edge} {t : Target} {ds : List RefDevice} (hne : es ≠ [])
    (h : (targetRun es t).tap = .reset) (hds : t.devices = some ds) :
    ∃ ds', (targetRun es t).devices = some ds' ∧ ds'.map (·.irLatch) = ds.map defaultInstruction := by
  obtain ⟨pre, last, rfl⟩ := List.eq_nil_or_concat es |>.resolve_left hne
  rw [List.concat_eq_append, targetRun_append] at h ⊢
  have hparams := targetRun_params pre t
  rw [hds] at hparams
  obtain ⟨mid, hmid, hp⟩ := Option.map_eq_some_iff.mp hparams
  obtain ⟨ds', hds', hlatch⟩ := targetEdge_defaultInstruction h hmid
  exact ⟨ds', hds', hlatch.trans (defaultInstruction_of_params hp)⟩

/-- Settles O52: the two ends of the hard reset, and Reset's effect on the instructions. -/
theorem hardResetCompletes : Obligations.HardResetCompletes := by
  intro s hr hl
  refine ⟨fun hf => ?_, fun k hu => ⟨fun hk => ?_, fun hk hv => ?_⟩⟩
  · obtain ⟨io', h, d⟩ := exec_hardReset_completes hr hl hf
    have htap : (targetRun resetEdges s.io.target).tap = .reset := by
      rw [targetRun_tap]
      exact tapRun_ones_five _
    refine ⟨io', h, d, by rw [d.target, htap], fun ds hds => ?_⟩
    rw [d.target]
    exact targetRun_defaultInstruction (by decide) htap hds
  · exact exec_hardReset_fails hr hl hu (by rw [hk]; rfl)
  · refine exec_hardReset_fails hr hl hu ?_
    rw [hk]
    cases hvar : s.io.backend.spec.variant with
    | bitbang => exact absurd hvar hv
    | accelerated m => rfl
    | bulk m => rfl

/-! ### The graph -/

/-- R110: every state has its row in the table. -/
theorem mem_transitionTable (s : TapState) : (s, tapNext s false, tapNext s true) ∈ transitionTable := by
  cases s <;> decide

/-- R110: the rows of the table. -/
theorem tapNext_of_row :
    ∀ row ∈ transitionTable, tapNext row.1 false = row.2.1 ∧ tapNext row.1 true = row.2.2 := by decide

/-- R81, R110: the states that are stable are those with a self-loop. -/
theorem stable_iff (s : TapState) : stable s = true ↔ tapNext s false = s ∨ tapNext s true = s := by
  cases s <;> decide

/-- R110: the edges into Reset. -/
theorem tapNext_eq_reset_iff (s : TapState) (b : Bool) :
    tapNext s b = .reset ↔ b = true ∧ (s = .reset ∨ s = .selectIR) := by
  cases s <;> cases b <;> decide

/-- Settles O1, by the rows of the table. -/
theorem nextFollowsTheGraph : Obligations.NextFollowsTheGraph :=
  ⟨fun _ _ _ h => command_done _ h, tapNext_of_row, fun s => ⟨_, mem_transitionTable s, rfl⟩, stable_iff,
    tapNext_eq_reset_iff, fun _ _ => rfl⟩

/-- Settles O2, by the equations of `tapRun`. -/
theorem runFollowsNext : Obligations.RunFollowsNext :=
  ⟨fun _ _ _ h => command_done _ h, tapRun_nil, tapRun_cons, fun s a b => tapRun_append a b s, rfl, fun _ _ => rfl⟩

/-! ### The laws of canonical paths -/

/-- R115: no part a canonical path begins with, short of the whole, reaches its target. -/
theorem tapRun_take_ne {a b : TapState} {n : Nat} (h : n < (tapPath a b).length) :
    tapRun a ((tapPath a b).take n) ≠ b :=
  tapRun_ne_of_shorter (by rw [List.length_take_of_le h.le]; exact h)

theorem tapPath_shiftDR_length_le (s : TapState) : (tapPath s .shiftDR).length ≤ 5 := by cases s <;> decide

/-- R115: the states from which a path to ShiftIR takes 6 bits. -/
theorem tapPath_shiftIR_length_eq_six (s : TapState) :
    s = .captureDR ∨ s = .shiftDR ∨ s = .pauseDR ↔ (tapPath s .shiftIR).length = 6 := by
  cases s <;> decide

/-- R115: a path that leaves the Pause or Shift state of `p` for the other path's Shift state begins with two one-edges,
through an Exit state into Update. -/
theorem tapRun_take_two_updateOf {p q : ScanTarget} {s : TapState} (hpq : p ≠ q) (hs : s = pauseOf p ∨ s = shiftOf p) :
    2 ≤ (tapPath s (shiftOf q)).length ∧ tapRun s ((tapPath s (shiftOf q)).take 2) = updateOf p := by
  rcases hs with rfl | rfl <;> revert hpq <;> cases p <;> cases q <;> decide

/-- Settles O4: nothing shorter than a canonical path reaches its target, and the rest is read from the table. -/
theorem canonicalPathLaws : Obligations.CanonicalPathLaws := by
  refine ⟨fun a b => ⟨tapRun_tapPath a b, fun _ => tapRun_take_ne⟩,
    fun s => ⟨tapPath_shiftDR_length_le s, tapPath_shiftOf_length_le s .instruction⟩, fun p => ?_,
    tapPath_shiftIR_length_eq_six, fun s hs => ?_, rfl, fun p q s hpq hs => ⟨2, tapRun_take_two_updateOf hpq hs⟩⟩
  · cases p <;> exact ⟨rfl, rfl, rfl⟩
  · rcases hs with rfl | rfl | rfl <;> rfl

/-! ### One-edges -/

/-- R112: no count of one-edges below the state's own reaches Reset. -/
theorem tapRun_ones_ne_reset {s : TapState} {k : Nat} (h : k < onesToReset s) : tapRun s (ones k) ≠ .reset :=
  tapRun_ne_of_shorter (by rw [tapPath_reset, ones_length, ones_length]; exact h)

/-- R112: at Reset further one-edges stay. -/
theorem tapRun_reset_ones (m : Nat) : tapRun .reset (ones m) = .reset := by
  induction m with
  | zero => rfl
  | succ m ih => exact ih

/-- Settles O5: the ones to Reset are its canonical path, and ShiftDR is a state that needs all five. -/
theorem fiveOnesReachReset : Obligations.FiveOnesReachReset := by
  refine ⟨tapRun_ones_five, fun s => ⟨?_, fun _ => tapRun_ones_ne_reset⟩, fun m h => ?_, tapRun_reset_ones⟩
  · rw [← tapPath_reset]
    exact tapRun_tapPath s .reset
  · exact Nat.le_of_not_lt fun hm => tapRun_ones_ne_reset (s := .shiftDR) hm (h .shiftDR)

end Sys2Proof.Machine
end

section
/-! SUPPORT. The chain as the engine keeps it (R140 to R145): what its operations answer and write, and that no
operation but `attach` takes a device or an identifier from it (R142, R148, R26). -/

namespace Sys2Proof.Machine

/-! ### Padding -/

/-- R29: in a chain whose padding is recomputed, what comes before a device, its own length and what comes after it make
the total. -/
theorem padding_makes_total {ch : List ChainDevice} (h : recompute ch = ch) {i : Nat} {d : ChainDevice}
    (hd : ch[i]? = some d) : d.bypassBeforeBits + d.irLength + d.bypassAfterBits = totalIr ch := by
  have hp : placed ch i d = d := recompute_eq_self.mp h i d hd
  have hbefore : totalIr (ch.take i) = d.bypassBeforeBits := congrArg (·.bypassBeforeBits) hp
  have hafter : totalIr (ch.drop (i + 1)) = d.bypassAfterBits := congrArg (·.bypassAfterBits) hp
  rw [← hbefore, ← hafter]
  exact totalIr_split hd

/-- R28, R29: a chain with a device has instruction bits. -/
theorem totalIr_ne_zero {ch : List ChainDevice} (h : ChainOk ch) {i : Nat} {d : ChainDevice} (hd : ch[i]? = some d) :
    totalIr ch ≠ 0 := by
  obtain ⟨hpadding, hpositive⟩ := h
  have hsum := padding_makes_total hpadding hd
  have hlength := hpositive d (List.mem_of_getElem? hd)
  omega

/-- Settles O13: a recomputation places every device by its position, and the padding of a device is the rest of
the total. -/
theorem recomputeGivesPadding : Obligations.RecomputeGivesPadding := by
  refine ⟨fun ch i => ?_, fun ch d h hd => ?_, recompute_recompute, totalIr_eq_sum, fun ch n => ⟨_, rfl, rfl, rfl⟩⟩
  · rw [recompute_getElem?]
    congr 1
    funext d
    simp only [placed, totalIr_eq_sum]
  · obtain ⟨i, hi⟩ := List.mem_iff_getElem?.mp hd
    exact padding_makes_total h hi

/-! ### Operations that drive no edge -/

/-- R261: a command whose body ends in a value and leaves the interface alone. -/
theorem command_value {body : Body Result} {s : State} {v : Result} {e : Engine} (hr : Ready s)
    (hb : body (grant s).toEngine = (.ok v, withLock (grantedLock s) e)) (hio : e.io = s.io) :
    command body s = .next (answer s e v) := by
  rw [command_ready hr, hb]
  exact finish_ok (refresh_same hio)

/-- R261: a command whose body ends in an error. -/
theorem command_error {body : Body Result} {s : State} {k : ErrKind} {e : Engine} (hr : Ready s)
    (hb : body (grant s).toEngine = (.err k, withLock (grantedLock s) e)) :
    command body s = .next (answer s e (.error k)) := by
  rw [command_ready hr, hb]
  exact finish_err

/-- R141: a positive length on a chain that may grow. -/
theorem addDeviceBody_ok {n : Nat} {e : Engine} (hn : n ≠ 0) (hf : e.ctrl.chainFrozen = false) :
    addDeviceBody n e = (.ok .ack, growChain n e) := by
  unfold addDeviceBody
  rw [bne_iff_ne.mpr hn, andThen_ok (check_true _ _), hf]
  rfl

/-- R141: a zero length, or a frozen chain. -/
theorem addDeviceBody_err {n : Nat} {e : Engine} (h : n = 0 ∨ e.ctrl.chainFrozen = true) :
    addDeviceBody n e = (.err .invalidArgument, e) := by
  unfold addDeviceBody
  by_cases hn : n = 0
  · subst hn
    rfl
  · rw [bne_iff_ne.mpr hn, andThen_ok (check_true _ _), h.resolve_left hn]
    rfl

/-- R142: an append leaves the lengths and the identifiers of the devices there. -/
theorem appendDevice_devices (ch : List ChainDevice) (n : Nat) :
    (appendDevice ch n).map (fun d => (d.irLength, d.idcode)) =
      ch.map (fun d => (d.irLength, d.idcode)) ++ [(n, none)] := by
  have hzip : ∀ l : List ChainDevice,
      l.map (fun d => (d.irLength, d.idcode)) = (l.map (·.irLength)).zip (l.map (·.idcode)) := fun l =>
    List.zip_map'.symm
  unfold appendDevice
  rw [hzip, recompute_irLength, recompute_idcode, ← hzip, List.map_append]
  rfl

/-- Settles O14: the checks of the body in both outcomes, and the append. -/
theorem addDeviceAppends : Obligations.AddDeviceAppends :=
  ⟨fun _ _ hr hn hf => command_value hr (addDeviceBody_ok hn hf) rfl,
    fun _ _ hr h => command_error hr (addDeviceBody_err h),
    fun ch n => ⟨appendDevice_devices ch n, recompute_recompute _, rfl⟩⟩

/-- R143: no such device, or an instruction of another length. -/
theorem buildPayload_err {t : Nat} {ib : BitSeq} {e : Engine}
    (h : ∀ d, e.ctrl.chain[t]? = some d → ib.length ≠ d.irLength) :
    buildPayload t ib e = (.err .invalidArgument, e) := by
  unfold buildPayload
  cases hd : e.ctrl.chain[t]? with
  | none => rfl
  | some d => exact if_neg (h d hd)

/-- Settles O15: the two ends of `buildPayload`, and the padding of a device as the rest of the total. -/
theorem payloadPadsWithOnes : Obligations.PayloadPadsWithOnes := by
  refine ⟨fun s t ib d hr hd hl => command_value hr (andThen_ok (buildPayload_ok hd hl)) rfl,
    fun s t ib hr h => command_error hr (andThen_err (buildPayload_err h)), fun ch t ib d h hd hl => ⟨?_, rfl⟩⟩
  rw [List.length_append, List.length_append, ones_length, ones_length, hl]
  exact padding_makes_total h hd

/-- Settles O16, by the range check of the body. -/
theorem dataPaddingCountsDevices : Obligations.DataPaddingCountsDevices :=
  fun _ _ hr => ⟨fun h => command_value hr (if_pos h) rfl, fun h => command_error hr (if_neg (Nat.not_lt.mpr h)), rfl⟩

/-! ### What every operation keeps of the chain -/

/-- R142, R148, R26: the engine's chain has every device of `before` at its place with its length, and its identifier
where it had one; and it is still frozen and no longer, if it was frozen. -/
structure ChainGrewFrom (before : Controller) (e : Engine) : Prop where
  devices : ∀ (k : Nat) (d : ChainDevice), before.chain[k]? = some d → ∃ d', e.ctrl.chain[k]? = some d' ∧
    d'.irLength = d.irLength ∧ (d.idcode.isSome = true → d'.idcode = d.idcode)
  frozen : before.chainFrozen = true → e.ctrl.chainFrozen = true ∧ e.ctrl.chain.length = before.chain.length

theorem chainGrewFrom_refl (e : Engine) : ChainGrewFrom e.ctrl e :=
  ⟨fun _ d hd => ⟨d, hd, rfl, fun _ => rfl⟩, fun hf => ⟨hf, rfl⟩⟩

/-- R141: an append comes after the devices there, and only on a chain that is not frozen. -/
theorem chainGrewFrom_growChain {c : Controller} {e : Engine} (h : ChainGrewFrom c e) (n : Nat)
    (hf : e.ctrl.chainFrozen = false) : ChainGrewFrom c (growChain n e) where
  devices k d hd := by
    obtain ⟨d1, hd1, hlen1, hid1⟩ := h.devices k d hd
    obtain ⟨d2, hd2, hlen2, hid2⟩ := appendDevice_getElem? n hd1
    exact ⟨d2, hd2, hlen2.trans hlen1, fun hs => hid2.trans (hid1 hs)⟩
  frozen hc := absurd (h.frozen hc).1 (by rw [hf]; decide)

/-- R148: an identifier is written only where there is none. -/
theorem chainGrewFrom_setIdcode {c : Controller} {e : Engine} (h : ChainGrewFrom c e) (i : Nat) (v : BitVec 32)
    (hi : ∀ d, e.ctrl.chain[i]? = some d → d.idcode = none) : ChainGrewFrom c (setIdcode i v e) where
  devices k d hd := by
    obtain ⟨d1, hd1, hlen, hid⟩ := h.devices k d hd
    rw [setIdcode_getElem?, hd1, Option.map_some]
    refine ⟨_, rfl, ?_, fun hs => ?_⟩
    · split <;> exact hlen
    · split
      · subst i
        rw [← hid hs, hi d1 hd1] at hs
        cases hs
      · exact hid hs
  frozen hc := by
    rw [setIdcode_length]
    exact h.frozen hc

/-- R26: every change the operations of the frame are made of leaves the chain, or appends to it, or writes a missing
identifier; and none takes the freeze away. -/
theorem chainGrewFrom_closed (c : Controller) : Closed (ChainGrewFrom c) where
  clear _ h := { h with }
  current _ _ h := { h with }
  known _ _ h := { h with }
  freeze _ h := ⟨h.devices, fun hc => ⟨rfl, (h.frozen hc).2⟩⟩
  burst _ _ _ h := { h with }
  edge _ _ _ h := { h with }
  rate _ _ h := { h with }
  enable _ h := { h with }
  disable _ h := { h with }
  store _ _ _ h := { h with }
  grow n _ _ hf h := chainGrewFrom_growChain h n hf
  identify i v _ hi h := chainGrewFrom_setIdcode h i v hi

/-- R271: the torn-down controller still holds its chain. -/
theorem execDetach_chainGrewFrom {s t : State} (h : execDetach s = .next t) : ChainGrewFrom s.ctrl t.toEngine := by
  rcases execDetach_cases h with ht | ht <;> rw [ht]
  · exact chainGrewFrom_refl s.toEngine
  · exact { chainGrewFrom_refl s.toEngine with }

/-- Settles O19: the operations of the frame by what their changes keep, and `detach`. -/
theorem chainIsAppendOnly : Obligations.ChainIsAppendOnly := by
  intro i s t hne ht
  have h : ChainGrewFrom s.ctrl t.toEngine := by
    cases hi : i.takesLock
    · cases i with
      | attach layout b => exact absurd rfl (hne layout b)
      | detach => exact execDetach_chainGrewFrom ht
      | _ => cases hi
    · exact takesLock_keeps (chainGrewFrom_closed s.ctrl) (fun _ _ h => { h with }) hi
        (chainGrewFrom_refl s.toEngine) ht
  exact ⟨h.devices, h.frozen⟩

end Sys2Proof.Machine
end

section
/-! SUPPORT. A scan as a command on a reference chain: it completes where the backend serves (R232), and the payload
for a device reaches the latch of that device (R144). -/

namespace Sys2Proof.Machine

/-! ### The refresh -/

/-- R272: the refresh writes nothing but the position. -/
@[simp] theorem refresh_io (before after : Engine) : (refresh before after).io = after.io := by
  unfold refresh
  split <;> rfl

@[simp] theorem refresh_chain (before after : Engine) : (refresh before after).ctrl.chain = after.ctrl.chain := by
  unfold refresh
  split <;> rfl

@[simp] theorem refresh_lock (before after : Engine) : (refresh before after).ctrl.lock = after.ctrl.lock := by
  unfold refresh
  split <;> rfl

/-! ### Scans -/

/-- R232, R261, R272: an accepted scan where the backend serves. -/
theorem exec_executeScan_completes {s : State} {p : ScanTarget} {d : Direction} {n : Nat} {e : TapState} {b : BitSeq}
    (hr : Ready s) (hd : d ≠ .reserved) (ha : ScanAccepted s.io p d n e b) (hf : Serves s.io) (hl : LimitOk s.io) :
    ∃ io', exec (.executeScan p d n e b) s =
        .next (answer s
          { ctrl := { s.ctrl with currentState := refreshed io' e, stateKnown := true, chainFrozen := true }
            io := io' }
          (.bits (scanBits s.toEngine p d n e b))) ∧
      Drives (scanCommandEdges s.toEngine p d n e b) s.io io' := by
  obtain ⟨io', h, dr, -, -⟩ := scanCore_completes p hd (eng := (grant s).toEngine) hl hf ha
  have hbody : executeScanBody p d n e b (grant s).toEngine =
      (.ok (.bits (scanBits s.toEngine p d n e b)), scanDone e io' (grant s).toEngine) := by
    unfold executeScanBody
    rw [bne_iff_ne.mpr hd, andThen_ok (check_true _ _), andThen_ok h]
    rfl
  refine ⟨io', (command_ready hr).trans ?_, dr⟩
  rw [hbody]
  exact finish_ok (refresh_driven (e := scanDone e io' (grant s).toEngine) dr (scanCommandEdges_ne hd ha))

/-- Settles O21: the scan leaves the payload in the latches, one after another, and the padding of the payload is what
the other devices' latches take up. -/
theorem payloadReachesItsDevice : Obligations.PayloadReachesItsDevice := by
  intro s ds i ib d hr hf hl hch hpos hds hok hlay hd hib hlim
  have hlen : (payloadFor d ib).length = totalIr s.ctrl.chain := payloadFor_length hch hd hib
  have htotal : totalIr s.ctrl.chain ≠ 0 := totalIr_ne_zero hch hd
  have hne : payloadFor d ib ≠ [] := List.ne_nil_of_length_pos (by omega)
  obtain ⟨io', hexec, dr⟩ := exec_executeScan_completes (p := .instruction) (d := .write) (e := .idle) hr (by decide)
    ⟨htotal, rfl, fun _ => hlen, hlim⟩ hf hl
  obtain ⟨ds', ht, hparams, hok', hlatch⟩ := instructionScan hne hds (fun hk => (hpos hk).symm) hok
    (by rw [hlay, ← totalIr_eq_sum, hlen])
  rw [hlen, ← dr.target] at ht
  have hlay' : ds'.map (·.irLength) = ds.map (·.irLength) := irLength_of_params hparams
  refine ⟨_, ds', hexec, rfl, ?_, hlay', fun j x hx => ?_⟩
  · exact congrArg (·.devices) ht
  · exact latches_of_payload hch hd hib (hlay'.trans hlay) hok' hlatch hx

end Sys2Proof.Machine
end

section
/-! SUPPORT. The discovery of identifiers (R146 to R148) as the engine sees it: the edges its rounds drive, what they
leave of the chain, the recovery at its end (R277, R308), and everything the whole command can do. -/

namespace Sys2Proof.Machine

/-! ### The edges to come -/

/-- R146, R222: the edges that the rounds for these positions drive from the engine `e`, the recovery included. -/
def edgesToCome (is : List Nat) (e : Engine) : List Edge :=
  recoveryEdges e ++ discoveryEdges e.io.opcodes e.ctrl.chain (scanStart e) is

@[simp] theorem edgesToCome_nil (e : Engine) : edgesToCome [] e = recoveryEdges e := List.append_nil _

/-- R148: there is no device at this position, or it has its identifier. -/
def PassedOver (ch : List ChainDevice) (i : Nat) : Prop := ∀ d, ch[i]? = some d → d.idcode.isSome = true

theorem not_passedOver_iff {ch : List ChainDevice} {i : Nat} :
    ¬PassedOver ch i ↔ ∃ d, ch[i]? = some d ∧ d.idcode = none := by
  unfold PassedOver
  push Not
  simp only [ne_eq, Bool.not_eq_true, Option.isSome_eq_false_iff, Option.isNone_iff_eq_none]

theorem discoveryEdges_passedOver {opcodes : List BitSeq} {ch : List ChainDevice} {start : TapState} {i : Nat}
    (is : List Nat) (h : PassedOver ch i) :
    discoveryEdges opcodes ch start (i :: is) = discoveryEdges opcodes ch start is := by
  rw [discoveryEdges]
  cases hd : ch[i]? with
  | none => rfl
  | some d => exact if_pos (h d hd)

theorem discoveryEdges_round {opcodes : List BitSeq} {ch : List ChainDevice} {start : TapState} {i : Nat}
    {d : ChainDevice} (is : List Nat) (hd : ch[i]? = some d) (hn : d.idcode = none) :
    discoveryEdges opcodes ch start (i :: is) =
      discoveryRound opcodes ch start i d ++ discoveryEdges opcodes ch .idle is := by
  rw [discoveryEdges, hd]
  exact if_neg (by rw [hn]; decide)

/-- R146: the edges depend on the lengths of the chain and on the devices of the positions alone. -/
theorem discoveryEdges_congr {opcodes : List BitSeq} {ch ch' : List ChainDevice} (hl : ch'.length = ch.length)
    (ht : totalIr ch' = totalIr ch) {is : List Nat} (h : ∀ i ∈ is, ch'[i]? = ch[i]?) (start : TapState) :
    discoveryEdges opcodes ch' start is = discoveryEdges opcodes ch start is := by
  induction is generalizing start with
  | nil => rfl
  | cons i is ih =>
    have hi : ch'[i]? = ch[i]? := h i List.mem_cons_self
    have hround : ∀ d, discoveryRound opcodes ch' start i d = discoveryRound opcodes ch start i d := by
      intro d
      unfold discoveryRound
      rw [hl, ht]
    simp only [discoveryEdges, hi, hround, ih fun j hj => h j (List.mem_cons_of_mem _ hj)]

theorem edgesToCome_passedOver {i : Nat} {e : Engine} (is : List Nat) (h : PassedOver e.ctrl.chain i) :
    edgesToCome (i :: is) e = edgesToCome is e := by
  unfold edgesToCome
  rw [discoveryEdges_passedOver is h]

/-- R146, R148: an identifier written for `i` changes nothing of the edges for other positions. -/
theorem edgesToCome_round {i : Nat} {e : Engine} {d : ChainDevice} {is : List Nat} (hd : e.ctrl.chain[i]? = some d)
    (hn : d.idcode = none) (hi : i ∉ is) (v : BitVec 32) {es : List Edge} {io' : Interface} (dr : Drives es e.io io') :
    edgesToCome (i :: is) e =
      recoveryEdges e ++ discoveryRound e.io.opcodes e.ctrl.chain (scanStart e) i d ++
        edgesToCome is (setIdcode i v (scanDone .idle io' e)) := by
  have hrest : discoveryEdges io'.opcodes (setIdcode i v (scanDone .idle io' e)).ctrl.chain .idle is =
      discoveryEdges e.io.opcodes e.ctrl.chain .idle is := by
    rw [dr.opcodes]
    refine discoveryEdges_congr (setIdcode_length i v _) (setIdcode_totalIr i v _) (fun j hj => ?_) _
    have hne : i ≠ j := fun h => hi (h ▸ hj)
    simp only [setIdcode_getElem?, if_neg hne, Option.map_id']
  unfold edgesToCome
  rw [discoveryEdges_round is hd hn, ← List.append_assoc, ← hrest]
  rfl

/-! ### What rounds leave -/

/-- R146: the chain after a round that wrote the identifier of device `i`. -/
theorem round_getElem? (i : Nat) (v : BitVec 32) (io' : Interface) {e : Engine} {k : Nat} {x : ChainDevice}
    (hx : e.ctrl.chain[k]? = some x) :
    (setIdcode i v (scanDone .idle io' e)).ctrl.chain[k]? =
      some (if i = k then { x with idcode := some v } else x) := by
  rw [setIdcode_getElem?]
  exact congrArg (Option.map _) hx

/-- R146, R148: the rounds for the positions `is` have given each of these devices an identifier, kept those that were
written, and left all else of the chain. -/
structure Identified (is : List Nat) (ch ch' : List ChainDevice) : Prop where
  length : ch'.length = ch.length
  devices : ∀ (k : Nat) (d : ChainDevice), ch[k]? = some d → ∃ id, ch'[k]? = some { d with idcode := id } ∧
    (k ∈ is → id.isSome = true) ∧ (k ∉ is ∨ d.idcode.isSome = true → id = d.idcode)

/-- R146: what the rounds for the positions `is`, passed through without an error, have done after the edges `es`. The
engine is as it was where every device was passed over; else the last scan has left it in Idle. -/
structure Discovered (is : List Nat) (es : List Edge) (e e' : Engine) : Prop where
  drives : Drives es e.io e'.io
  edges : ∀ rest, (is ++ rest).Nodup → edgesToCome (is ++ rest) e = es ++ edgesToCome rest e'
  chain : Identified is e.ctrl.chain e'.ctrl.chain
  ends : (e' = e ∧ es = [] ∧ ∀ i ∈ is, PassedOver e.ctrl.chain i) ∨
    (es ≠ [] ∧ (∃ i ∈ is, ¬PassedOver e.ctrl.chain i) ∧
      e'.ctrl =
        { e.ctrl with currentState := .idle, stateKnown := true, chainFrozen := true, chain := e'.ctrl.chain })

theorem discovered_nil (e : Engine) : Discovered [] [] e e where
  drives := drives_refl e.io
  edges _ _ := rfl
  chain := ⟨rfl, fun _ d hd => ⟨d.idcode, hd, fun h => (List.not_mem_nil h).elim, fun _ => rfl⟩⟩
  ends := .inl ⟨rfl, rfl, fun _ h => (List.not_mem_nil h).elim⟩

/-- R148: a device passed over before the rounds. -/
theorem discovered_passedOver {i : Nat} {is : List Nat} {es : List Edge} {e e' : Engine}
    (hi : PassedOver e.ctrl.chain i) (h : Discovered is es e e') : Discovered (i :: is) es e e' where
  drives := h.drives
  edges rest hn := by
    rw [List.cons_append, edgesToCome_passedOver _ hi]
    exact h.edges rest (List.nodup_cons.mp hn).2
  chain := by
    refine ⟨h.chain.length, fun k d hd => ?_⟩
    obtain ⟨id, hid, hmem, hkeep⟩ := h.chain.devices k d hd
    refine ⟨id, hid, fun hk => ?_, fun hk => hkeep (hk.imp_left fun hn hm => hn (List.mem_cons_of_mem _ hm))⟩
    rcases List.mem_cons.mp hk with rfl | hk
    · have hs := hi d hd
      rwa [hkeep (.inr hs)]
    · exact hmem hk
  ends := by
    rcases h.ends with ⟨rfl, hes, hall⟩ | ⟨hes, ⟨j, hj, hnot⟩, hc⟩
    · exact .inl ⟨rfl, hes, List.forall_mem_cons.mpr ⟨hi, hall⟩⟩
    · exact .inr ⟨hes, ⟨j, List.mem_cons_of_mem _ hj, hnot⟩, hc⟩

theorem discoveryRound_ne (opcodes : List BitSeq) (ch : List ChainDevice) (start : TapState) (i : Nat)
    (d : ChainDevice) : discoveryRound opcodes ch start i d ≠ [] := by
  intro h
  unfold discoveryRound at h
  dsimp only at h
  have hdata := congrArg List.length (List.append_eq_nil_iff.mp h).2
  rw [edgesOf_length, scanTdi_length _ _ _ (by decide) (fun h => absurd h (by decide)), Nat.min_self,
    scanTms_length] at hdata
  have hprefix : (tapPath .idle (shiftOf .data)).length = 3 := rfl
  rw [List.length_nil] at hdata
  omega

/-- R146: a round that wrote an identifier, before the other rounds. -/
theorem discovered_round {i : Nat} {is : List Nat} {es : List Edge} {e e' : Engine} {d : ChainDevice}
    (hd : e.ctrl.chain[i]? = some d) (hn : d.idcode = none) {v : BitVec 32} {io' : Interface}
    (dr : Drives (recoveryEdges e ++ discoveryRound e.io.opcodes e.ctrl.chain (scanStart e) i d) e.io io')
    (h : Discovered is es (setIdcode i v (scanDone .idle io' e)) e') :
    Discovered (i :: is)
      (recoveryEdges e ++ discoveryRound e.io.opcodes e.ctrl.chain (scanStart e) i d ++ es) e e' where
  drives := drives_trans dr h.drives
  edges rest hnd := by
    rw [List.cons_append] at hnd ⊢
    obtain ⟨hi, hnd⟩ := List.nodup_cons.mp hnd
    rw [edgesToCome_round hd hn hi v dr, h.edges rest hnd, List.append_assoc _ es]
  chain := by
    refine ⟨h.chain.length.trans (setIdcode_length i v _), fun k x hx => ?_⟩
    obtain ⟨id, hid, hmem, hkeep⟩ := h.chain.devices k _ (round_getElem? i v io' hx)
    by_cases hik : i = k
    · subst hik
      obtain rfl : d = x := Option.some.inj (hd.symm.trans hx)
      rw [if_pos rfl] at hid hkeep
      refine ⟨id, hid, fun _ => by rw [hkeep (.inr rfl)]; rfl, fun hk => ?_⟩
      rcases hk with hk | hk
      · exact absurd List.mem_cons_self hk
      · rw [hn] at hk
        cases hk
    · rw [if_neg hik] at hid hkeep
      exact ⟨id, hid, fun hk => hmem ((List.mem_cons.mp hk).resolve_left fun h => hik h.symm),
        fun hk => hkeep (hk.imp_left fun hn hm => hn (List.mem_cons_of_mem _ hm))⟩
  ends := by
    refine .inr ⟨?_, ⟨i, List.mem_cons_self, not_passedOver_iff.mpr ⟨d, hd, hn⟩⟩, ?_⟩
    · simp [discoveryRound_ne]
    · rcases h.ends with ⟨rfl, -, -⟩ | ⟨-, -, hc⟩
      · rfl
      · exact hc

/-! ### All rounds -/

/-- R146, R229: the rounds for the positions before `j` have passed without an error, and the round of the device `j`
has met the error `k`. -/
def DiscoveryFailed (is : List Nat) (k : ErrKind) (e e' : Engine) : Prop :=
  ∃ pre j post es e1 d, is = pre ++ j :: post ∧ Discovered pre es e e1 ∧ e1.ctrl.chain[j]? = some d ∧ d.idcode = none ∧
    RoundFailed (recoveryEdges e1 ++ discoveryRound e1.io.opcodes e1.ctrl.chain (scanStart e1) j d) k e1 e'

/-- R146: everything the rounds can do. -/
theorem discoverAll_cases (is : List Nat) {e : Engine} (hl : LimitOk e.io) :
    (∃ es e', discoverAll is e = (.ok (), e') ∧ Discovered is es e e') ∨
      (∃ k e', discoverAll is e = (.err k, e') ∧ DiscoveryFailed is k e e') ∨
        ∃ x e', discoverAll is e = (.stop x, e') := by
  induction is generalizing e with
  | nil => exact .inl ⟨[], e, rfl, discovered_nil e⟩
  | cons i is ih =>
    unfold discoverAll
    rcases discoverOne_cases i hl with ⟨h1, hover⟩ | ⟨d, hd, hn, ⟨v, io1, h1, dr⟩ | ⟨k, e1, h1, hf⟩ | ⟨x, e1, h1⟩⟩
    · rw [andThen_ok h1]
      rcases ih hl with ⟨es, e', h, hdisc⟩ | ⟨k, e', h, pre, j, post, es, e1, d, rfl, hdisc, hrest⟩ | hstop
      · exact .inl ⟨es, e', h, discovered_passedOver hover hdisc⟩
      · exact .inr (.inl ⟨k, e', h, i :: pre, j, post, es, e1, d, rfl, discovered_passedOver hover hdisc, hrest⟩)
      · exact .inr (.inr hstop)
    · rw [andThen_ok h1]
      rcases ih (e := setIdcode i v (scanDone .idle io1 e)) (limitOk_drives hl dr) with
        ⟨es, e', h, hdisc⟩ | ⟨k, e', h, pre, j, post, es, e1, x, rfl, hdisc, hrest⟩ | hstop
      · exact .inl ⟨_, e', h, discovered_round hd hn dr hdisc⟩
      · exact .inr (.inl ⟨k, e', h, i :: pre, j, post, _, e1, x, rfl, discovered_round hd hn dr hdisc, hrest⟩)
      · exact .inr (.inr hstop)
    · rw [andThen_err h1]
      exact .inr (.inl ⟨k, e1, rfl, [], i, is, [], e, d, rfl, discovered_nil e, hd, hn, hf⟩)
    · exact .inr (.inr ⟨x, e1, andThen_stop h1⟩)

/-- From any engine with `P`, a round for a device without identifier ends well, keeps `P` and writes an identifier with
`Q`. -/
def RoundsComplete (P : Engine → Prop) (Q : Nat → BitVec 32 → Prop) : Prop :=
  ∀ e i d, P e → e.ctrl.chain[i]? = some d → d.idcode = none →
    ∃ v io', discoverOne i e = (.ok (), setIdcode i v (scanDone .idle io' e)) ∧
      Drives (recoveryEdges e ++ discoveryRound e.io.opcodes e.ctrl.chain (scanStart e) i d) e.io io' ∧
      P (setIdcode i v (scanDone .idle io' e)) ∧ Q i v

/-- R146: rounds that complete one by one complete together, and each identifier they write stays. -/
theorem discoverAll_completes {P : Engine → Prop} {Q : Nat → BitVec 32 → Prop} (hround : RoundsComplete P Q)
    (is : List Nat) {e : Engine} (he : P e) :
    ∃ es e', discoverAll is e = (.ok (), e') ∧ Discovered is es e e' ∧ P e' ∧
      ∀ k ∈ is, ∀ d, e.ctrl.chain[k]? = some d → d.idcode = none →
        ∃ d' v, e'.ctrl.chain[k]? = some d' ∧ d'.idcode = some v ∧ Q k v := by
  induction is generalizing e with
  | nil => exact ⟨[], e, rfl, discovered_nil e, he, fun _ h => (List.not_mem_nil h).elim⟩
  | cons i is ih =>
    unfold discoverAll
    by_cases hover : PassedOver e.ctrl.chain i
    · obtain ⟨es, e', h, hdisc, he', hids⟩ := ih he
      refine ⟨es, e', (andThen_ok (discoverOne_skip hover)).trans h, discovered_passedOver hover hdisc, he', ?_⟩
      intro k hk d hd hn
      rcases List.mem_cons.mp hk with rfl | hk
      · exact absurd hover (not_passedOver_iff.mpr ⟨d, hd, hn⟩)
      · exact hids k hk d hd hn
    · obtain ⟨d, hd, hn⟩ := not_passedOver_iff.mp hover
      obtain ⟨v, io', h1, dr, he1, hq⟩ := hround e i d he hd hn
      obtain ⟨es, e', h, hdisc, he', hids⟩ := ih he1
      refine ⟨_, e', (andThen_ok h1).trans h, discovered_round hd hn dr hdisc, he', fun k hk x hx hxn => ?_⟩
      have hk1 := round_getElem? i v io' hx
      by_cases hik : i = k
      · subst hik
        rw [if_pos rfl] at hk1
        obtain ⟨id, hid, -, hkeep⟩ := hdisc.chain.devices i _ hk1
        exact ⟨_, v, hid, hkeep (.inr rfl), hq⟩
      · rw [if_neg hik] at hk1
        exact hids k ((List.mem_cons.mp hk).resolve_left fun h => hik h.symm) x hk1 hxn

/-! ### The recovery at the end -/

/-- R222, R277: what the recovery does where it ends well. -/
structure Recovered (e e' : Engine) : Prop where
  drives : Drives (recoveryEdges e) e.io e'.io
  ctrl : e'.ctrl = { e.ctrl with currentState := scanStart e, stateKnown := true }
  known : e.ctrl.stateKnown = true → e' = e

/-- R307: what a recovery that ends in an error leaves. -/
structure RecoveryFailed (e e' : Engine) : Prop where
  unknown : e.ctrl.stateKnown = false
  drives : ∃ es, es <+: recoveryEdges e ∧ Drives es e.io e'.io
  ctrl : e'.ctrl = e.ctrl

theorem recovered_known {e : Engine} (hk : e.ctrl.stateKnown = true) : Recovered e e where
  drives := by
    unfold recoveryEdges
    rw [if_pos hk]
    exact drives_refl e.io
  ctrl := by
    unfold scanStart
    rw [if_pos hk, ← hk]
  known _ := rfl

theorem recovered_reset {e : Engine} (hk : e.ctrl.stateKnown = false) {io' : Interface}
    (dr : Drives resetEdges e.io io') : Recovered e (setKnown .reset { e with io := io' }) where
  drives := by
    unfold recoveryEdges
    rw [hk]
    exact dr
  ctrl := by
    unfold scanStart
    rw [hk]
    rfl
  known h := by
    rw [hk] at h
    cases h

theorem recover_known {e : Engine} (hk : e.ctrl.stateKnown = true) : clearOnError recover e = (.ok (), e) :=
  clearOnError_ok (if_pos hk)

theorem recover_unknown {e : Engine} (hk : e.ctrl.stateKnown = false) : recover e = hardReset e :=
  if_neg (by rw [hk]; decide)

/-- R222, R307: everything the recovery can do. -/
theorem recover_cases (e : Engine) :
    (∃ e', clearOnError recover e = (.ok (), e') ∧ Recovered e e') ∨
      (∃ k e', clearOnError recover e = (.err k, e') ∧ RecoveryFailed e e') ∨
        ∃ x e', clearOnError recover e = (.stop x, e') := by
  cases hk : e.ctrl.stateKnown
  swap
  · exact .inl ⟨e, recover_known hk, recovered_known hk⟩
  rcases hardReset_cases e with ⟨io', dr, h⟩ | ⟨k, es, io', hp, dr, h⟩ | ⟨x, h⟩ <;> rw [← recover_unknown hk] at h
  · exact .inl ⟨_, clearOnError_ok h, recovered_reset hk dr⟩
  · refine .inr (.inl ⟨k, _, clearOnError_err h, hk, ⟨es, ?_, dr⟩, ?_⟩)
    · unfold recoveryEdges
      rw [hk]
      exact hp
    · show ({ e.ctrl with stateKnown := false } : Controller) = e.ctrl
      rw [← hk]
  · exact .inr (.inr ⟨x, e, by unfold clearOnError; rw [h]⟩)

/-- R277: the recovery where the backend serves. -/
theorem recover_completes {e : Engine} (hf : Serves e.io) (hl : LimitOk e.io) :
    ∃ e', clearOnError recover e = (.ok (), e') ∧ Recovered e e' := by
  cases hk : e.ctrl.stateKnown
  · obtain ⟨io', h, dr, -, -⟩ := hardReset_completes hf hl
    exact ⟨_, clearOnError_ok ((recover_unknown hk).trans h), recovered_reset hk dr⟩
  · exact ⟨e, recover_known hk, recovered_known hk⟩

/-! ### The whole discovery -/

/-- R146, R277: everything the discovery can do. Rounds that drove an edge leave nothing to recover. -/
theorem discoverIdentifiersBody_cases {e : Engine} (hl : LimitOk e.io) :
    (∃ es e1 e2, discoverIdentifiersBody e = (.ok .ack, e2) ∧ Discovered (List.range e.ctrl.chain.length) es e e1 ∧
        Recovered e1 e2) ∨
      (∃ k e2, discoverIdentifiersBody e = (.err k, e2) ∧
        (DiscoveryFailed (List.range e.ctrl.chain.length) k e e2 ∨
          (∀ i ∈ List.range e.ctrl.chain.length, PassedOver e.ctrl.chain i) ∧ RecoveryFailed e e2)) ∨
        ∃ x e2, discoverIdentifiersBody e = (.stop x, e2) := by
  unfold discoverIdentifiersBody
  rcases discoverAll_cases (List.range e.ctrl.chain.length) hl with
    ⟨es, e1, h1, hdisc⟩ | ⟨k, e1, h1, hf⟩ | ⟨x, e1, h1⟩
  · rw [andThen_ok h1]
    rcases recover_cases e1 with ⟨e2, h2, hrec⟩ | ⟨k, e2, h2, hrec⟩ | ⟨x, e2, h2⟩
    · exact .inl ⟨es, e1, e2, andThen_ok h2, hdisc, hrec⟩
    · refine .inr (.inl ⟨k, e2, andThen_err h2, .inr ?_⟩)
      rcases hdisc.ends with ⟨rfl, -, hall⟩ | ⟨-, -, hc⟩
      · exact ⟨hall, hrec⟩
      · have hk := hrec.unknown
        rw [hc] at hk
        cases hk
    · exact .inr (.inr ⟨x, e2, andThen_stop h2⟩)
  · exact .inr (.inl ⟨k, e1, andThen_err h1, .inl hf⟩)
  · exact .inr (.inr ⟨x, e1, andThen_stop h1⟩)

/-- R261: the body of a discovery leaves the lock alone. -/
theorem discoverIdentifiersBody_lock {e e' : Engine} {r : Ret Result} (h : discoverIdentifiersBody e = (r, e')) :
    e'.ctrl.lock = e.ctrl.lock := by
  have hk := keeps_discoverIdentifiers (lock_closed e.ctrl.lock) e rfl
  rwa [h] at hk

theorem withLock_restore {l l' : Lock} {e : Engine} (h : e.ctrl.lock = l) : withLock l (withLock l' e) = e := by
  subst h
  rfl

/-- R261, R272: a discovery that ends well. -/
theorem exec_discover_ok {s : State} (hr : Ready s) {v : Result} {e : Engine}
    (h : discoverIdentifiersBody (grant s).toEngine = (.ok v, e)) :
    exec .discoverIdentifiers s =
      .next (answer s (withLock s.ctrl.lock (refresh (grant s).toEngine e)) v) := by
  have hlock : (refresh (grant s).toEngine e).ctrl.lock = grantedLock s :=
    (refresh_lock _ _).trans (discoverIdentifiersBody_lock h)
  calc exec .discoverIdentifiers s = finishCommand (grant s) (.ok v, e) := (command_ready hr).trans (by rw [h])
    _ = _ := finish_ok (withLock_restore hlock).symm

/-- R261, R307: a discovery that ends in an error. -/
theorem exec_discover_err {s : State} (hr : Ready s) {k : ErrKind} {e : Engine}
    (h : discoverIdentifiersBody (grant s).toEngine = (.err k, e)) :
    exec .discoverIdentifiers s = .next (answer s (withLock s.ctrl.lock e) (.error k)) := by
  have hlock : e.ctrl.lock = grantedLock s := discoverIdentifiersBody_lock h
  rw [← withLock_restore hlock] at h
  exact command_error hr h

end Sys2Proof.Machine
end

section
/-! SUPPORT. How a discovery ends: where the backend serves every device has its identifier (R146, R148), and an error
keeps what was found (R229, R307). -/

namespace Sys2Proof.Machine

/-! ### Where the backend serves -/

/-- The premises under which a discovery completes (R201, R221, R227, R28). -/
structure Discoverable (e : Engine) : Prop where
  serves : Serves e.io
  limit : LimitOk e.io
  chain : ChainOk e.ctrl.chain
  instructionScan : overLimit e.io.backend.spec.maxScan (totalIr e.ctrl.chain) = false
  dataScan : overLimit e.io.backend.spec.maxScan (31 + e.ctrl.chain.length) = false

theorem discoverable_round {e : Engine} (h : Discoverable e) {es : List Edge} {io' : Interface}
    (dr : Drives es e.io io') (hf : Serves io') (i : Nat) (v : BitVec 32) :
    Discoverable (setIdcode i v (scanDone .idle io' e)) where
  serves := hf
  limit := limitOk_drives h.limit dr
  chain := setIdcode_ok i v h.chain
  instructionScan := by
    rw [setIdcode_totalIr]
    show overLimit io'.backend.spec.maxScan _ = false
    rw [dr.spec]
    exact h.instructionScan
  dataScan := by
    rw [setIdcode_length]
    show overLimit io'.backend.spec.maxScan _ = false
    rw [dr.spec]
    exact h.dataScan

/-- R146: the two scans of a round drive its edges. -/
theorem discoveryRound_drives {e : Engine} {i : Nat} {d : ChainDevice} {pl : BitSeq} {io1 io2 : Interface}
    (hch : ChainOk e.ctrl.chain) (hd : e.ctrl.chain[i]? = some d)
    (hpl : pl = payloadFor d (idcodeOpcodeOf e.io.opcodes i d.irLength))
    (d1 : Drives (scanCommandEdges e .instruction .write pl.length .idle pl) e.io io1)
    (d2 : Drives (scanCommandEdges (scanDone .idle io1 e) .data .read (31 + e.ctrl.chain.length) .idle []) io1 io2) :
    Drives (recoveryEdges e ++ discoveryRound e.io.opcodes e.ctrl.chain (scanStart e) i d) e.io io2 := by
  have hbits : Config.idcodeBits + e.ctrl.chain.length - 1 = 31 + e.ctrl.chain.length := by
    unfold Config.idcodeBits
    omega
  rw [hpl, payloadFor_length hch hd (idcodeOpcodeOf_length _ _ _)] at d1
  rw [discoveryRound_eq e i d io1, hbits]
  exact drives_trans d1 d2

/-- R146: the rounds complete one by one. -/
theorem rounds_complete : RoundsComplete Discoverable fun _ _ => True := by
  intro e i d h hd hn
  obtain ⟨io1, io2, pl, hpl, d1, d2, hf, h1⟩ :=
    discoverOne_completes hd hn h.limit h.serves h.chain h.instructionScan h.dataScan
  have dr := discoveryRound_drives h.chain hd hpl d1 d2
  exact ⟨_, io2, h1, dr, discoverable_round h dr hf i _, trivial⟩

/-- R146, R277: the discovery completes where its rounds do. -/
theorem discoverIdentifiersBody_completes {P : Engine → Prop} {Q : Nat → BitVec 32 → Prop} (hround : RoundsComplete P Q)
    (hserves : ∀ e, P e → Serves e.io ∧ LimitOk e.io) {e : Engine} (he : P e) :
    ∃ es e1 e2, discoverIdentifiersBody e = (.ok .ack, e2) ∧ Discovered (List.range e.ctrl.chain.length) es e e1 ∧
      Recovered e1 e2 ∧ ∀ (k : Nat) (d : ChainDevice), e.ctrl.chain[k]? = some d → d.idcode = none →
        ∃ d' v, e2.ctrl.chain[k]? = some d' ∧ d'.idcode = some v ∧ Q k v := by
  obtain ⟨es, e1, h1, hdisc, he1, hids⟩ := discoverAll_completes hround (List.range e.ctrl.chain.length) he
  obtain ⟨hf, hl⟩ := hserves e1 he1
  obtain ⟨e2, h2, hrec⟩ := recover_completes hf hl
  refine ⟨es, e1, e2, (andThen_ok h1).trans (andThen_ok h2), hdisc, hrec, fun k d hd hn => ?_⟩
  have hk : k < e.ctrl.chain.length := (List.getElem?_eq_some_iff.mp hd).1
  rw [hrec.ctrl]
  exact hids k (List.mem_range.mpr hk) d hd hn

/-! ### Where a discovery ends -/

/-- R146: the chain but for its identifiers. -/
theorem identified_erase {is : List Nat} {ch ch' : List ChainDevice} (h : Identified is ch ch') :
    ch'.map (fun d : ChainDevice => { d with idcode := none }) =
      ch.map (fun d : ChainDevice => { d with idcode := none }) := by
  apply List.ext_getElem?
  intro k
  rw [List.getElem?_map, List.getElem?_map]
  cases hd : ch[k]? with
  | none =>
    have hk := List.getElem?_eq_none_iff.mp hd
    rw [List.getElem?_eq_none (h.length.trans_le hk)]
  | some d =>
    obtain ⟨id, hid, -, -⟩ := h.devices k d hd
    rw [hid]
    rfl

/-- R148: all devices of a chain have their identifiers exactly when all its positions are passed over. -/
theorem passedOver_iff {ch : List ChainDevice} :
    (∀ i ∈ List.range ch.length, PassedOver ch i) ↔ ∀ d ∈ ch, d.idcode.isSome = true := by
  constructor
  · intro h d hd
    obtain ⟨i, hi⟩ := List.mem_iff_getElem?.mp hd
    exact h i (List.mem_range.mpr (List.getElem?_eq_some_iff.mp hi).1) d hi
  · exact fun h i _ d hd => h d (List.mem_of_getElem? hd)

/-- R146: the edges of rounds passed through and of the recovery after them. -/
theorem discovered_edges {is : List Nat} {es : List Edge} {e e' : Engine} (h : Discovered is es e e') (hn : is.Nodup) :
    es ++ recoveryEdges e' = edgesToCome is e := by
  have he := h.edges [] (by rwa [List.append_nil])
  rw [List.append_nil, edgesToCome_nil] at he
  exact he.symm

/-- R277: after no round, the recovery of the start is what the discovery has done, and the refresh of R272 has
nothing to add. -/
theorem recovered_refresh {e e' : Engine} (h : Recovered e e') : refresh e e' = e' := by
  cases hk : e.ctrl.stateKnown
  · have hbook : e'.io.backend.book = .reset := by
      have hd := h.drives
      unfold recoveryEdges at hd
      rw [hk] at hd
      exact hd.book.trans (tapRun_ones_five _)
    refine refresh_consistent ?_
    rw [hbook, h.ctrl]
    unfold scanStart
    rw [hk]
    rfl
  · rw [h.known hk]
    exact refresh_same rfl

/-- R272: after a round, the refresh of R272 moves the position to the bookkeeping of a backend with STATE. -/
theorem discovered_refresh {is : List Nat} {es : List Edge} {e e' : Engine} (h : Discovered is es e e') (hes : es ≠ [])
    (hc : e'.ctrl.currentState = .idle) : refresh e e' = setCurrent (refreshed e'.io .idle) e' := by
  rw [refresh_driven h.drives hes, hc]

/-- Settles O17: the rounds complete, and the recovery after them; without a round it is the recovery of the start, and
with one it does nothing. -/
theorem discoveryFillsIdentifiers : Obligations.DiscoveryFillsIdentifiers := by
  intro s hr hf hl hch hi hd
  obtain ⟨es, e1, e2, h, hdisc, hrec, -⟩ := discoverIdentifiersBody_completes rounds_complete
    (fun e he => ⟨he.serves, he.limit⟩) (e := (grant s).toEngine) ⟨hf, hl, hch, hi, hd⟩
  have hids : Identified (List.range s.ctrl.chain.length) s.ctrl.chain (refresh (grant s).toEngine e2).ctrl.chain := by
    rw [refresh_chain, hrec.ctrl]
    exact hdisc.chain
  have hedges : es ++ recoveryEdges e1 = edgesToCome (List.range s.ctrl.chain.length) (grant s).toEngine :=
    discovered_edges hdisc List.nodup_range
  refine ⟨_, es ++ recoveryEdges e1, exec_discover_ok hr h, ?_, identified_erase hids, ?_, hedges, ?_, ?_⟩
  · rw [withLock_io, refresh_io]
    exact drives_trans hdisc.drives hrec.drives
  · intro k d d' hd hd'
    obtain ⟨id, hid, hmem, hkeep⟩ := hids.devices k d hd
    obtain rfl := Option.some.inj (hid.symm.trans hd')
    exact ⟨hmem (List.mem_range.mpr (List.getElem?_eq_some_iff.mp hd).1), fun hs => hkeep (.inr hs)⟩
  · intro hall
    rcases hdisc.ends with ⟨rfl, rfl, -⟩ | ⟨-, ⟨i, hi, hnot⟩, -⟩
    · rw [recovered_refresh hrec]
      refine ⟨rfl, ?_, fun hk => ?_⟩
      · rw [withLock, hrec.ctrl]
        rfl
      · rw [hrec.known hk]
        rfl
    · exact absurd (passedOver_iff.mpr hall i hi) hnot
  · rintro ⟨d, hd, hn⟩
    rcases hdisc.ends with ⟨-, -, hall⟩ | ⟨hes, -, hc⟩
    · have hs := passedOver_iff.mp hall d hd
      rw [hn] at hs
      cases hs
    · obtain rfl : e2 = e1 := hrec.known (by rw [hc])
      rw [discovered_refresh hdisc hes (by rw [hc])]
      show ({ e2.ctrl with currentState := refreshed e2.io .idle, lock := s.ctrl.lock } : Controller) =
        { s.ctrl with
          currentState := refreshed e2.io .idle, stateKnown := true, chainFrozen := true, chain := e2.ctrl.chain }
      rw [hc]
      rfl

/-! ### Where it fails -/

/-- R146, R229, R231: what a discovery leaves whose rounds have met an error. -/
theorem discoveryFailed_spec {is : List Nat} {k : ErrKind} {e e' : Engine} (h : DiscoveryFailed is k e e')
    (hn : is.Nodup) :
    ∃ pre j post d es, is = pre ++ j :: post ∧ e.ctrl.chain[j]? = some d ∧ d.idcode = none ∧
      Identified pre e.ctrl.chain e'.ctrl.chain ∧ es <+: edgesToCome is e ∧ Drives es e.io e'.io ∧
      e'.ctrl =
        { e.ctrl with
          currentState := e'.ctrl.currentState, stateKnown := false, chainFrozen := e'.ctrl.chainFrozen
          chain := e'.ctrl.chain } ∧
      (e.ctrl.chainFrozen = true ∨ k = .timeoutError ∨ k = .busFault → e'.ctrl.chainFrozen = true) := by
  obtain ⟨pre, j, post, es, e1, d1, rfl, hdisc, hd1, hn1, es', pos, frozen, hp, dr, hc, hfrozen⟩ := h
  obtain ⟨-, -, hdisjoint⟩ := List.nodup_append.mp hn
  have hj : j ∉ pre := fun h => hdisjoint j h j List.mem_cons_self rfl
  -- the rounds before have left device `j` as it was
  have hlt : j < e.ctrl.chain.length := by
    rw [← hdisc.chain.length]
    exact (List.getElem?_eq_some_iff.mp hd1).1
  have hd := List.getElem?_eq_getElem hlt
  obtain ⟨id, hid, -, hkeep⟩ := hdisc.chain.devices j _ hd
  obtain rfl := Option.some.inj (hid.symm.trans hd1)
  have hedges : edgesToCome (pre ++ j :: post) e = es ++ edgesToCome (j :: post) e1 := hdisc.edges _ hn
  have hround : es' <+: edgesToCome (j :: post) e1 := by
    unfold edgesToCome
    rw [discoveryEdges_round post hd1 hn1, ← List.append_assoc]
    exact hp.trans (List.prefix_append _ _)
  refine ⟨pre, j, post, _, es ++ es', rfl, hd, (hkeep (.inl hj)).symm.trans hn1, ?_, ?_,
    drives_trans hdisc.drives dr, ?_, ?_⟩
  · rw [hc]
    exact hdisc.chain
  · rw [hedges]
    exact (List.prefix_append_right_inj _).mpr hround
  · rcases hdisc.ends with ⟨rfl, -, -⟩ | ⟨-, -, hc1⟩
    · rw [hc]
    · rw [hc, hc1]
  · rw [hc]
    rcases hdisc.ends with ⟨rfl, -, -⟩ | ⟨-, -, hc1⟩
    · exact hfrozen
    · exact fun _ => hfrozen (.inl (by rw [hc1]))

/-- The positions before one of a range. -/
theorem range_before {n j : Nat} {pre post : List Nat} (h : List.range n = pre ++ j :: post) : pre = List.range j := by
  rw [List.range_eq_range'] at h ⊢
  obtain ⟨m, -, hpre, hpost⟩ := List.range'_eq_append_iff.mp h
  obtain ⟨hj, -, -⟩ := List.range'_eq_cons_iff.mp hpost.symm
  obtain rfl : m = j := by omega
  exact hpre

/-- R311: a discovery that is refused. -/
theorem exec_discover_stop {s : State} (hr : Ready s) {x : Refusal} {e : Engine}
    (h : discoverIdentifiersBody (grant s).toEngine = (.stop x, e)) : exec .discoverIdentifiers s = .refused x :=
  (command_ready hr).trans (by rw [h]; rfl)

/-- Settles O18: an error of the rounds is that of the first device whose round has met one, and else it is that of the
recovery at the end, which drives nothing after a round. -/
theorem failedDiscoveryKeepsWhatItFound : Obligations.FailedDiscoveryKeepsWhatItFound := by
  intro s t k hr hl ht hres
  rcases discoverIdentifiersBody_cases (e := (grant s).toEngine) hl with
    ⟨-, -, e2, h, -, -⟩ | ⟨k', e2, h, hf⟩ | ⟨x, e2, h⟩
  · rw [exec_discover_ok hr h] at ht
    cases ht
    simp [answer] at hres
  · rw [exec_discover_err hr h] at ht
    cases ht
    obtain rfl : k' = k := by simpa [answer] using hres
    rcases hf with hf | ⟨hall, hf⟩
    · obtain ⟨pre, j, post, d, es, his, hd, hn, hids, hp, dr, hc, hfrozen⟩ := discoveryFailed_spec hf List.nodup_range
      obtain rfl := range_before his
      refine ⟨_, es, rfl, dr, hp, .inr ⟨j, d, hd, hn, ?_, hfrozen, identified_erase hids, fun i x x' hx hx' => ?_⟩⟩
      · rw [withLock, hc]
        rfl
      · obtain ⟨id, hid, hmem, hkeep⟩ := hids.devices i x hx
        obtain rfl := Option.some.inj (hid.symm.trans hx')
        exact ⟨fun hi => hmem (List.mem_range.mpr hi),
          fun hi => hkeep (hi.imp_left fun hji hm => absurd (List.mem_range.mp hm) (Nat.not_lt.mpr hji))⟩
    · obtain ⟨es, hp, dr⟩ := hf.drives
      refine ⟨_, es, rfl, dr, hp.trans (List.prefix_append _ _), .inl ⟨passedOver_iff.mp hall, hf.unknown, ?_⟩⟩
      rw [withLock, hf.ctrl]
      rfl
  · rw [exec_discover_stop hr h] at ht
    cases ht

end Sys2Proof.Machine
end

section
/-! SUPPORT. The discovery on a reference chain: a round selects one device's identification register (R144, R150),
and its data scan reads that device's identifier (R147, R154). -/

namespace Sys2Proof.Machine

/-! ### Discovery on a reference chain -/

/-- R150, R355: the target is a reference chain of the parameters `ps` and of the controller's layout, at the position
the controller knows. -/
structure OnReference (ps : List (Nat × Option (BitVec 32) × BitSeq)) (e : Engine) : Prop where
  params : e.io.target.devices.map (·.map paramsOf) = some ps
  form : ReferenceOk e.io.opcodes e.io.target
  layout : ps.map (·.1) = e.ctrl.chain.map (·.irLength)
  position : PositionTrue e

/-- R154: every device with an identifier has another identification instruction than BYPASS. -/
def IdentifiesApart (ps : List (Nat × Option (BitVec 32) × BitSeq)) : Prop :=
  ∀ p ∈ ps, p.2.1.isSome = true → p.2.2 ≠ ones p.1

theorem referenceOk_targetOk {opcodes : List BitSeq} {t : Target} (h : ReferenceOk opcodes t) : TargetOk t := by
  intro ds hds d hd
  obtain ⟨j, hj⟩ := List.mem_iff_getElem?.mp hd
  exact (h ds hds j d hj).1

theorem onReference_round {ps : List (Nat × Option (BitVec 32) × BitSeq)} {e : Engine} (h : OnReference ps e)
    {es : List Edge} {io' : Interface} (dr : Drives es e.io io') (hidle : io'.target.tap = .idle) (i : Nat)
    (v : BitVec 32) : OnReference ps (setIdcode i v (scanDone .idle io' e)) where
  params := by
    show io'.target.devices.map _ = _
    rw [dr.target, targetRun_params]
    exact h.params
  form := by
    show ReferenceOk io'.opcodes io'.target
    rw [dr.opcodes, dr.target]
    exact targetRun_reference h.form
  layout := h.layout.trans (setIdcode_irLength i v (scanDone .idle io' e)).symm
  position _ := hidle.symm

/-- R154: a device whose instruction is its identification instruction captures its identifier. -/
theorem captureDR_identifier {d : RefDevice} {v : BitVec 32} (hv : d.idc = some v) (hl : d.irLatch = d.op) :
    captureDR d = natToBits v.toNat 32 := by
  unfold captureDR
  rw [hv]
  exact if_pos (beq_iff_eq.mpr hl)

/-- R154: a device in BYPASS, which is not its identification instruction, captures a zero. -/
theorem captureDR_bypass {d : RefDevice} (h : d.idc.isSome = true → d.irLatch ≠ d.op) : captureDR d = [false] := by
  unfold captureDR
  cases hv : d.idc with
  | none => rfl
  | some v => exact if_neg fun hl => h (by rw [hv]; rfl) (beq_iff_eq.mp hl)

/-- R154, R234: a data scan from Idle, ending in Idle, reads what the devices capture, and then the bits shifted in. -/
theorem dataScan_captured {e : Engine} {io : Interface} {ds : List RefDevice} {n : Nat} (hn : n ≠ 0) (hne : ds ≠ [])
    (hk : e.ctrl.stateKnown = true) (hc : e.ctrl.currentState = .idle)
    (ht : io.target = { tap := .idle, devices := some ds }) :
    slice 3 (3 + n) (driveEdges (scanCommandEdges e .data .read n .idle []) io).1 =
      (ds.flatMap captureDR ++ zeros n).take n := by
  have happroach : scanApproach e .data = edgesOf (tapPath .idle .shiftDR) (zeros (tapPath .idle .shiftDR).length) := by
    unfold scanApproach recoveryEdges scanStart
    rw [hk, hc]
    rfl
  have hlen : (scanApproach e .data).length = 3 := by rw [happroach]; rfl
  have htarget : (driveEdges (scanApproach e .data) io).2.target =
      { tap := .shiftDR, devices := some (ds.map fun d => { d with drShift := captureDR d }) } := by
    obtain ⟨h, -⟩ := driveEdges_fields (scanApproach e .data) io
    rw [h, ht, happroach, dataApproach]
  obtain ⟨hbody, -⟩ := body_shift .data (tdi := zeros n) (fun h0 => hn (by simpa using congrArg List.length h0))
    htarget (by simpa using hne) (by
      intro d hd h0
      obtain ⟨x, -, rfl⟩ := List.mem_map.mp hd
      have := captureDR_length x
      rw [show captureDR x = [] from h0] at this
      simp at this)
  rw [zeros_length, serial_captured] at hbody
  rw [scanCommandEdges_parts e .data .idle (by decide) (fun h => absurd h (by decide)), driveEdges_append,
    driveEdges_append]
  unfold slice
  rw [List.drop_left' (by rw [driveEdges_length, hlen]), Nat.add_sub_cancel_left, List.take_left', ← hbody]
  · rfl
  · rw [driveEdges_length, edgesOf_length, bodyTms_length]
    exact (congrArg _ (zeros_length n)).trans (Nat.min_self n)

theorem irLength_of_paramsOf {ds : List RefDevice} {ps : List (Nat × Option (BitVec 32) × BitSeq)}
    (h : ds.map paramsOf = ps) : ds.map (·.irLength) = ps.map (·.1) := by
  rw [← h, List.map_map]
  rfl

/-- R146, R144: the instruction scan of the round for device `i` gives it its identification instruction and every other
device BYPASS. -/
theorem round_selects {ps : List (Nat × Option (BitVec 32) × BitSeq)} {e : Engine} {i : Nat} {d : ChainDevice}
    {pl : BitSeq} {io1 : Interface} (h : OnReference ps e) (hch : ChainOk e.ctrl.chain)
    (hd : e.ctrl.chain[i]? = some d) (hpl : pl = payloadFor d (idcodeOpcodeOf e.io.opcodes i d.irLength))
    (d1 : Drives (scanCommandEdges e .instruction .write pl.length .idle pl) e.io io1) :
    ∃ ds, io1.target = { tap := .idle, devices := some ds } ∧ ds.map paramsOf = ps ∧
      ∀ (j : Nat) (x : RefDevice), ds[j]? = some x → x.irLatch = if j = i then x.op else ones x.irLength := by
  obtain ⟨ds0, hds0, hp0⟩ := Option.map_eq_some_iff.mp h.params
  have hlay0 := (irLength_of_paramsOf hp0).trans h.layout
  have hlen : pl.length = totalIr e.ctrl.chain := by
    rw [hpl]
    exact payloadFor_length hch hd (idcodeOpcodeOf_length _ _ _)
  have htotal := totalIr_ne_zero hch hd
  have hne : pl ≠ [] := List.ne_nil_of_length_pos (by omega)
  obtain ⟨ds, ht, hp, hok, hlatch⟩ := instructionScan hne hds0 (fun hk => (h.position hk).symm)
    (referenceOk_targetOk h.form ds0 hds0) (by rw [hlay0, ← totalIr_eq_sum, hlen])
  rw [← d1.target] at ht
  have hlay : ds.map (·.irLength) = e.ctrl.chain.map (·.irLength) := (irLength_of_params hp).trans hlay0
  refine ⟨ds, ht, hp.trans hp0, fun j x hx => ?_⟩
  rw [latches_of_payload hch hd (idcodeOpcodeOf_length _ _ _) hlay hok (hlatch.trans hpl) hx]
  by_cases hji : j = i
  · subst hji
    have hform : ReferenceOk io1.opcodes io1.target := by
      rw [d1.opcodes, d1.target]
      exact targetRun_reference h.form
    obtain ⟨-, hop, -⟩ := hform ds (by rw [ht]) j x hx
    have hxd : x.irLength = d.irLength := by
      have := congrArg (·[j]?) hlay
      simpa only [List.getElem?_map, hx, hd, Option.map_some, Option.some.injEq] using this
    rw [if_pos rfl, if_pos rfl, hop, hxd, d1.opcodes]
  · rw [if_neg hji, if_neg hji]

/-- R147, R154: the data scan of that round reads the identifier of device `i`. -/
theorem selected_identifier {ps : List (Nat × Option (BitVec 32) × BitSeq)} (hapart : IdentifiesApart ps)
    {ds : List RefDevice} (hp : ds.map paramsOf = ps) {i : Nat}
    (hsel : ∀ (j : Nat) (x : RefDevice), ds[j]? = some x → x.irLatch = if j = i then x.op else ones x.irLength)
    {x : RefDevice} (hx : ds[i]? = some x) {v : BitVec 32} (hv : x.idc = some v) :
    identifierOf i ((ds.flatMap captureDR ++ zeros (31 + ds.length)).take (31 + ds.length)) = v := by
  have hselected : captureDR x = natToBits v.toNat 32 :=
    captureDR_identifier hv (by rw [hsel i x hx, if_pos rfl])
  have hothers : ∀ j y, ds[j]? = some y → j ≠ i → captureDR y = [false] := by
    intro j y hy hji
    have hmem : paramsOf y ∈ ps := hp ▸ List.mem_map_of_mem (List.mem_of_getElem? hy)
    refine captureDR_bypass fun hs => ?_
    rw [hsel j y hy, if_neg hji]
    exact (hapart _ hmem hs).symm
  obtain ⟨hid, hlen⟩ := identifierOf_captured hx hselected hothers []
  rw [List.take_left' hlen, ← hid, List.append_nil]

/-- R146, R147: on a reference chain the rounds complete, and each writes the identifier of its device where it has
one. -/
theorem rounds_identify {ps : List (Nat × Option (BitVec 32) × BitSeq)} (hapart : IdentifiesApart ps) :
    RoundsComplete (fun e => Discoverable e ∧ OnReference ps e)
      fun i v => ∀ p, ps[i]? = some p → ∀ w, p.2.1 = some w → v = w := by
  rintro e i d ⟨h, href⟩ hd hn
  obtain ⟨io1, io2, pl, hpl, d1, d2, hf, h1⟩ :=
    discoverOne_completes hd hn h.limit h.serves h.chain h.instructionScan h.dataScan
  have dr := discoveryRound_drives h.chain hd hpl d1 d2
  obtain ⟨ds, ht, hp, hsel⟩ := round_selects href h.chain hd hpl d1
  have hidle : io2.target.tap = .idle := by
    rw [d2.target, targetRun_tap, ht]
    have hlimit : overLimit io1.backend.spec.maxScan (31 + e.ctrl.chain.length) = false := by
      rw [d1.spec]
      exact h.dataScan
    exact scan_run (eng := scanDone .idle io1 e) (by decide)
      ⟨by omega, rfl, fun hw => absurd hw (by decide), hlimit⟩ fun _ => rfl
  refine ⟨_, io2, h1, dr, ⟨discoverable_round h dr hf i _, onReference_round href dr hidle i _⟩, fun p hpi w hw => ?_⟩
  obtain ⟨x, hx, rfl⟩ : ∃ x, ds[i]? = some x ∧ paramsOf x = p := by
    rw [← hp, List.getElem?_map] at hpi
    exact Option.map_eq_some_iff.mp hpi
  have hlen : ds.length = e.ctrl.chain.length := by
    have := congrArg List.length ((irLength_of_paramsOf hp).trans href.layout)
    rwa [List.length_map, List.length_map] at this
  have hne : ds ≠ [] := by
    rintro rfl
    cases hx
  rw [dataScan_captured (by omega) hne rfl rfl ht, ← hlen]
  exact selected_identifier hapart hp hsel hx hw

/-- Settles O22: every round reads the identifier of its device from the captured bits, and later rounds keep it. -/
theorem identificationRoundTrip : Obligations.IdentificationRoundTrip := by
  intro s ds hr hf hl hch hpos hds hform hlay hapart hi hd
  have hps : IdentifiesApart (ds.map paramsOf) := by
    rintro p hp hs
    obtain ⟨x, hx, rfl⟩ := List.mem_map.mp hp
    exact hapart x hx hs
  have href : OnReference (ds.map paramsOf) (grant s).toEngine :=
    ⟨congrArg (Option.map _) hds, hform, (irLength_of_paramsOf rfl).symm.trans hlay, hpos⟩
  obtain ⟨-, -, e2, h, -, -, hids⟩ := discoverIdentifiersBody_completes (rounds_identify hps)
    (fun e he => ⟨he.1.serves, he.1.limit⟩) (e := (grant s).toEngine) ⟨⟨hf, hl, hch, hi, hd⟩, href⟩
  refine ⟨_, exec_discover_ok hr h, fun k x d v hx hd hv hn => ?_⟩
  obtain ⟨d', w, hd', hw, hq⟩ := hids k d hd hn
  obtain rfl := hq (paramsOf x) (by rw [List.getElem?_map, hx]; rfl) v hv
  exact ⟨d', (congrArg (·[k]?) (refresh_chain _ _)).trans hd', hw⟩

end Sys2Proof.Machine
end

section
/-! SUPPORT. A backend operation issued as a command (R318): what the frame makes of a value, of a rejection and of a
fault of the primitive it calls (R261, R272, R307), and so what `transfer` (R181 to R186) and the optional primitives
(R199 to R202) answer and leave. -/

namespace Sys2Proof.Machine

/-! ### A primitive in the frame -/

theorem callBackend_apply {α : Type} {p : Prim α} {e : Engine} {r : Ret α} {io' : Interface} (h : p e.io = (r, io')) :
    callBackend p e = (r, { e with io := io' }) := by
  unfold callBackend
  rw [h]

/-- R302: past the check of its capability an operation is what follows the check. -/
theorem command_needCap {c : Capability} {f : Unit → Body Result} {s : State} (hr : Ready s)
    (hc : hasCap s.io.backend.spec c = true) : command (andThen (needCap c) f) s = command (f ()) s := by
  rw [command_ready hr, command_ready hr, andThen_ok (needCap_ok (e := (grant s).toEngine) hc)]

/-- The body of a backend operation that drives no edge: one call, and its value answered. -/
def callingBody {α : Type} (p : Prim α) (f : α → Result) : Body Result := andThen (callBackend p) fun a => done (f a)

/-- R307: the body of a backend operation that drives edges: one call under the failure entry, its value answered. -/
def drivingBody {α : Type} (p : Prim α) (f : α → Result) : Body Result :=
  andThen (clearOnFault (callBackend p)) fun a => done (f a)

/-- R307: everything such a body can do: it answers the value of its call, clears `stateKnown` after a fault, or leaves
the controller alone. -/
theorem drivingBody_cases {α : Type} (p : Prim α) (f : α → Result) (e : Engine) :
    (∃ a io', p e.io = (.ok a, io') ∧ drivingBody p f e = (.ok (f a), { e with io := io' })) ∨
      (∃ k io', p e.io = (.err k, io') ∧ (k = .timeoutError ∨ k = .busFault) ∧
        drivingBody p f e = (.err k, clearKnown { e with io := io' })) ∨
        (∃ k io', p e.io = (.err k, io') ∧ (k = .invalidArgument ∨ k = .unsupportedOperation) ∧
          drivingBody p f e = (.err k, { e with io := io' })) ∨
          ∃ x io', p e.io = (.stop x, io') ∧ drivingBody p f e = (.stop x, { e with io := io' }) := by
  rcases h : p e.io with ⟨a | k | x, io'⟩
  · exact .inl ⟨a, io', rfl, andThen_ok (clearOnFault_ok (callBackend_apply h))⟩
  · have hk : (k = .timeoutError ∨ k = .busFault) ∨ (k = .invalidArgument ∨ k = .unsupportedOperation) := by
      cases k <;> simp
    rcases hk with hk | hk
    · exact .inr (.inl ⟨k, io', rfl, hk, andThen_err (clearOnFault_fault (callBackend_apply h) hk)⟩)
    · exact .inr (.inr (.inl ⟨k, io', rfl, hk, andThen_err (clearOnFault_check (callBackend_apply h) hk)⟩))
  · exact .inr (.inr (.inr ⟨x, io', rfl, andThen_stop (clearOnFault_stop (callBackend_apply h))⟩))

section
variable {α : Type} {p : Prim α} {f : α → Result} {s : State} {a : α} {k : ErrKind} {io' : Interface}

/-- R272: a call that records no edge is followed by no refresh. -/
theorem calling_ok (hr : Ready s) (h : p s.io = (.ok a, io')) (hw : io'.wire = s.io.wire) :
    command (callingBody p f) s = .next (answer s { s.toEngine with io := io' } (f a)) := by
  have hbody : callingBody p f (grant s).toEngine = (.ok (f a), { (grant s).toEngine with io := io' }) :=
    andThen_ok (callBackend_apply h)
  rw [command_ready hr, hbody]
  refine finish_ok (if_neg fun hdriven => hdriven.2 ?_)
  simp only [wireEdges, hw, grant_io]

theorem calling_err (hr : Ready s) (h : p s.io = (.err k, io')) :
    command (callingBody p f) s = .next (answer s { s.toEngine with io := io' } (.error k)) :=
  command_error hr (andThen_err (callBackend_apply h))

/-- R272: edges driven are followed by the refresh. -/
theorem driving_ok {es : List Edge} (hr : Ready s) (h : p s.io = (.ok a, io')) (hd : Drives es s.io io')
    (hes : es ≠ []) :
    command (drivingBody p f) s =
      .next (answer s { ctrl := { s.ctrl with currentState := refreshed io' s.ctrl.currentState }, io := io' }
        (f a)) := by
  have hbody : drivingBody p f (grant s).toEngine = (.ok (f a), { (grant s).toEngine with io := io' }) :=
    andThen_ok (clearOnFault_ok (callBackend_apply h))
  rw [command_ready hr, hbody]
  exact finish_ok (refresh_driven hd hes)

/-- R307: a fault clears `stateKnown`. -/
theorem driving_fault (hr : Ready s) (h : p s.io = (.err k, io')) (hk : k = .timeoutError ∨ k = .busFault) :
    command (drivingBody p f) s =
      .next (answer s { ctrl := { s.ctrl with stateKnown := false }, io := io' } (.error k)) :=
  have hcall : callBackend p (grant s).toEngine = (.err k, { (grant s).toEngine with io := io' }) := callBackend_apply h
  command_error (e := clearKnown { s.toEngine with io := io' }) hr (andThen_err (clearOnFault_fault hcall hk))

/-- A rejection by the primitive leaves everything as it was (log entry 8). -/
theorem driving_rejected (hr : Ready s) (h : p s.io = (.err k, s.io))
    (hk : k = .invalidArgument ∨ k = .unsupportedOperation) :
    command (drivingBody p f) s = .next (answer s s.toEngine (.error k)) :=
  command_error hr (andThen_err (clearOnFault_check (callBackend_apply h) hk))

end

/-! ### `transfer` -/

theorem exec_transfer (m d : BitSeq) (n : Nat) (s : State) :
    exec (.transfer m d n) s = command (drivingBody (transferPrim m d n) .bits) s := rfl

theorem edgesOf_ne_nil {m d : BitSeq} (hm : m ≠ []) (hl : d.length = m.length) : edgesOf m d ≠ [] := by
  rw [← List.length_pos_iff_ne_nil, edgesOf_length, hl, Nat.min_self]
  exact List.length_pos_iff_ne_nil.mpr hm

/-- R181, R183: `transfer` where the backend serves; what is left samples as the edges driven one by one leave it. -/
theorem exec_transfer_completes {s : State} {m d : BitSeq} (hr : Ready s) (hf : Serves s.io) (hm : m ≠ [])
    (hd : d.length = m.length) (hl : overLimit (maxTransferBits s.io.backend.spec) m.length = false) :
    ∃ io', exec (.transfer m d m.length) s =
        .next (answer s { ctrl := { s.ctrl with currentState := refreshed io' s.ctrl.currentState }, io := io' }
          (.bits (driveEdges (edgesOf m d) s.io).1)) ∧
      Drives (edgesOf m d) s.io io' ∧ Serves io' ∧ SamplesAs io' (driveEdges (edgesOf m d) s.io).2 := by
  obtain ⟨io', h, dr, hf', hs⟩ := transferPrim_completes hf (mt List.length_eq_zero_iff.mp hm) rfl hd hl
  exact ⟨io', (exec_transfer m d _ s).trans (driving_ok hr h dr (edgesOf_ne_nil hm hd)), dr, hf', hs⟩

/-- Settles O23: one backend call that completes, in the frame. -/
theorem transferDrivesItsEdges : Obligations.TransferDrivesItsEdges := by
  intro s m d n hr hf hn hm hd hl
  subst hm
  obtain ⟨io', h, dr, -, -⟩ := exec_transfer_completes hr hf (mt List.length_eq_zero_iff.mpr hn) hd hl
  exact ⟨io', h, dr⟩

/-- R181: a call that does not fail and keeps the contract delivers its edges and samples as they do one by one. -/
theorem burst_delivers {tms tdi : BitSeq} {io : Interface} (hb : nextOutcome io ≠ .breaksContract)
    (hn : failureOf io.backend.spec.variant (nextOutcome io) = none) :
    ∃ io', burst tms tdi io = (.ok (driveEdges (edgesOf tms tdi) io).1, io') ∧ Drives (edgesOf tms tdi) io io' := by
  have hs := (burst_samples (edgesOf tms tdi) tms tdi [] (io := io) ⟨rfl, rfl⟩).1
  refine ⟨_, ?_, call_drives (logged_drives (edgesOf tms tdi) (program tms tdi (dropOutcome io)))
    (settle_drives (driveEdges (edgesOf tms tdi) (program tms tdi (dropOutcome io))).1 _)⟩
  unfold burst
  rw [if_neg hb, hn, ← hs]

/-- R184: the bits a call answers are those of its edges driven one by one. -/
theorem burst_ok {tms tdi out : BitSeq} {io io' : Interface} (h : burst tms tdi io = (.ok out, io')) :
    out = (driveEdges (edgesOf tms tdi) io).1 ∧ Drives (edgesOf tms tdi) io io' := by
  by_cases hb : nextOutcome io = .breaksContract
  · rw [burst, if_pos hb] at h
    cases h
  cases hn : failureOf io.backend.spec.variant (nextOutcome io) with
  | none =>
    obtain ⟨_, h', d⟩ := burst_delivers (tms := tms) (tdi := tdi) hb hn
    cases h.symm.trans h'
    exact ⟨rfl, d⟩
  | some kn =>
    obtain ⟨_, h', -⟩ := burst_fails (tms := tms) (tdi := tdi) hn
    cases h.symm.trans h'

/-- R181, R186, R307: `transfer` of admitted operands whose call fails. -/
theorem exec_transfer_fails {s : State} {m d : BitSeq} {n j : Nat} {k : ErrKind} (hr : Ready s) (hu : Usable s.io)
    (hn : n ≠ 0) (hm : m.length = n) (hd : d.length = n) (hl : overLimit (maxTransferBits s.io.backend.spec) n = false)
    (h : failureOf s.io.backend.spec.variant (nextOutcome s.io) = some (k, j))
    (hk : k = .timeoutError ∨ k = .busFault) :
    ∃ io', exec (.transfer m d n) s =
        .next (answer s { ctrl := { s.ctrl with stateKnown := false }, io := io' } (.error k)) ∧
      Drives ((edgesOf m d).take j) s.io io' := by
  obtain ⟨io', hb, dr⟩ := burst_fails (tms := m) (tdi := d) h
  have hp : transferPrim m d n s.io = (.err k, io') := (transferPrim_burst hu hn hm hd hl).trans hb
  exact ⟨io', (exec_transfer m d n s).trans (driving_fault hr hp hk), dr⟩

/-- R185: how a call ends under each choice of the environment that is not a completion. -/
theorem failureOf_fails (v : Variant) (k : Nat) : failureOf v (.fails k) = some (.busFault, k) := by cases v <;> rfl

theorem failureOf_timesOut {v : Variant} (h : v ≠ .bitbang) (k : Nat) :
    failureOf v (.timesOut k) = some (.timeoutError, k) := by
  cases v with
  | bitbang => exact absurd rfl h
  | accelerated => rfl
  | bulk => rfl

/-- R185: a bitbang backend has no bounded wait. -/
theorem failureOf_bitbang_timesOut (k : Nat) : failureOf .bitbang (.timesOut k) = none := rfl

/-- Settles O24: the checks in their order, then the call by the outcome the environment chose. -/
theorem transferFailures : Obligations.TransferFailures := by
  constructor
  · intro s m d n hr
    rw [exec_transfer]
    refine ⟨fun hbad => driving_rejected hr (if_pos hbad) (.inl rfl), fun hn hm hd hl => ?_⟩
    have hargs : ¬(n = 0 ∨ m.length ≠ n ∨ d.length ≠ n) := by simp [hn, hm, hd]
    exact driving_rejected hr ((if_neg hargs).trans (if_pos hl)) (.inr rfl)
  · intro s m d n k hr hu hn hm hd hl
    refine ⟨fun ho => ?_, fun ho hv => ?_, fun ho hv => ?_⟩
    · exact exec_transfer_fails hr hu hn hm hd hl (by rw [ho, failureOf_fails]) (.inr rfl)
    · exact exec_transfer_fails hr hu hn hm hd hl (by rw [ho, failureOf_timesOut hv]) (.inl rfl)
    · obtain ⟨io', hb, dr⟩ := burst_delivers (tms := m) (tdi := d) (io := s.io) (by simp [ho])
        (by rw [ho, hv, failureOf_bitbang_timesOut])
      have hne : edgesOf m d ≠ [] := edgesOf_ne_nil (by rintro rfl; exact hn hm.symm) (hd.trans hm.symm)
      have hp := (transferPrim_burst hu hn hm hd hl).trans hb
      exact ⟨_, io', (exec_transfer m d n s).trans (driving_ok hr hp dr hne), dr⟩

/-- R260: after a command the lock is idle, so the same caller reaches the body of its next one. -/
theorem ready_answer {s : State} {e : Engine} (r : Result) (hr : Ready s) (ha : e.ctrl.attached = s.ctrl.attached) :
    Ready (answer s e r) :=
  ⟨ha.trans hr.1, hr.2.1, .inl rfl⟩

/-- Settles O25: the second transfer samples from where the first left the target, as the later edges of the one
transfer do. -/
theorem transfersCompose : Obligations.TransfersCompose := by
  intro s a x b y hr hf ha hb hx hy hl
  have hlim : ∀ n ≤ a.length + b.length, overLimit (maxTransferBits s.io.backend.spec) n = false := fun n hn =>
    overLimit_false.mpr fun m hm => hn.trans (overLimit_false.mp hl m hm)
  obtain ⟨io1, h1, d1, hf1, hs1⟩ := exec_transfer_completes hr hf ha hx (hlim _ (by omega))
  obtain ⟨io2, h2, d2, -, -⟩ := exec_transfer_completes (s := answer s _ _)
    (ready_answer (e := { ctrl := { s.ctrl with currentState := refreshed io1 s.ctrl.currentState }, io := io1 })
      (.bits (driveEdges (edgesOf a x) s.io).1) hr rfl)
    hf1 hb hy (d1.spec.symm ▸ hlim _ (by omega))
  obtain ⟨io3, h3, d3, -, -⟩ := exec_transfer_completes (m := a ++ b) (d := x ++ y) hr hf (by simp [ha])
    (by simp [hx, hy]) (by rw [List.length_append]; exact hl)
  rw [List.length_append] at h3
  have hsplit : edgesOf (a ++ b) (x ++ y) = edgesOf a x ++ edgesOf b y := edgesOf_append hx.symm
  have d12 : Drives (edgesOf (a ++ b) (x ++ y)) s.io io2 := hsplit ▸ drives_trans d1 d2
  refine ⟨_, _, _, _, _, h1, h2, h3, List.append_assoc _ _ _, ?_, d12.wire.trans d3.wire.symm,
    d12.target.trans d3.target.symm⟩
  show s.results ++ [(s.caller, .bits (driveEdges (edgesOf (a ++ b) (x ++ y)) s.io).1)] = _
  rw [hsplit, driveEdges_append, ← (driveEdges_samples hs1 _).1]
  rfl

theorem expireWait_results (s : State) : (expireWait s).results = s.results ++ [(s.caller, .error .timeoutError)] := by
  unfold expireWait
  dsimp only
  split <;> rfl

/-- R260, R261: what a command delivers: nothing, an error that is not the body's, or the end of its body. -/
theorem command_results {body : Body Result} {s t : State} (h : command body s = .next t) :
    t.results = s.results ∨
      (∃ k, t.results = s.results ++ [(s.caller, .error k)] ∧
        (k = .invalidArgument ∨ (k = .timeoutError ∧ s.draw = .expire) ∨ ∃ e, body (grant s).toEngine = (.err k, e))) ∨
        ∃ v e, body (grant s).toEngine = (.ok v, e) ∧ t.results = s.results ++ [(s.caller, v)] ∧ t.io = e.io := by
  rcases command_cases h with ⟨-, rfl⟩ | ⟨-, -, -, rfl⟩ | ⟨-, -, hd, rfl⟩ | ⟨-, -, -, rfl⟩ | ⟨-, -, -, rfl⟩ |
      ⟨-, v, e, he, rfl⟩ | ⟨-, k, e, he, rfl⟩
  · exact .inr (.inl ⟨_, rfl, .inl rfl⟩)
  · exact .inl rfl
  · exact .inr (.inl ⟨_, expireWait_results s, .inr (.inl ⟨rfl, hd⟩)⟩)
  · exact .inl rfl
  · exact .inl rfl
  · exact .inr (.inr ⟨v, e, he, rfl, refresh_io _ _⟩)
  · exact .inr (.inl ⟨k, rfl, .inr (.inr ⟨e, he⟩)⟩)

/-- R181, R184: the bits a `transfer` answers are those of its edges driven one by one. -/
theorem transferBody_ok {m d : BitSeq} {n : Nat} {v : Result} {e e' : Engine} (h : transferBody m d n e = (.ok v, e')) :
    v = .bits (driveEdges (edgesOf m d) e.io).1 ∧ Drives (edgesOf m d) e.io e'.io := by
  rcases drivingBody_cases (transferPrim m d n) .bits e with ⟨out, io', hp, h'⟩ | ⟨k, io', -, -, h'⟩ |
      ⟨k, io', -, -, h'⟩ | ⟨x, io', -, h'⟩ <;> cases h.symm.trans h'
  rcases transferPrim_cases m d n e.io with ⟨_, hcall, -⟩ | ⟨-, -, -, -, -, hcall⟩
  · cases hp.symm.trans hcall
  · obtain ⟨hout, dr⟩ := burst_ok (hcall.symm.trans hp)
    exact ⟨congrArg _ hout, dr⟩

/-- Settles O26: an answer of bits is that of a call that completed. -/
theorem burstsEqualSingleEdges : Obligations.BurstsEqualSingleEdges := by
  intro s t m d out n h hres
  rcases command_results h with h' | ⟨k, h', -⟩ | ⟨v, e, hbody, h', hio⟩ <;> rw [hres] at h'
  · simp at h'
  · simp at h'
  · obtain rfl : .bits out = v := by simpa using h'
    obtain ⟨hout, dr⟩ := transferBody_ok hbody
    cases hout
    exact ⟨rfl, by rw [hio, (driveEdges_fields _ _).1]; exact dr.target⟩

/-! ### The optional primitives -/

/-- R202: the edge of `EDGE` in the frame. -/
theorem exec_edge {s : State} (m d : Bool) (hr : Ready s) (hc : hasCap s.io.backend.spec .rawEdge = true) :
    exec (.edge m d) s = command (drivingBody (rawEdgePrim m d) .bit) s :=
  command_needCap hr hc

/-- Settles O27: the two ends of the primitive, by the outcome of its call. -/
theorem edgeDrivesOneEdge : Obligations.EdgeDrivesOneEdge := by
  intro s m d hr hu hc
  rw [exec_edge m d hr hc]
  rcases rawEdgePrim_cases m d hu with ⟨io', hn, h, dr⟩ | ⟨k, io', hk, h, dr⟩
  · exact ⟨fun _ => ⟨io', driving_ok hr h dr (List.cons_ne_nil _ _), dr⟩, fun k hk => absurd hk (hn k)⟩
  · refine ⟨fun hf => ?_, fun j hj => ?_⟩
    · rw [(noFailure_tail hf.2).1] at hk
      cases hk
    · cases hj.symm.trans hk
      exact ⟨io', driving_fault hr h (.inr rfl), dr⟩

/-- R199, R190: when `freqSet` completes, and how it fails. -/
theorem freqFailure_refuses {v : Variant} (h : v ≠ .bitbang) : freqFailure v .refuses = some .unsupportedOperation := by
  cases v with
  | bitbang => exact absurd rfl h
  | accelerated => rfl
  | bulk => rfl

theorem freqFailure_fails (v : Variant) (k : Nat) : freqFailure v (.fails k) = some .busFault := by cases v <;> rfl

theorem exec_freqSet {s : State} {hz : Nat} (hr : Ready s) (hc : hasCap s.io.backend.spec .freq = true) (hz0 : hz ≠ 0) :
    exec (.freqSet hz) s = command (callingBody (freqSetPrim hz) .hz) s := by
  refine (command_needCap hr hc).trans ?_
  rw [bne_iff_ne.mpr hz0]
  rfl

/-- R199: `FREQ_SET` where its call does not fail. -/
theorem exec_freqSet_completes {s : State} {hz : Nat} (hr : Ready s) (hu : Usable s.io)
    (hc : hasCap s.io.backend.spec .freq = true) (hz0 : hz ≠ 0)
    (hn : freqFailure s.io.backend.spec.variant (nextOutcome s.io) = none) :
    exec (.freqSet hz) s =
      .next (answer s
        { s.toEngine with
          io :=
            { s.io with
              outcomes := s.io.outcomes.tail
              backend := { s.io.backend with rate := Config.achievable s.io.backend.spec hz } } }
        (.hz (Config.achievable s.io.backend.spec hz))) := by
  rw [exec_freqSet hr hc hz0]
  rcases freqSetPrim_cases hz hu with ⟨-, h⟩ | ⟨k, hk, -⟩
  · exact calling_ok hr h rfl
  · cases hn.symm.trans hk

/-- R199: `FREQ_SET` where its call fails. -/
theorem exec_freqSet_fails {s : State} {hz : Nat} {k : ErrKind} (hr : Ready s) (hu : Usable s.io)
    (hc : hasCap s.io.backend.spec .freq = true) (hz0 : hz ≠ 0)
    (hk : freqFailure s.io.backend.spec.variant (nextOutcome s.io) = some k) :
    exec (.freqSet hz) s =
      .next (answer s { s.toEngine with io := { s.io with outcomes := s.io.outcomes.tail } } (.error k)) := by
  rw [exec_freqSet hr hc hz0]
  rcases freqSetPrim_cases hz hu with ⟨hn, -⟩ | ⟨k', hk', h⟩
  · cases hn.symm.trans hk
  · cases hk.symm.trans hk'
    exact calling_err hr h

/-- Settles O28: the rate read, and `freqSet` by the outcome of its call. -/
theorem frequencyPrimitives : Obligations.FrequencyPrimitives := by
  intro s hr hu hc
  refine ⟨(command_needCap hr hc).trans (calling_ok hr (freqGetPrim_eq hu) rfl), fun hz hz0 =>
    ⟨fun h => ?_, fun ho hv => ?_, fun k ho => ?_⟩⟩
  · refine exec_freqSet_completes hr hu hc hz0 ?_
    rcases h with hf | ⟨ho, hv⟩
    · rw [(noFailure_tail hf.2).1, freqFailure_none]
    · rw [ho, hv]
      rfl
  · exact exec_freqSet_fails hr hu hc hz0 (by rw [ho, freqFailure_refuses hv])
  · exact exec_freqSet_fails hr hu hc hz0 (by rw [ho, freqFailure_fails])

/-- R201: `enable` by the outcome of its call. -/
theorem enablePrim_completes {io : Interface} (h : nextOutcome io = .completes) :
    enablePrim io =
      (.ok (), { io with outcomes := io.outcomes.tail, backend := { io.backend with enabled := true } }) := by
  unfold enablePrim
  rw [h]
  rfl

theorem enablePrim_fails {io : Interface} {k : Nat} (h : nextOutcome io = .fails k) :
    enablePrim io = (.err .busFault, { io with outcomes := io.outcomes.tail }) := by
  unfold enablePrim
  rw [h]
  rfl

/-- Settles O30: the two primitives in the frame, which record no edge. -/
theorem enablePrimitives : Obligations.EnablePrimitives := by
  intro s hr hc
  have hexec : exec .enable s = command (callingBody enablePrim fun _ => .ack) s := command_needCap hr hc
  refine ⟨(command_needCap hr hc).trans (calling_ok (p := disablePrim) hr rfl rfl), fun hf => ?_, fun k ho => ?_⟩
  · exact hexec.trans (calling_ok hr (enablePrim_completes (noFailure_tail hf).1) rfl)
  · exact hexec.trans (calling_err hr (enablePrim_fails ho))

/-- R180, R89: the index of a capability names its bit. -/
theorem supportsBit_capIndex (b : BackendSpec) (c : Capability) :
    supportsBit b (BitVec.ofNat 3 (capIndex c)) = hasCap b c := by
  cases c <;> rfl

/-- Settles O31: the body answers the bit, and the bits of the masks named. -/
theorem supportsAnswersTheMask : Obligations.SupportsAnswersTheMask := by
  refine ⟨fun s cap hr => command_value hr rfl rfl, supportsBit_capIndex, fun b cap h => ?_, fun b h => ?_,
    fun b h => ?_, fun _ => rfl⟩
  · rw [supportsBit, decide_eq_false (Nat.not_lt.mpr h), Bool.false_and]
  · exact (supportsBit_capIndex b .transfer).trans (Bool.and_eq_true_iff.mp h).1
  · rw [show (2#3) = BitVec.ofNat 3 (capIndex .state) from rfl, supportsBit_capIndex, hasCap, h]
    rfl

/-- R200: `STATE_SET` in the frame. -/
theorem exec_stateSet {s : State} (target : TapState) (f : Bool) (hr : Ready s)
    (hc : hasCap s.io.backend.spec .state = true) :
    exec (.stateSet target f) s = command (drivingBody (stateSetPrim target f) fun _ => .ack) s :=
  command_needCap hr hc

/-- R200, R272: `STATE_SET` with edges where the backend serves; the refresh finds the bookkeeping at the target. -/
theorem exec_stateSet_completes {s : State} {target : TapState} {f : Bool} (hr : Ready s) (hf : Serves s.io)
    (hc : hasCap s.io.backend.spec .state = true) (hne : stateSetBits s.io.backend.book target f ≠ []) :
    ∃ io', exec (.stateSet target f) s =
        .next (answer s { ctrl := { s.ctrl with currentState := target }, io := io' } .ack) ∧
      Drives (stateSetEdges s.io.backend.book target f) s.io io' ∧ io'.backend.book = target := by
  obtain ⟨io', h, dr⟩ := stateSetPrim_completes (target := target) (f := f) hf
  have hbook : io'.backend.book = target := by
    rw [dr.book, stateSetEdges, edgesOf_tms (zeros_length _).symm, tapRun_stateSetBits]
  refine ⟨io', ?_, dr, hbook⟩
  rw [exec_stateSet target f hr hc, driving_ok hr h dr (edgesOf_ne_nil hne (zeros_length _)), refreshed, dr.spec, hc,
    if_pos rfl, hbook]

/-- R200, R186, R307: `STATE_SET` with edges whose call fails. -/
theorem exec_stateSet_fails {s : State} {target : TapState} {f : Bool} {j : Nat} {k : ErrKind} (hr : Ready s)
    (hu : Usable s.io) (hc : hasCap s.io.backend.spec .state = true)
    (hne : stateSetBits s.io.backend.book target f ≠ [])
    (h : failureOf s.io.backend.spec.variant (nextOutcome s.io) = some (k, j))
    (hk : k = .timeoutError ∨ k = .busFault) :
    ∃ io', exec (.stateSet target f) s =
        .next (answer s { ctrl := { s.ctrl with stateKnown := false }, io := io' } (.error k)) ∧
      Drives ((stateSetEdges s.io.backend.book target f).take j) s.io io' := by
  obtain ⟨io', hb, dr⟩ := burst_fails (tms := stateSetBits s.io.backend.book target f)
    (tdi := zeros (stateSetBits s.io.backend.book target f).length) h
  have hp : stateSetPrim target f s.io = (.err k, io') := (stateSetPrim_burst hu hne).trans (andThen_err hb)
  exact ⟨io', (exec_stateSet target f hr hc).trans (driving_fault hr hp hk), dr⟩

/-- Settles O29: the bookkeeping read, and `stateSet` without edges, with its edges delivered, and with
the first of them. -/
theorem statePrimitives : Obligations.StatePrimitives := by
  intro s hr hu hc
  refine ⟨(command_needCap hr hc).trans (calling_ok hr (stateGetPrim_eq hu) rfl), fun target f tms htms => ?_⟩
  obtain rfl : tms = stateSetBits s.io.backend.book target f := htms
  refine ⟨fun hnil => ?_, fun hne hf => exec_stateSet_completes hr hf hc hne, fun k hne =>
    ⟨fun ho => ?_, fun ho hv => ?_⟩⟩
  · have hbody : drivingBody (stateSetPrim target f) (fun _ => .ack) (grant s).toEngine =
        (.ok .ack, (grant s).toEngine) :=
      andThen_ok (clearOnFault_ok (callBackend_apply (stateSetPrim_none hu hnil)))
    exact (exec_stateSet target f hr hc).trans (command_value hr hbody rfl)
  · exact exec_stateSet_fails hr hu hc hne (by rw [ho, failureOf_fails]) (.inr rfl)
  · exact exec_stateSet_fails hr hu hc hne (by rw [ho, failureOf_timesOut hv]) (.inl rfl)

end Sys2Proof.Machine
end

section
/-! SUPPORT. The backend operations and the controller: what each may write of it (R261, R272, R307), and what is
answered where the backend is disabled, so that no primitive is called (R201, D37). -/

namespace Sys2Proof.Machine

/-! ### What a backend operation leaves of the controller -/

/-- R181, R202, R200: the three backend operations that drive edges. -/
def DrivesBareEdges (i : Instr) : Prop :=
  (∃ m d n, i = .transfer m d n) ∨ (∃ m d, i = .edge m d) ∨ ∃ target f, i = .stateSet target f

/-- R307: `stateKnown` after an error of kind `k`, of an operation that drives edges where `drives`. -/
def ClearedBy (drives : Prop) (k : ErrKind) (before known : Bool) : Prop :=
  known = false ↔ before = false ∨ (k = .timeoutError ∨ k = .busFault) ∧ drives

/-- What a body that ran from `e` leaves of the controller: all of it after a value, all but `stateKnown` after an
error. -/
def LeavesController (drives : Prop) (e : Engine) : Ret Result × Engine → Prop
  | (.ok v, e') => e'.ctrl = e.ctrl ∧ ∀ k, v ≠ .error k
  | (.err k, e') =>
    ∃ known, e'.ctrl = { e.ctrl with stateKnown := known } ∧ ClearedBy drives k e.ctrl.stateKnown known
  | (.stop _, _) => True

section
variable {α : Type} {drives : Prop}

theorem clearedBy_same {k : ErrKind} (known : Bool) (h : (k = .timeoutError ∨ k = .busFault) → ¬drives) :
    ClearedBy drives k known known :=
  ⟨.inl, fun h' => h'.elim id fun hk => absurd hk.2 (h hk.1)⟩

theorem leavesController_driving (hd : drives) (p : Prim α) {f : α → Result} (hf : ∀ a k, f a ≠ .error k) (e : Engine) :
    LeavesController drives e (drivingBody p f e) := by
  rcases drivingBody_cases p f e with
    ⟨a, io', -, h⟩ | ⟨k, io', -, hk, h⟩ | ⟨k, io', -, hk, h⟩ | ⟨x, io', -, h⟩ <;> rw [h]
  · exact ⟨rfl, hf a⟩
  · exact ⟨false, rfl, iff_of_true rfl (.inr ⟨hk, hd⟩)⟩
  · exact ⟨e.ctrl.stateKnown, rfl, clearedBy_same _ (by rcases hk with rfl | rfl <;> simp)⟩
  · trivial

theorem leavesController_calling (hd : ¬drives) (p : Prim α) {f : α → Result} (hf : ∀ a k, f a ≠ .error k)
    (e : Engine) : LeavesController drives e (callingBody p f e) := by
  unfold callingBody
  rcases h : p e.io with ⟨a | k | x, io'⟩
  · rw [andThen_ok (callBackend_apply h)]
    exact ⟨rfl, hf a⟩
  · rw [andThen_err (callBackend_apply h)]
    exact ⟨e.ctrl.stateKnown, rfl, clearedBy_same _ fun _ => hd⟩
  · rw [andThen_stop (callBackend_apply h)]
    trivial

theorem leavesController_check {c : Bool} {f : Unit → Body Result} {e : Engine}
    (h : LeavesController drives e (f () e)) :
    LeavesController drives e (andThen (check c .unsupportedOperation) f e) := by
  cases c
  · exact ⟨e.ctrl.stateKnown, rfl, clearedBy_same _ (by simp)⟩
  · exact h

theorem leavesController_needCap {c : Capability} {f : Unit → Body Result} {e : Engine}
    (h : LeavesController drives e (f () e)) : LeavesController drives e (andThen (needCap c) f e) :=
  leavesController_check h

end

/-- R318: every backend operation, one by one. -/
theorem isBackend_leavesController {i : Instr} (h : i.isBackend = true) :
    ∃ body, (∀ s, exec i s = command body s) ∧ ∀ e, LeavesController (DrivesBareEdges i) e (body e) := by
  cases i with
  | transfer m d n =>
    exact ⟨_, fun _ => rfl, leavesController_driving (.inl ⟨m, d, n, rfl⟩) (transferPrim m d n) (by simp)⟩
  | edge m d =>
    exact ⟨_, fun _ => rfl, fun e => leavesController_needCap
      (leavesController_driving (.inr (.inl ⟨m, d, rfl⟩)) (rawEdgePrim m d) (by simp) e)⟩
  | stateSet target f =>
    exact ⟨_, fun _ => rfl, fun e => leavesController_needCap
      (leavesController_driving (.inr (.inr ⟨target, f, rfl⟩)) (stateSetPrim target f) (by simp) e)⟩
  | freqGet =>
    exact ⟨_, fun _ => rfl, fun e => leavesController_needCap
      (leavesController_calling (by simp [DrivesBareEdges]) freqGetPrim (by simp) e)⟩
  | freqSet hz =>
    exact ⟨_, fun _ => rfl, fun e => leavesController_needCap (leavesController_check
      (leavesController_calling (by simp [DrivesBareEdges]) (freqSetPrim hz) (by simp) e))⟩
  | stateGet =>
    exact ⟨_, fun _ => rfl, fun e => leavesController_needCap
      (leavesController_calling (by simp [DrivesBareEdges]) stateGetPrim (by simp) e)⟩
  | enable =>
    exact ⟨_, fun _ => rfl, fun e => leavesController_needCap
      (leavesController_calling (by simp [DrivesBareEdges]) enablePrim (by simp) e)⟩
  | disable =>
    exact ⟨_, fun _ => rfl, fun e => leavesController_needCap
      (leavesController_calling (by simp [DrivesBareEdges]) disablePrim (by simp) e)⟩
  | supports cap => exact ⟨_, fun _ => rfl, fun e => ⟨rfl, by simp⟩⟩
  | _ => cases h

/-- R272: the refresh writes the position only, and only what a backend with STATE keeps of it. -/
theorem refresh_position (before after : Engine) :
    ∃ pos, refresh before after = setCurrent pos after ∧
      (pos = after.ctrl.currentState ∨ (hasCap after.io.backend.spec .state = true ∧ pos = after.io.backend.book)) := by
  unfold refresh
  split
  · next h => exact ⟨_, rfl, .inr ⟨h.1, rfl⟩⟩
  · exact ⟨_, rfl, .inl rfl⟩

/-- Settles O36: the body leaves the controller but for `stateKnown`, and the frame but for the position. -/
theorem backendOperationsLeaveTheController : Obligations.BackendOperationsLeaveTheController := by
  intro i s t hi hr ht
  obtain ⟨body, hexec, hleaves⟩ := isBackend_leavesController hi
  have hbody := hleaves (grant s).toEngine
  rw [hexec, command_ready hr] at ht
  rcases h : body (grant s).toEngine with ⟨v | k | x, ctrl, io⟩ <;> rw [h] at hbody ht <;> cases ht
  · obtain ⟨rfl, hv⟩ := hbody
    obtain ⟨pos, hrefresh, hpos⟩ := refresh_position (grant s).toEngine ⟨(grant s).toEngine.ctrl, io⟩
    refine ⟨pos, s.ctrl.stateKnown, v, ?_, ?_, ?_⟩
    · rw [hrefresh]
      rfl
    · rw [hrefresh]
      exact hpos
    · exact ⟨.inl, fun h => h.elim id fun hk => hk.1.elim (fun h => absurd h (hv _)) fun h => absurd h (hv _)⟩
  · obtain ⟨known, rfl, hknown⟩ := hbody
    refine ⟨s.ctrl.currentState, known, .error k, rfl, .inl rfl, ?_⟩
    rw [Result.error.injEq, Result.error.injEq]
    exact hknown

/-! ### A disabled backend -/

/-- R201: a command whose body makes no call while the backend may not be called. -/
theorem command_quiet {body : Body Result} {s : State} (hr : Ready s) (hu : ¬Usable s.io) (hq : Quiet body) :
    ∃ t r, command body s = .next t ∧ t.io = s.io ∧ t.results = s.results ++ [(s.caller, r)] := by
  obtain ⟨hio, hstop⟩ := hq (grant s).toEngine hu
  rw [command_ready hr]
  rcases h : body (grant s).toEngine with ⟨v | k | x, e⟩ <;> rw [h] at hio hstop
  · exact ⟨_, v, rfl, (refresh_io _ _).trans hio, rfl⟩
  · exact ⟨_, .error k, rfl, hio, rfl⟩
  · exact absurd rfl (hstop x)

section
variable {α : Type} {p : Prim α} {f : α → Result} {s : State}

theorem calling_disabled (hr : Ready s) (h : p s.io = (.err .busFault, s.io)) :
    command (callingBody p f) s = .next (answer s s.toEngine (.error .busFault)) := calling_err hr h

theorem driving_disabled (hr : Ready s) (h : p s.io = (.err .busFault, s.io)) :
    command (drivingBody p f) s = .next (answer s (clearKnown s.toEngine) (.error .busFault)) :=
  driving_fault hr h (.inr rfl)

end

/-- R275, R201: a navigation on a disabled backend: one without edges makes no call. -/
theorem navTransfer_disabled {tms : BitSeq} {io : Interface} (hu : ¬Usable io) (hl : LimitOk io) (hne : tms ≠ []) :
    navTransfer tms io = (.err .busFault, io) := by
  have ⟨hadj, hlim⟩ := navChunks_adjacent (n := tms.length) hl
  have hpos : 0 ≠ tms.length := (List.length_pos_iff_ne_nil.mpr hne).ne
  exact andThen_err (sendRanges_disabled (zeros_length _).symm hu hadj hpos le_rfl hlim)

theorem navTransfer_nil (io : Interface) : navTransfer [] io = (.ok (), io) := by
  unfold navTransfer navChunks
  cases maxTransferBits io.backend.spec <;> rfl

/-- R265: a `setState` on a backend without STATE has no edges only where the position is known, is the target, and no
reset is asked for. -/
theorem setStateBits_eq_nil {e : Engine} {target : TapState} {f : Bool} (hc : hasCap e.io.backend.spec .state = false)
    (h : setStateBits e target f = []) :
    (f || !e.ctrl.stateKnown) = false ∧ tapPath e.ctrl.currentState target = [] := by
  unfold setStateBits at h
  cases hr : f || !e.ctrl.stateKnown <;> rw [hr] at h
  · rw [hc] at h
    exact ⟨rfl, h⟩
  · cases h

/-- R265, R201: a `setState` that needs a call of a disabled backend ends without it. -/
theorem setStateDrive_disabled {e : Engine} {target : TapState} {f : Bool} (hu : ¬Usable e.io) (hl : LimitOk e.io)
    (hneed : hasCap e.io.backend.spec .state = true ∨ setStateBits e target f ≠ []) :
    setStateDrive target f e = (.err .busFault, e) := by
  unfold setStateDrive
  cases hc : hasCap e.io.backend.spec .state
  · have hbits := hneed.resolve_left (by simp [hc])
    rw [if_neg (by decide), setStateByPath]
    cases hr : f || !e.ctrl.stateKnown
    · rw [setStateBits, hr, hc] at hbits
      exact callBackend_apply (navTransfer_disabled hu hl hbits)
    · exact andThen_err (hardReset_disabled hu hl)
  · exact callBackend_apply (stateSetPrim_disabled _ _ hu)

/-- R265: a `setState` to the position held makes no call on a backend without STATE. -/
theorem setStateDrive_none {e : Engine} {target : TapState} {f : Bool} (hc : hasCap e.io.backend.spec .state = false)
    (hbits : setStateBits e target f = []) : setStateDrive target f e = (.ok (), e) := by
  obtain ⟨hr, hpath⟩ := setStateBits_eq_nil hc hbits
  unfold setStateDrive setStateByPath
  rw [hc, hr, if_neg (by decide)]
  exact callBackend_apply (hpath ▸ navTransfer_nil e.io)

theorem setKnown_self {e : Engine} {t : TapState} (hk : e.ctrl.stateKnown = true) (ht : e.ctrl.currentState = t) :
    setKnown t e = e := by
  unfold setKnown
  rw [← hk, ← ht]

/-- R265, R201, R307: `SET_STATE` on a disabled backend. -/
theorem exec_setState_disabled {s : State} {target : TapState} (f : Bool) (hr : Ready s) (hu : ¬Usable s.io)
    (hl : LimitOk s.io) (hs : stable target = true) :
    exec (.setState target f) s =
      if hasCap s.io.backend.spec .state = true ∨ setStateBits s.toEngine target f ≠ [] then
        .next (answer s (clearKnown s.toEngine) (.error .busFault))
      else .next (answer s s.toEngine .ack) := by
  have hbody := setStateBody_eq f (grant s).toEngine hs
  split
  · next hneed =>
    rw [setStateDrive_disabled (e := (grant s).toEngine) hu hl hneed] at hbody
    exact command_error (e := clearKnown s.toEngine) hr hbody
  · next hnone =>
    obtain ⟨hc, hbits⟩ : hasCap s.io.backend.spec .state = false ∧ setStateBits s.toEngine target f = [] := by
      simpa using hnone
    rw [setStateDrive_none (e := (grant s).toEngine) hc hbits] at hbody
    obtain ⟨hreset, hpath⟩ := setStateBits_eq_nil hc hbits
    have hknown : s.ctrl.stateKnown = true := (Bool.not_eq_false' _).mp (Bool.or_eq_false_iff.mp hreset).2
    have hpos : s.ctrl.currentState = target := by simpa [hpath] using tapRun_tapPath s.ctrl.currentState target
    exact (command_value (e := setKnown target s.toEngine) hr hbody rfl).trans (by rw [setKnown_self hknown hpos])

/-- Settles O33: no body calls a primitive, and each operation that needs one ends as its failure entry says. -/
theorem disabledBackendIsNotCalled : Obligations.DisabledBackendIsNotCalled := by
  intro s hr hu
  refine ⟨fun i hi hne hnd => ?_, fun m d hm hd hl => ?_, fun m d hc => ⟨?_, ?_⟩,
    fun hc => ⟨?_, fun hz hz0 => ⟨?_, ?_⟩⟩,
    fun hc => ⟨?_, fun target f => ?_⟩, fun hl => ⟨?_, fun p d n e b hd ha => ?_, fun target f hs => ?_⟩⟩
  · obtain ⟨body, hexec, hq⟩ := takesLock_quiet hi hne hnd
    rw [hexec]
    exact command_quiet hr hu hq
  · rw [exec_transfer]
    exact driving_disabled hr (transferPrim_disabled hu (mt List.length_eq_zero_iff.mp hm) rfl hd hl)
  · exact (exec_edge m d hr hc).trans (driving_disabled hr (rawEdgePrim_disabled m d hu))
  · have hcall := callBackend_apply (e := (grant s).toEngine) (rawEdgePrim_disabled m d hu)
    exact (command_needCap hr hc).trans
      (command_error (e := clearKnown s.toEngine) hr (andThen_err (clearOnError_err hcall)))
  · exact (command_needCap hr hc).trans (calling_disabled hr (freqGetPrim_disabled hu))
  · exact (exec_freqSet hr hc hz0).trans (calling_disabled hr (freqSetPrim_disabled hz hu))
  · refine (command_needCap hr hc).trans ?_
    have hcall := callBackend_apply (e := (grant s).toEngine) (freqSetPrim_disabled hz hu)
    rw [bne_iff_ne.mpr hz0]
    exact command_error hr ((andThen_ok (check_true _ _)).trans (andThen_err hcall))
  · exact (command_needCap hr hc).trans (calling_disabled hr (stateGetPrim_disabled hu))
  · exact (exec_stateSet target f hr hc).trans (driving_disabled hr (stateSetPrim_disabled target f hu))
  · exact command_error (e := clearKnown s.toEngine) hr
      (andThen_err (clearOnError_err (hardReset_disabled (e := (grant s).toEngine) hu hl)))
  · have hscan := scanCore_disabled p hd (eng := (grant s).toEngine) hu hl ha
    have hbody : executeScanBody p d n e b (grant s).toEngine =
        (.err .busFault, clearKnown (freezeChain (grant s).toEngine)) := by
      unfold executeScanBody
      rw [bne_iff_ne.mpr hd]
      exact (andThen_ok (check_true _ _)).trans (andThen_err hscan)
    exact command_error (e := clearKnown (freezeChain s.toEngine)) hr hbody
  · exact exec_setState_disabled f hr hu hl hs

end Sys2Proof.Machine
end

section
/-! SUPPORT. R195: a stream packed into the words of the accelerated variant. Each word holds a slice of the stream, so
its bits are those of the stream at their places, and the words unpacked are the stream with zeros after it. -/

namespace Sys2Proof.Machine

/-- R12: the bits of the number of a sequence are its elements. -/
theorem testBit_bitsToNat (b : BitSeq) (k : Nat) : (bitsToNat b).testBit k = b[k]?.getD false := by
  induction b generalizing k with
  | nil => exact Nat.zero_testBit k
  | cons x r ih =>
    have hhalf : (x.toNat + 2 * bitsToNat r) / 2 = bitsToNat r := by cases x <;> simp [Nat.add_mul_div_left]
    unfold bitsToNat
    cases k with
    | zero => cases x <;> simp [Nat.testBit_zero, Nat.add_mod]
    | succ k => rw [Nat.testBit_succ, hhalf, ih, List.getElem?_cons_succ]

section
variable {w : Nat}

@[simp] theorem packWords_nil (fuel : Nat) : packWords w fuel [] = [] := by cases fuel <;> rfl

theorem packWords_succ (fuel : Nat) {b : BitSeq} (hb : b ≠ []) :
    packWords w (fuel + 1) b = bitsToNat (b.take w) :: packWords w fuel (b.drop w) := by
  rw [packWords, if_neg (by simpa using hb)]

/-- What is left of a stream after its first word. -/
theorem length_drop_le {fuel : Nat} {b : BitSeq} (hw : 1 ≤ w) (h : b.length ≤ fuel + 1) : (b.drop w).length ≤ fuel := by
  rw [List.length_drop]
  omega

/-- R195: word `j` is the number of the `w` bits from `j * w` on. -/
theorem packWords_getElem? (hw : 1 ≤ w) {fuel : Nat} {b : BitSeq} (h : b.length ≤ fuel) (j : Nat) :
    (packWords w fuel b)[j]? = if j * w < b.length then some (bitsToNat ((b.drop (j * w)).take w)) else none := by
  induction fuel generalizing b j with
  | zero =>
    obtain rfl := List.length_eq_zero_iff.mp (Nat.le_zero.mp h)
    simp
  | succ fuel ih =>
    by_cases hb : b = []
    · subst hb
      simp
    have hpos := List.length_pos_iff_ne_nil.mpr hb
    rw [packWords_succ fuel hb]
    cases j with
    | zero => simp [hpos]
    | succ j =>
      have hlt : j * w < (b.drop w).length ↔ (j + 1) * w < b.length := by
        rw [List.length_drop, Nat.succ_mul]
        omega
      rw [List.getElem?_cons_succ, ih (length_drop_le hw h), List.drop_drop, Nat.add_comm w, ← Nat.succ_mul]
      simp only [hlt]

/-- R195: the least number of words. -/
theorem packWords_length (hw : 1 ≤ w) {fuel : Nat} {b : BitSeq} (h : b.length ≤ fuel) :
    (packWords w fuel b).length = (b.length + w - 1) / w := by
  have hnone : (0 + w - 1) / w = 0 := Nat.div_eq_of_lt (by omega)
  induction fuel generalizing b with
  | zero =>
    obtain rfl := List.length_eq_zero_iff.mp (Nat.le_zero.mp h)
    exact hnone.symm
  | succ fuel ih =>
    by_cases hb : b = []
    · subst hb
      exact hnone.symm
    have hpos := List.length_pos_iff_ne_nil.mpr hb
    have hrest : (b.length - w + w - 1) / w = (b.length - 1) / w := by
      by_cases hle : w ≤ b.length
      · rw [Nat.sub_add_cancel hle]
      · rw [Nat.div_eq_of_lt (by omega), Nat.div_eq_of_lt (by omega)]
    rw [packWords_succ fuel hb, List.length_cons, ih (length_drop_le hw h), List.length_drop, hrest,
      show b.length + w - 1 = b.length - 1 + w by omega, Nat.add_div_right _ hw]

/-- R195: the words unpacked are the stream and the unused bits of the last word, which are 0. -/
theorem packWords_unpacked (hw : 1 ≤ w) {fuel : Nat} {b : BitSeq} (h : b.length ≤ fuel) :
    ∃ m, (packWords w fuel b).flatMap (fun v => natToBits v w) = b ++ zeros m := by
  induction fuel generalizing b with
  | zero =>
    obtain rfl := List.length_eq_zero_iff.mp (Nat.le_zero.mp h)
    exact ⟨0, rfl⟩
  | succ fuel ih =>
    by_cases hb : b = []
    · subst hb
      exact ⟨0, rfl⟩
    rw [packWords_succ fuel hb, List.flatMap_cons]
    by_cases hle : w ≤ b.length
    · obtain ⟨m, hm⟩ := ih (length_drop_le hw h)
      have hword := natToBits_bitsToNat (b.take w) 0
      rw [List.length_take_of_le hle, Nat.add_zero] at hword
      refine ⟨m, ?_⟩
      rw [hm, hword, ← List.append_assoc]
      simp [zeros]
    · have hword := natToBits_bitsToNat b (w - b.length)
      rw [Nat.add_sub_of_le (by omega)] at hword
      refine ⟨w - b.length, ?_⟩
      rw [List.take_of_length_le (by omega), List.drop_eq_nil_of_le (by omega), hword]
      simp

end

/-- R195: bit `k` of word `j` is bit `j * w + k` of the stream, where the word has that many. -/
theorem testBit_pack {w : Nat} (hw : 1 ≤ w) {b : BitSeq} {j v : Nat} (h : (pack w b)[j]? = some v) (k : Nat) :
    v.testBit k = if k < w then b[j * w + k]?.getD false else false := by
  rw [pack, packWords_getElem? hw le_rfl] at h
  split at h
  · cases h
    rw [testBit_bitsToNat, List.getElem?_take, List.getElem?_drop]
    split <;> rfl
  · cases h

/-- Settles O34: the bits of each word, the number of words, and the words unpacked. -/
theorem wordPackingRoundTrip : Obligations.WordPackingRoundTrip := by
  intro w b hw
  refine ⟨fun k v x hx hv => ?_, packWords_length hw le_rfl, fun j k v hv hk => ?_, ?_⟩
  · rw [testBit_pack hw hv, if_pos (Nat.mod_lt k hw), Nat.div_add_mod', hx]
    rfl
  · rw [testBit_pack hw hv] at hk
    split at hk
    · next hlt =>
      refine ⟨hlt, ?_⟩
      by_contra hge
      rw [List.getElem?_eq_none (by omega)] at hk
      cases hk
    · cases hk
  · obtain ⟨m, hm⟩ := packWords_unpacked hw (le_refl b.length)
    rw [unpack, pack, hm, List.take_left]

end Sys2Proof.Machine
end

section
/-! SUPPORT. R185, R303: a bitbang backend has no bounded wait, so nothing that calls one ends in a `TimeoutError`; the
wait for the lock is the one wait left. -/

namespace Sys2Proof.Machine

/-- An end other than a `TimeoutError`, with a value that has the property `Q`. -/
def Timely {α : Type} (Q : α → Prop) : Ret α → Prop
  | .ok a => Q a
  | .err k => k ≠ .timeoutError
  | .stop _ => True

/-- From a state with the property `P` a computation keeps it and does not end in a `TimeoutError`. -/
def Prompt {σ α : Type} (P : σ → Prop) (Q : α → Prop) (m : Act σ α) : Prop := ∀ s, P s → Timely Q (m s).1 ∧ P (m s).2

/-- R185: the backend is a bitbang one. -/
def OnBitbang (io : Interface) : Prop := io.backend.spec.variant = .bitbang

/-- A primitive of a bitbang backend does not time out. -/
abbrev PromptPrim {α : Type} (p : Prim α) : Prop := Prompt OnBitbang (fun _ => True) p

/-- A part of a body does not time out on a bitbang backend. -/
abbrev PromptPart {α : Type} (m : Body α) : Prop := Prompt (fun e : Engine => OnBitbang e.io) (fun _ => True) m

/-- The body of an operation does not time out on a bitbang backend, nor answers a `TimeoutError` as a value. -/
abbrev PromptBody (m : Body Result) : Prop := Prompt (fun e : Engine => OnBitbang e.io) (· ≠ .error .timeoutError) m

/-! ### What the combinators keep -/

section
variable {σ α β : Type} {P : σ → Prop} {Q : α → Prop} {R : β → Prop}

theorem prompt_done {a : α} (h : Q a) : Prompt P Q (done a) := fun _ hs => ⟨h, hs⟩

theorem prompt_check {Q : Unit → Prop} (c : Bool) {k : ErrKind} (hk : k ≠ .timeoutError) (h : Q ()) :
    Prompt P Q (check c k) := by
  cases c
  · exact fun _ hs => ⟨hk, hs⟩
  · exact fun _ hs => ⟨h, hs⟩

theorem prompt_update {f : σ → σ} (h : ∀ s, P s → P (f s)) : Prompt P (fun _ => True) (update f) :=
  fun s hs => ⟨trivial, h s hs⟩

theorem prompt_andThen {m : Act σ α} {f : α → Act σ β} (hm : Prompt P (fun _ => True) m) (hf : ∀ a, Prompt P R (f a)) :
    Prompt P R (andThen m f) := by
  intro s hs
  have h := hm s hs
  rcases andThen_cases m f s with ⟨a, s', e, e'⟩ | ⟨k, s', e, e'⟩ | ⟨x, s', e, e'⟩ <;> rw [e] at h <;> rw [e']
  · exact hf a s' h.2
  · exact h
  · exact h

end

section
variable {α : Type} {Q : α → Prop}

theorem prompt_clearOnError {m : Body α} (hm : Prompt (fun e => OnBitbang e.io) Q m) :
    Prompt (fun e => OnBitbang e.io) Q (clearOnError m) := by
  intro e he
  have h := hm e he
  unfold clearOnError
  rcases hm : m e with ⟨a | k | x, e'⟩ <;> rw [hm] at h <;> exact h

theorem prompt_clearOnFault {m : Body α} (hm : Prompt (fun e => OnBitbang e.io) Q m) :
    Prompt (fun e => OnBitbang e.io) Q (clearOnFault m) := by
  intro e he
  have h := hm e he
  unfold clearOnFault
  rcases hm : m e with ⟨a | k | x, e'⟩ <;> rw [hm] at h
  · exact h
  · cases k <;> exact h
  · exact h

theorem prompt_callBackend {p : Prim α} (h : PromptPrim p) : PromptPart (callBackend p) := fun e he => h e.io he

theorem prompt_needCap (c : Capability) : PromptPart (needCap c) := by
  intro e he
  have hcheck : PromptPart (check (hasCap e.io.backend.spec c) .unsupportedOperation) :=
    prompt_check _ (by decide) trivial
  exact hcheck e he

/-- R201: a disabled backend answers a `BusFault`. -/
theorem prompt_whenEnabled {p : Prim α} (h : PromptPrim p) : PromptPrim (whenEnabled p) := by
  intro io hio
  by_cases hu : Usable io
  · rw [whenEnabled_usable p hu]
    exact h io hio
  · rw [whenEnabled_disabled p hu]
    exact ⟨by simp [Timely], hio⟩

end

/-! ### The primitives -/

theorem onBitbang_drives {es : List Edge} {io io' : Interface} (h : OnBitbang io) (d : Drives es io io') :
    OnBitbang io' := by
  rw [OnBitbang, d.spec]
  exact h

/-- R185: the failure of a bitbang call is a `BusFault`. -/
theorem failureOf_bitbang {d : BackendDraw} {k : ErrKind} {n : Nat} (h : failureOf .bitbang d = some (k, n)) :
    k ≠ .timeoutError := by
  cases d <;> cases h
  decide

theorem freqFailure_ne_timeout {v : Variant} {d : BackendDraw} {k : ErrKind} (h : freqFailure v d = some k) :
    k ≠ .timeoutError := by
  cases d <;> cases v <;> cases h <;> decide

theorem prompt_burst (tms tdi : BitSeq) : PromptPrim (burst tms tdi) := by
  intro io hio
  by_cases hb : nextOutcome io = .breaksContract
  · rw [burst, if_pos hb]
    exact ⟨trivial, hio⟩
  cases hf : failureOf io.backend.spec.variant (nextOutcome io) with
  | none =>
    obtain ⟨io', h, d⟩ := burst_delivers (tms := tms) (tdi := tdi) hb hf
    rw [h]
    exact ⟨trivial, onBitbang_drives hio d⟩
  | some kn =>
    obtain ⟨io', h, d⟩ := burst_fails (tms := tms) (tdi := tdi) hf
    rw [show io.backend.spec.variant = .bitbang from hio] at hf
    rw [h]
    exact ⟨failureOf_bitbang hf, onBitbang_drives hio d⟩

theorem prompt_transferPrim (tms tdi : BitSeq) (n : Nat) : PromptPrim (transferPrim tms tdi n) := by
  intro io hio
  rcases transferPrim_cases tms tdi n io with ⟨k, h, hk⟩ | ⟨-, -, -, -, -, h⟩ <;> rw [h]
  · exact ⟨by rcases hk with ⟨rfl, -⟩ | ⟨rfl, -⟩ | ⟨rfl, -⟩ <;> simp [Timely], hio⟩
  · exact prompt_burst tms tdi io hio

theorem prompt_rawEdgePrim (m d : Bool) : PromptPrim (rawEdgePrim m d) := by
  intro io hio
  by_cases hu : Usable io
  · rcases rawEdgePrim_cases m d hu with ⟨io', -, h, dr⟩ | ⟨k, io', -, h, dr⟩ <;> rw [h]
    · exact ⟨trivial, onBitbang_drives hio dr⟩
    · exact ⟨by simp [Timely], onBitbang_drives hio dr⟩
  · rw [rawEdgePrim_disabled m d hu]
    exact ⟨by simp [Timely], hio⟩

theorem prompt_stateSetPrim (target : TapState) (f : Bool) : PromptPrim (stateSetPrim target f) := by
  refine prompt_whenEnabled fun io hio => ?_
  dsimp only
  split
  · exact ⟨trivial, hio⟩
  · exact prompt_andThen (prompt_burst _ _) (fun _ => prompt_done trivial) io hio

theorem prompt_freqSetPrim (hz : Nat) : PromptPrim (freqSetPrim hz) := by
  intro io hio
  by_cases hu : Usable io
  · rcases freqSetPrim_cases hz hu with ⟨-, h⟩ | ⟨k, hk, h⟩ <;> rw [h]
    · exact ⟨trivial, hio⟩
    · exact ⟨freqFailure_ne_timeout hk, hio⟩
  · rw [freqSetPrim_disabled hz hu]
    exact ⟨by simp [Timely], hio⟩

theorem prompt_freqGetPrim : PromptPrim freqGetPrim := prompt_whenEnabled fun _ hio => ⟨trivial, hio⟩

theorem prompt_stateGetPrim : PromptPrim stateGetPrim := prompt_whenEnabled fun _ hio => ⟨trivial, hio⟩

theorem prompt_enablePrim : PromptPrim enablePrim := by
  intro io hio
  rcases enablePrim_cases io with h | ⟨k, -, h⟩ <;> rw [h]
  · exact ⟨trivial, hio⟩
  · exact ⟨by simp [Timely], hio⟩

theorem prompt_disablePrim : PromptPrim disablePrim := fun _ hio => ⟨trivial, hio⟩

theorem prompt_sendRanges (tms tdi : BitSeq) : ∀ rs : List (Nat × Nat), PromptPrim (sendRanges tms tdi rs)
  | [] => prompt_done trivial
  | (_, _) :: rs => prompt_andThen (prompt_transferPrim _ _ _) fun _ =>
      prompt_andThen (prompt_sendRanges tms tdi rs) fun _ => prompt_done trivial

theorem prompt_navTransfer (tms : BitSeq) : PromptPrim (navTransfer tms) := fun io hio =>
  prompt_andThen (prompt_sendRanges _ _ _) (fun _ => prompt_done trivial) io hio

/-! ### The parts of bodies -/

theorem prompt_hardReset : PromptPart hardReset :=
  prompt_andThen (prompt_callBackend (prompt_transferPrim _ _ _)) fun _ => prompt_update fun _ he => he

theorem prompt_recover : PromptPart recover := by
  intro e he
  unfold recover
  split
  · exact ⟨trivial, he⟩
  · exact prompt_hardReset e he

theorem prompt_scanCore (p : ScanTarget) (d : Direction) (n : Nat) (t : TapState) (b : BitSeq) :
    PromptPart (scanCore p d n t b) := by
  refine prompt_clearOnError (prompt_andThen (fun e he => ?_) fun _ =>
    prompt_andThen (prompt_update fun _ he => he) fun _ => prompt_andThen prompt_recover fun _ e he => ?_)
  · rcases scanChecks_cases p d n t b e with ⟨-, h⟩ | ⟨k, hk, -, h⟩ <;> rw [h]
    · exact ⟨trivial, he⟩
    · exact ⟨by rcases hk with rfl | rfl <;> simp [Timely], he⟩
  · exact prompt_andThen (prompt_callBackend (prompt_sendRanges _ _ _))
      (fun _ => prompt_andThen (prompt_update (f := setCurrent t) fun _ he => he) fun _ => prompt_done trivial) e he

theorem prompt_buildPayload (i : Nat) (b : BitSeq) : PromptPart (buildPayload i b) := by
  intro e he
  unfold buildPayload
  split
  · exact ⟨by simp [Timely], he⟩
  · split
    · exact ⟨trivial, he⟩
    · exact ⟨by simp [Timely], he⟩

theorem prompt_discoverOne (i : Nat) : PromptPart (discoverOne i) := by
  intro e he
  unfold discoverOne
  split
  · exact ⟨trivial, he⟩
  · split
    · exact ⟨trivial, he⟩
    · exact prompt_andThen (prompt_buildPayload _ _) (fun _ => prompt_andThen (prompt_scanCore _ _ _ _ _) fun _ =>
        prompt_andThen (prompt_scanCore _ _ _ _ _) fun _ => prompt_update (f := setIdcode _ _) fun _ he => he) e he

theorem prompt_discoverAll : ∀ is : List Nat, PromptPart (discoverAll is)
  | [] => prompt_done trivial
  | i :: is => prompt_andThen (prompt_discoverOne i) fun _ => prompt_discoverAll is

theorem prompt_setStateByPath (target : TapState) (reset : Bool) : PromptPart (setStateByPath target reset) := by
  refine prompt_andThen ?_ fun _ e he => prompt_callBackend (prompt_navTransfer _) e he
  cases reset
  · exact prompt_done trivial
  · exact prompt_hardReset

/-! ### The operations -/

theorem promptBody_value {body : Body Result} {v : Engine → Result} (hv : ∀ e, v e ≠ .error .timeoutError)
    (h : ∀ e, body e = (.ok (v e), e)) : PromptBody body := by
  intro e he
  rw [h]
  exact ⟨hv e, he⟩

/-- The last step of a body: it answers a value that is no error. -/
theorem promptBody_returning {α : Type} {m : Body α} {f : α → Result} (hm : PromptPart m)
    (hf : ∀ a, f a ≠ .error .timeoutError) : PromptBody (andThen m fun a => done (f a)) :=
  prompt_andThen hm fun a => prompt_done (hf a)

theorem promptBody_setState (target : TapState) (f : Bool) : PromptBody (setStateBody target f) := by
  intro e he
  refine prompt_andThen (prompt_check _ (by decide) trivial) (fun _ => prompt_andThen (prompt_clearOnError ?_) fun _ =>
    promptBody_returning (prompt_update (f := setKnown target) fun _ he => he) (by simp)) e he
  split
  · exact prompt_callBackend (prompt_stateSetPrim _ _)
  · exact prompt_setStateByPath _ _

theorem promptBody_setFrequency (hz : Nat) : PromptBody (setFrequencyBody hz) := by
  refine prompt_andThen (prompt_needCap _) fun _ => prompt_andThen (prompt_check _ (by decide) trivial) fun _ =>
    prompt_andThen (prompt_callBackend (prompt_freqSetPrim hz)) fun _ =>
      promptBody_returning (prompt_update fun e he => ?_) (by simp)
  unfold storeFrequency
  dsimp only
  split <;> exact he

theorem promptBody_rawEdge (m d : Bool) : PromptBody (rawEdgeBody m d) := by
  refine prompt_andThen (prompt_needCap _) fun _ =>
    prompt_andThen (prompt_clearOnError (prompt_callBackend (prompt_rawEdgePrim m d))) fun _ =>
      promptBody_returning (prompt_update fun e he => ?_) (by simp)
  unfold trackEdge
  split <;> exact he

theorem promptBody_dataPadding (t : Nat) : PromptBody (dataPaddingBody t) := by
  intro e he
  unfold dataPaddingBody
  split
  · exact ⟨by simp [Timely], he⟩
  · exact ⟨by simp [Timely], he⟩

/-- R318: every operation in the frame, one by one. -/
theorem takesLock_prompt {i : Instr} (h : i.takesLock = true) : ∃ b, (∀ s, exec i s = command b s) ∧ PromptBody b := by
  cases i with
  | attach => cases h
  | detach => cases h
  | getFrequency => exact ⟨_, fun _ => rfl, promptBody_value (by simp) fun _ => rfl⟩
  | setFrequency hz => exact ⟨_, fun _ => rfl, promptBody_setFrequency hz⟩
  | getState => exact ⟨_, fun _ => rfl, promptBody_value (fun e => by split <;> simp) fun _ => rfl⟩
  | setState target f => exact ⟨_, fun _ => rfl, promptBody_setState target f⟩
  | executeScan p d n t b =>
    exact ⟨_, fun _ => rfl, prompt_andThen (prompt_check _ (by decide) trivial) fun _ =>
      promptBody_returning (prompt_scanCore p d n t b) (by simp)⟩
  | rawEdge m d => exact ⟨_, fun _ => rfl, promptBody_rawEdge m d⟩
  | addDevice n =>
    exact ⟨_, fun _ => rfl, fun e he => prompt_andThen (prompt_check _ (by decide) trivial) (fun _ =>
      prompt_andThen (prompt_check _ (by decide) trivial) fun _ =>
        promptBody_returning (prompt_update (f := growChain n) fun _ he => he) (by simp)) e he⟩
  | buildInstructionPayload t b => exact ⟨_, fun _ => rfl, promptBody_returning (prompt_buildPayload t b) (by simp)⟩
  | discoverIdentifiers =>
    exact ⟨_, fun _ => rfl, fun e he => prompt_andThen (prompt_discoverAll _)
      (fun _ => promptBody_returning (prompt_clearOnError prompt_recover) (by simp)) e he⟩
  | dataPadding t => exact ⟨_, fun _ => rfl, promptBody_dataPadding t⟩
  | transfer m d n =>
    exact ⟨_, fun _ => rfl,
      promptBody_returning (prompt_clearOnFault (prompt_callBackend (prompt_transferPrim m d n))) (by simp)⟩
  | edge m d =>
    exact ⟨_, fun _ => rfl, prompt_andThen (prompt_needCap _) fun _ =>
      promptBody_returning (prompt_clearOnFault (prompt_callBackend (prompt_rawEdgePrim m d))) (by simp)⟩
  | freqGet =>
    exact ⟨_, fun _ => rfl, prompt_andThen (prompt_needCap _) fun _ =>
      promptBody_returning (prompt_callBackend prompt_freqGetPrim) (by simp)⟩
  | freqSet hz =>
    exact ⟨_, fun _ => rfl, prompt_andThen (prompt_needCap _) fun _ =>
      prompt_andThen (prompt_check _ (by decide) trivial) fun _ =>
        promptBody_returning (prompt_callBackend (prompt_freqSetPrim hz)) (by simp)⟩
  | stateGet =>
    exact ⟨_, fun _ => rfl, prompt_andThen (prompt_needCap _) fun _ =>
      promptBody_returning (prompt_callBackend prompt_stateGetPrim) (by simp)⟩
  | stateSet target f =>
    exact ⟨_, fun _ => rfl, prompt_andThen (prompt_needCap _) fun _ =>
      promptBody_returning (prompt_clearOnFault (prompt_callBackend (prompt_stateSetPrim target f))) (by simp)⟩
  | enable =>
    exact ⟨_, fun _ => rfl, prompt_andThen (prompt_needCap _) fun _ =>
      promptBody_returning (prompt_callBackend prompt_enablePrim) (by simp)⟩
  | disable =>
    exact ⟨_, fun _ => rfl, prompt_andThen (prompt_needCap _) fun _ =>
      promptBody_returning (prompt_callBackend prompt_disablePrim) (by simp)⟩
  | supports cap => exact ⟨_, fun _ => rfl, promptBody_value (by simp) fun _ => rfl⟩
  | next s b => exact ⟨_, fun _ => rfl, prompt_done (by simp)⟩
  | path a b => exact ⟨_, fun _ => rfl, prompt_done (by simp)⟩
  | hardReset => exact ⟨_, fun _ => rfl, promptBody_returning (prompt_clearOnError prompt_hardReset) (by simp)⟩
  | run s b => exact ⟨_, fun _ => rfl, prompt_done (by simp)⟩

/-! ### The results delivered -/

/-- R354: the results a step delivers, none of them a `TimeoutError`. -/
def DeliversNoTimeout (s t : State) : Prop :=
  ∃ more, t.results = s.results ++ more ∧ ∀ r ∈ more, r.2 ≠ .error .timeoutError

theorem deliversNoTimeout_one {s t : State} {v : Result} (h : t.results = s.results ++ [(s.caller, v)])
    (hv : v ≠ .error .timeoutError) : DeliversNoTimeout s t :=
  ⟨_, h, by simpa using hv⟩

theorem command_deliversNoTimeout {body : Body Result} {s t : State} (hb : PromptBody body) (hv : OnBitbang s.io)
    (hd : s.draw ≠ .expire) (h : command body s = .next t) : DeliversNoTimeout s t := by
  obtain ⟨hend, -⟩ := hb (grant s).toEngine hv
  rcases command_results h with h' | ⟨k, h', hk⟩ | ⟨v, e, hbody, h', -⟩
  · exact ⟨[], by simp [h'], by simp⟩
  · refine deliversNoTimeout_one h' ?_
    rcases hk with rfl | ⟨-, hexp⟩ | ⟨e, hbody⟩
    · simp
    · exact absurd hexp hd
    · rw [hbody] at hend
      exact fun h => hend (Result.error.inj h)
  · rw [hbody] at hend
    exact deliversNoTimeout_one h' hend

/-- R270, R201: an `enable` at construction fails with a `BusFault` only. -/
theorem enableIfAny_err {spec : BackendSpec} {io io' : Interface} {k : ErrKind}
    (h : enableIfAny spec io = (.err k, io')) : k = .busFault := by
  unfold enableIfAny at h
  split at h
  · rcases enablePrim_cases io with h' | ⟨_, -, h'⟩ <;> cases h.symm.trans h'
    rfl
  · cases h

theorem execAttach_deliversNoTimeout {layout : List Nat} {spec : BackendSpec} {s t : State}
    (h : execAttach layout spec s = .next t) : DeliversNoTimeout s t := by
  unfold execAttach at h
  split at h
  · cases h
  split at h
  · cases h
    exact deliversNoTimeout_one rfl (by simp)
  split at h
  · cases h
    exact deliversNoTimeout_one rfl (by simp)
  · next hk =>
    cases h
    exact deliversNoTimeout_one rfl (by simp [enableIfAny_err hk])
  · cases h

/-- R271: the waiters dismissed are answered `InvalidArgument`. -/
theorem dismiss_results (w : List CallerId) (u : State) :
    (w.foldl (fun t c => deliver c (.error .invalidArgument) t) u).results =
      u.results ++ w.map fun c => (c, .error .invalidArgument) := by
  induction w generalizing u with
  | nil => simp
  | cons c w ih => rw [List.foldl_cons, ih, deliver_results, List.append_assoc, List.map_cons, List.singleton_append]

theorem execDetach_deliversNoTimeout {s t : State} (h : execDetach s = .next t) : DeliversNoTimeout s t := by
  unfold execDetach at h
  split at h
  · cases h
    exact deliversNoTimeout_one rfl (by simp)
  split at h
  · cases h
  cases h
  refine ⟨s.ctrl.lock.waiters.map (fun c => (c, .error .invalidArgument)) ++
    [((dismissWaiters s).caller, .nothing)], ?_, fun r hr => ?_⟩
  · rw [← List.append_assoc, ← dismiss_results]
    rfl
  · rcases List.mem_append.mp hr with hr | hr
    · obtain ⟨c, -, rfl⟩ := List.mem_map.mp hr
      simp
    · rw [List.mem_singleton.mp hr]
      simp

/-- Settles O35: the operations in the frame by their bodies, and the two of the lifecycle, which call `enable` at
most. -/
theorem bitbangNeverTimesOut : Obligations.BitbangNeverTimesOut := by
  intro i s t hv hd ht
  cases hi : i.takesLock
  · cases i with
    | attach layout spec => exact execAttach_deliversNoTimeout ht
    | detach => exact execDetach_deliversNoTimeout ht
    | _ => cases hi
  · obtain ⟨b, hexec, hb⟩ := takesLock_prompt hi
    rw [hexec] at ht
    exact command_deliversNoTimeout hb hv hd ht

end Sys2Proof.Machine
end

section
/-! SUPPORT. The scan engine's own statements: the body on the reference chain (R234), what a scan rejects (R221), what
it leaves when it fails (R229 to R231), the edges it counts (R233), its partition into transfers (R227), and that the
partition does not show (R235). -/

namespace Sys2Proof.Machine

/-! ### The scan body on the reference chain -/

/-- What a path's register has no part in is read off the frame of a device. -/
theorem map_eq_of_frameOf {α : Type} {p : ScanTarget} {a b : List RefDevice}
    (h : a.map (frameOf p) = b.map (frameOf p)) {g : RefDevice → α} (hg : ∀ d, g (frameOf p d) = g d) :
    a.map g = b.map g := by
  have hread : ∀ l : List RefDevice, (l.map (frameOf p)).map g = l.map g := fun l => by
    rw [List.map_map]
    exact List.map_congr_left fun d _ => hg d
  rw [← hread, h, hread]

theorem pathRegister_frameOf {p q : ScanTarget} (h : q ≠ p) (d : RefDevice) :
    pathRegister q (frameOf p d) = pathRegister q d := by
  cases p <;> cases q
  case data.data | instruction.instruction => exact absurd rfl h
  case data.instruction | instruction.data => rfl

/-- Settles O20: the shift of a whole path, and the rest of each device read off its frame. -/
theorem shiftLaw : Obligations.ShiftLaw := by
  intro p io ds tdi h0 ht hne hr
  obtain ⟨hout, ds', htarget, hserial, hlengths, hframe⟩ := body_shift p h0 ht hne hr
  refine ⟨hout, ds', htarget, hserial, hlengths, map_eq_of_frameOf hframe fun d => ?_, fun q hq => ?_⟩
  · cases p <;> rfl
  · exact map_eq_of_frameOf hframe (pathRegister_frameOf hq)

/-! ### Accepted scans where the backend serves -/

/-- Settles O37: a scan completes as `scanCore` does, and the refresh follows it. -/
theorem executeScanCompletes : Obligations.ExecuteScanCompletes :=
  fun _ _ _ _ _ _ hr hd ha hf hl => exec_executeScan_completes hr hd ha hf hl

/-! ### Rejected scans -/

/-- R221: the checks that come before the one on the length limit. -/
theorem scanChecks_invalidArgument {p : ScanTarget} {d : Direction} {n : Nat} {e : TapState} {b : BitSeq} (eng : Engine)
    (h : n = 0 ∨ legalEnd p e = false ∨ (includesWrite d = true ∧ b.length ≠ n)) :
    scanChecks p d n e b eng = (.err .invalidArgument, eng) := by
  unfold scanChecks
  by_cases h1 : n = 0
  · subst h1
    rfl
  rw [bne_iff_ne.mpr h1, andThen_ok (check_true _ _)]
  cases h2 : legalEnd p e
  · rfl
  obtain ⟨hw, hlen⟩ : includesWrite d = true ∧ b.length ≠ n := by simpa [h1, h2] using h
  rw [andThen_ok (check_true _ _), hw, beq_false_of_ne hlen]
  rfl

/-- R221: a request that passes those, over `MAX_SCAN_BITS`. -/
theorem scanChecks_overLimit {p : ScanTarget} {d : Direction} {n : Nat} {e : TapState} {b : BitSeq} {eng : Engine}
    (h1 : n ≠ 0) (h2 : legalEnd p e = true) (h3 : includesWrite d = true → b.length = n)
    (h4 : overLimit eng.io.backend.spec.maxScan n = true) :
    scanChecks p d n e b eng = (.err .unsupportedOperation, eng) := by
  have hinput : (!includesWrite d || b.length == n) = true := by
    cases hw : includesWrite d
    · rfl
    · exact beq_iff_eq.mpr (h3 hw)
  unfold scanChecks
  rw [bne_iff_ne.mpr h1, andThen_ok (check_true _ _), h2, andThen_ok (check_true _ _), hinput,
    andThen_ok (check_true _ _), h4]
  rfl

/-- R229: a validation failure is a failure of the scan. -/
theorem scanCore_rejected {p : ScanTarget} {d : Direction} {n : Nat} {e : TapState} {b : BitSeq} {eng : Engine}
    {k : ErrKind} (h : scanChecks p d n e b eng = (.err k, eng)) :
    scanCore p d n e b eng = (.err k, clearKnown eng) :=
  clearOnError_err (andThen_err h)

/-- R266: past the check of the direction, the command is the scan and its answer. -/
theorem executeScanBody_eq {p : ScanTarget} {d : Direction} (hd : d ≠ .reserved) (n : Nat) (e : TapState) (b : BitSeq)
    (eng : Engine) :
    executeScanBody p d n e b eng = andThen (scanCore p d n e b) (fun out => done (.bits out)) eng := by
  unfold executeScanBody
  rw [bne_iff_ne.mpr hd]
  exact andThen_ok (check_true _ _)

/-- R261, R266: a scan that ends in an error. -/
theorem exec_executeScan_err {s : State} {p : ScanTarget} {d : Direction} {n : Nat} {e : TapState} {b : BitSeq}
    {k : ErrKind} {g : Engine} (hr : Ready s) (hd : d ≠ .reserved)
    (h : scanCore p d n e b (grant s).toEngine = (.err k, withLock (grantedLock s) g)) :
    exec (.executeScan p d n e b) s = .next (answer s g (.error k)) :=
  command_error hr ((executeScanBody_eq hd n e b _).trans (andThen_err h))

/-- R266: the reserved direction code. -/
theorem exec_executeScan_reserved {s : State} (p : ScanTarget) (n : Nat) (e : TapState) (b : BitSeq) (hr : Ready s) :
    exec (.executeScan p .reserved n e b) s = .next (answer s s.toEngine (.error .invalidArgument)) :=
  command_error (e := s.toEngine) hr (andThen_err (check_false _ _))

/-- Settles O38: the checks in their order, and the failure entry of the scan. -/
theorem scanValidation : Obligations.ScanValidation := by
  intro s p d n e b hr
  refine ⟨exec_executeScan_reserved p n e b hr, fun hd => ⟨fun h => ?_, fun h1 h2 h3 h4 => ?_⟩⟩
  · exact exec_executeScan_err (g := clearKnown s.toEngine) hr hd (scanCore_rejected (scanChecks_invalidArgument _ h))
  · exact exec_executeScan_err (g := clearKnown s.toEngine) hr hd
      (scanCore_rejected (scanChecks_overLimit (eng := (grant s).toEngine) h1 h2 h3 h4))

/-! ### Everything a scan command can do -/

/-- R266, R232, R229: a scan command that answers bits has delivered all its edges; one that answers an error was not
accepted, or has delivered the first of them; or the backend is refused (R311). -/
theorem exec_executeScan_cases {s : State} (p : ScanTarget) {d : Direction} (n : Nat) (e : TapState) (b : BitSeq)
    (hr : Ready s) (hd : d ≠ .reserved) (hl : LimitOk s.io) :
    (∃ out g, exec (.executeScan p d n e b) s = .next (answer s g (.bits out)) ∧ ScanAccepted s.io p d n e b ∧
        Drives (scanCommandEdges s.toEngine p d n e b) s.io g.io ∧ out.length = if includesRead d then n else 0) ∨
      (∃ k, exec (.executeScan p d n e b) s = .next (answer s (clearKnown s.toEngine) (.error k)) ∧
        ¬ScanAccepted s.io p d n e b) ∨
      (∃ k g, exec (.executeScan p d n e b) s = .next (answer s g (.error k)) ∧ ScanAccepted s.io p d n e b ∧
        ScanFailed (scanCommandEdges s.toEngine p d n e b) s.toEngine g) ∨
      ∃ x, exec (.executeScan p d n e b) s = .refused x := by
  rcases scanCore_cases p hd n e b (grant s).toEngine hl with
    ⟨out, io', ha, dr, h, hlen⟩ | ⟨k, g, h, ⟨hna, rfl, -⟩ | ⟨ha, es, pos, hp, dr, hc⟩⟩ | ⟨x, g, h⟩
  · refine .inl ⟨out, setCurrent (refreshed io' e) (scanDone e io' s.toEngine), ?_, ha, dr, hlen⟩
    have hbody : executeScanBody p d n e b (grant s).toEngine = (.ok (.bits out), scanDone e io' (grant s).toEngine) :=
      (executeScanBody_eq hd n e b _).trans (andThen_ok h)
    refine (command_ready hr).trans ?_
    rw [hbody]
    exact finish_ok (refresh_driven (e := scanDone e io' (grant s).toEngine) dr (scanCommandEdges_ne hd ha))
  · exact .inr (.inl ⟨k, exec_executeScan_err (g := clearKnown s.toEngine) hr hd h, hna⟩)
  · have hg : g = withLock (grantedLock s)
        { ctrl := { s.ctrl with currentState := pos, stateKnown := false, chainFrozen := true }, io := g.io } :=
      congrArg (Engine.mk · g.io) hc
    rw [hg] at h
    exact .inr (.inr (.inl ⟨k, _, exec_executeScan_err hr hd h, ha, es, pos, hp, dr, rfl⟩))
  · refine .inr (.inr (.inr ⟨x, (command_ready hr).trans ?_⟩))
    rw [executeScanBody_eq hd, andThen_stop h]
    rfl

/-- A result answered is the one result that is new. -/
theorem answer_results_inj {s : State} {g : Engine} {r r' : Result}
    (h : (answer s g r).results = s.results ++ [(s.caller, r')]) : r = r' := by
  simpa [answer] using h

/-- Settles O39: of the ways a scan can end, those that answer an error. -/
theorem failedScanClearsStateKnown : Obligations.FailedScanClearsStateKnown := by
  intro s t p d n e b k hr hd hl ht hres
  rcases exec_executeScan_cases p n e b hr hd hl with
    ⟨out, g, h, -⟩ | ⟨k', h, hna⟩ | ⟨k', g, h, ha, es, pos, hp, dr, hc⟩ | ⟨x, h⟩ <;> rw [h] at ht <;> cases ht
  · cases answer_results_inj hres
  · cases answer_results_inj hres
    exact ⟨fun ha => absurd ha hna, fun _ => rfl⟩
  · cases answer_results_inj hres
    refine ⟨fun _ => ⟨pos, g.io, es, dr, hp, ?_⟩, fun hna => absurd ha hna⟩
    rw [← hc]

/-! ### The edges of a scan, counted -/

theorem takenIn_append (q : TapState) (a b : BitSeq) (s : TapState) :
    takenIn q s (a ++ b) = takenIn q s a + takenIn q (tapRun s a) b := by
  induction a generalizing s with
  | nil => exact (Nat.zero_add _).symm
  | cons x r ih => simp only [List.cons_append, takenIn, tapRun_cons, ih, Nat.add_assoc]

/-- R223: the approach of a scan stops where it first reaches the Shift state. -/
theorem takenIn_approach (s : TapState) (p : ScanTarget) : takenIn (shiftOf p) s (tapPath s (shiftOf p)) = 0 := by
  cases s <;> cases p <;> rfl

/-- R225: the suffix of a scan stays out of the Shift state. -/
theorem takenIn_suffix {p : ScanTarget} {e : TapState} (h : legalEnd p e = true) :
    takenIn (shiftOf p) (exit1Of p) (tapPath (exit1Of p) e) = 0 := by
  revert h
  cases p <;> cases e <;> decide

theorem takenIn_zeros (p : ScanTarget) (n : Nat) : takenIn (shiftOf p) (shiftOf p) (zeros n) = n := by
  induction n with
  | zero => rfl
  | succ n ih =>
    have hstay : tapNext (shiftOf p) false = shiftOf p := by cases p <;> rfl
    show (if shiftOf p = shiftOf p then 1 else 0) + takenIn (shiftOf p) (tapNext (shiftOf p) false) (zeros n) = n + 1
    rw [if_pos rfl, hstay, ih, Nat.add_comm]

/-- R224: every edge of the body is taken in the Shift state. -/
theorem takenIn_bodyTms (p : ScanTarget) (n : Nat) : takenIn (shiftOf p) (shiftOf p) (bodyTms n) = n := by
  cases n with
  | zero => rfl
  | succ n =>
    rw [bodyTms_succ, takenIn_append, takenIn_zeros, tapRun_shiftOf_zeros]
    cases p <;> rfl

/-- R233: of the edges of a scan as many as its body has are taken in the Shift state. -/
theorem takenIn_scanTms (s : TapState) {p : ScanTarget} {n : Nat} {e : TapState} (hn : n ≠ 0)
    (he : legalEnd p e = true) : takenIn (shiftOf p) s (scanTms s p n e) = n := by
  unfold scanTms
  rw [takenIn_append, takenIn_append, tapRun_append, tapRun_tapPath, tapRun_bodyTms p hn, takenIn_approach,
    takenIn_bodyTms, takenIn_suffix he, Nat.zero_add, Nat.add_zero]

theorem recoveryEdges_length (eng : Engine) : (recoveryEdges eng).length = if eng.ctrl.stateKnown then 0 else 5 := by
  unfold recoveryEdges
  split <;> rfl

/-- Settles O40: the edges delivered are those of the command, and only its body is taken in the Shift state. -/
theorem scanEdgeCount : Obligations.ScanEdgeCount := by
  intro s t p d n e b out hr hl ht hres
  by_cases hd : d = .reserved
  · subst hd
    rw [exec_executeScan_reserved p n e b hr] at ht
    cases ht
    cases answer_results_inj hres
  rcases exec_executeScan_cases p n e b hr hd hl with
    ⟨out', g, h, ha, dr, hlen⟩ | ⟨k, h, -⟩ | ⟨k, g, h, -⟩ | ⟨x, h⟩ <;> rw [h] at ht <;> cases ht <;>
    cases answer_results_inj hres
  have hsl := (scanTdi_length (scanStart s.toEngine) p e hd ha.2.2.1).symm
  have hwire : wireEdges g.io = wireEdges s.io ++ scanCommandEdges s.toEngine p d n e b := dr.wire
  have hrec := recoveryEdges_length s.toEngine
  refine ⟨?_, ?_, hlen⟩
  · show (wireEdges g.io).length = _
    rw [hwire, scanCommandEdges, List.length_append, List.length_append, hrec, edgesOf_length, ← hsl, Nat.min_self,
      scanTms_length]
    omega
  · show takenIn _ _ (((wireEdges g.io).drop _).map _) = n
    rw [← hrec, hwire, List.drop_append, List.drop_of_length_le (by omega), Nat.add_sub_cancel_left, List.nil_append,
      scanCommandEdges, List.drop_left, edgesOf_tms hsl]
    exact takenIn_scanTms _ ha.1 ha.2.1

/-! ### The partition into transfers -/

theorem adjacent_mem {rs : List (Nat × Nat)} {lo hi : Nat} (h : Adjacent lo rs hi) {r : Nat × Nat} (hr : r ∈ rs) :
    lo ≤ r.1 ∧ r.1 < r.2 ∧ r.2 ≤ hi := by
  induction rs generalizing lo with
  | nil => cases hr
  | cons x rs ih =>
    obtain ⟨rfl, hx, hrest⟩ := h
    rcases List.mem_cons.mp hr with rfl | hr
    · exact ⟨le_refl _, hx, adjacent_le hrest⟩
    · obtain ⟨h1, h2, h3⟩ := ih hrest hr
      exact ⟨hx.le.trans h1, h2, h3⟩

/-- Ranges that lie one after another list every index once, in order. -/
theorem adjacent_indices {rs : List (Nat × Nat)} {lo hi : Nat} (h : Adjacent lo rs hi) :
    rs.flatMap (fun r => List.range' r.1 (r.2 - r.1)) = List.range' lo (hi - lo) := by
  induction rs generalizing lo with
  | nil =>
    obtain rfl : lo = hi := h
    rw [Nat.sub_self]
    rfl
  | cons x rs ih =>
    obtain ⟨a, b⟩ := x
    obtain ⟨rfl, hab, hrest⟩ := h
    have hb := adjacent_le hrest
    rw [List.flatMap_cons, ih hrest, show hi - a = (b - a) + (hi - b) by omega, ← List.range'_append_1,
      show a + (b - a) = b by omega]

/-- R227: how many ranges of at most `m` indices there are, and which. -/
theorem chunks_eq_map {m : Nat} (hm : 0 < m) {fuel lo hi : Nat} (hf : hi - lo ≤ fuel) :
    chunks m fuel lo hi =
      (List.range ((hi - lo + m - 1) / m)).map fun k => (lo + k * m, min (lo + (k + 1) * m) hi) := by
  have hnone : ∀ {l : Nat}, hi ≤ l → (hi - l + m - 1) / m = 0 := fun h => Nat.div_eq_of_lt (by omega)
  induction fuel generalizing lo with
  | zero => rw [hnone (by omega)]; rfl
  | succ f ih =>
    unfold chunks
    split
    next hlt =>
      have hcount : (hi - lo + m - 1) / m = (hi - (lo + m) + m - 1) / m + 1 := by
        by_cases hge : lo + m ≤ hi
        · rw [show hi - lo + m - 1 = hi - (lo + m) + m - 1 + m by omega, Nat.add_div_right _ hm]
        · rw [hnone (l := lo + m) (by omega), show hi - lo + m - 1 = hi - lo - 1 + m by omega, Nat.add_div_right _ hm,
            Nat.div_eq_of_lt (by omega)]
      rw [ih (by omega), hcount, List.range_succ_eq_map, List.map_cons, List.map_map, Nat.zero_mul, Nat.zero_add,
        Nat.one_mul, Nat.add_zero]
      refine congrArg _ (List.map_congr_left fun k _ => ?_)
      simp only [Function.comp_apply, Nat.succ_eq_add_one, Nat.add_mul, Nat.one_mul, Prod.mk.injEq]
      constructor
      · omega
      · congr 1
        omega
    next hge =>
      rw [hnone (by omega)]
      rfl

/-- R227: the body bits that are sent before the last transfer of a scan. -/
def bodyBefore (n s : Nat) : Option Nat → Nat
  | none => 0
  | some m => n - min n (m - s)

/-- R227: the transfers of a scan before its last one. -/
def transfersBefore (p n s : Nat) (limit : Option Nat) : List (Nat × Nat) :=
  (if p = 0 then [] else [(0, p)]) ++
    match limit with
    | none => []
    | some m => chunks m (bodyBefore n s limit) p (p + bodyBefore n s limit)

/-- R227: the rest of the scan in one transfer. -/
theorem partition_of_le {p n s m : Nat} (h : n + s ≤ m) :
    partition p n s (some m) = (if p = 0 then [] else [(0, p)]) ++ [(p, p + n + s)] :=
  congrArg (_ ++ ·) (if_pos h)

/-- R227: chunks of the body, and its last part with the suffix. -/
theorem partition_of_lt {p n s m : Nat} (h : m < n + s) :
    partition p n s (some m) = (if p = 0 then [] else [(0, p)]) ++
      (chunks m (n - min n (m - s)) p (p + (n - min n (m - s))) ++ [(p + (n - min n (m - s)), p + n + s)]) :=
  congrArg (_ ++ ·) (if_neg (Nat.not_le_of_lt h))

/-- R227: in each of its cases the partition ends with the rest of the body and the suffix. -/
theorem partition_eq (p n s : Nat) (limit : Option Nat) :
    partition p n s limit = transfersBefore p n s limit ++ [(p + bodyBefore n s limit, p + n + s)] := by
  unfold transfersBefore
  cases limit with
  | none => rw [List.append_nil]; rfl
  | some m =>
    dsimp only [bodyBefore]
    rw [List.append_assoc]
    rcases Nat.lt_or_ge m (n + s) with h | h
    · exact partition_of_lt h
    · have h0 : n - min n (m - s) = 0 := by omega
      rw [partition_of_le h, h0]
      rfl

/-- R227: a transfer before the last ends between the approach and the last transfer. -/
theorem transfersBefore_mem {p n s : Nat} {limit : Option Nat} (hl : ∀ m, limit = some m → 0 < m) {r : Nat × Nat}
    (hr : r ∈ transfersBefore p n s limit) : p ≤ r.2 ∧ r.2 ≤ p + bodyBefore n s limit := by
  unfold transfersBefore at hr
  rcases List.mem_append.mp hr with h | h
  · split at h
    · cases h
    · rw [List.mem_singleton.mp h]
      exact ⟨le_refl _, Nat.le_add_right _ _⟩
  · cases limit with
    | none => cases h
    | some m =>
      obtain ⟨h1, h2, h3⟩ := adjacent_mem (chunks_adjacent (hl m rfl) (by omega) (by omega)) h
      exact ⟨h1.trans h2.le, h3⟩

/-- R227: some of the body is left for the last transfer. -/
theorem bodyBefore_lt {n s : Nat} {limit : Option Nat} (hn : n ≠ 0) (hl : ∀ m, limit = some m → s < m) :
    bodyBefore n s limit < n := by
  cases limit with
  | none => exact Nat.pos_of_ne_zero hn
  | some m =>
    have := hl m rfl
    show n - min n (m - s) < n
    omega

/-- R224, R356: from the approach on until the last body edge the TAP is in the Shift state. -/
theorem tapRun_take_scanTms (st : TapState) {q : ScanTarget} {n : Nat} {e : TapState} {k : Nat}
    (h1 : (tapPath st (shiftOf q)).length ≤ k) (h2 : k < (tapPath st (shiftOf q)).length + n) :
    tapRun st ((scanTms st q n e).take k) = shiftOf q := by
  obtain ⟨j, rfl⟩ := Nat.exists_eq_add_of_le h1
  obtain ⟨m, rfl⟩ : ∃ m, n = m + 1 := ⟨n - 1, by omega⟩
  have htake : (bodyTms (m + 1) ++ tapPath (exit1Of q) e).take j = zeros j := by
    rw [bodyTms_succ, List.append_assoc, List.take_append_of_le_length (by rw [zeros_length]; omega)]
    exact (List.take_replicate ..).trans (by rw [Nat.min_eq_left (by omega)]; rfl)
  rw [scanTms, List.append_assoc, List.take_length_add_append, htake, tapRun_append, tapRun_tapPath,
    tapRun_shiftOf_zeros]

/-- Settles O41: the ranges lie one after another, all but the last end within the body, and each case of the rule is
read off the definition. -/
theorem partitionOfAScan : Obligations.PartitionOfAScan := by
  refine ⟨fun st q n e limit hn he hl => ?_, fun p n s => rfl, fun p n s m h => partition_of_le h,
    fun p n s m hm h => ?_⟩
  · obtain ⟨hs1, hs4⟩ := suffix_length he
    have hadj := partition_adjacent (p := (tapPath st (shiftOf q)).length) (n := n) (limit := limit) hs1
      (fun m h => (by decide : 1 ≤ 6).trans (hl m h))
    refine ⟨?_, fun r hr => ⟨(adjacent_mem hadj hr).2.1, ?_⟩, fun r hr => ?_⟩
    · rw [adjacent_indices hadj, Nat.sub_zero, List.range_eq_range']
    · exact overLimit_false.mp (partition_limit hl (tapPath_shiftOf_length_le st q) hs4 r hr)
    · rw [partition_eq, List.dropLast_concat] at hr
      obtain ⟨h1, h2⟩ := transfersBefore_mem (fun m h => (by decide : 0 < 6).trans_le (hl m h)) hr
      have h3 : bodyBefore n (tapPath (exit1Of q) e).length limit < n :=
        bodyBefore_lt hn fun m h => (Nat.lt_succ_of_le hs4).trans ((by decide : 5 < 6).trans_le (hl m h))
      have h4 : r.2 < (tapPath st (shiftOf q)).length + n := by omega
      exact ⟨h4, tapRun_take_scanTms st h1 h4⟩
  · rw [partition_of_lt h, chunks_eq_map hm (by omega), Nat.add_sub_cancel_left, List.append_assoc]
    simp only [Nat.add_min_add_left]

/-! ### The partition does not show -/

/-- R222, R223: the edges of a scan depend on the position alone. -/
theorem scanCommandEdges_congr {g g' : Engine} (hk : g'.ctrl.stateKnown = g.ctrl.stateKnown)
    (hc : g'.ctrl.currentState = g.ctrl.currentState) (p : ScanTarget) (d : Direction) (n : Nat) (e : TapState)
    (b : BitSeq) : scanCommandEdges g' p d n e b = scanCommandEdges g p d n e b := by
  unfold scanCommandEdges recoveryEdges scanStart
  rw [hk, hc]

/-- R226, R235: the bits captured depend on the position, the target and the draws to come. -/
theorem scanBits_congr {g g' : Engine} (hk : g'.ctrl.stateKnown = g.ctrl.stateKnown)
    (hc : g'.ctrl.currentState = g.ctrl.currentState) (hs : SamplesAs g'.io g.io) (p : ScanTarget) (d : Direction)
    (n : Nat) (e : TapState) (b : BitSeq) : scanBits g' p d n e b = scanBits g p d n e b := by
  unfold scanBits
  rw [scanCommandEdges_congr hk hc, (driveEdges_samples hs _).1]
  unfold recoveryEdges scanStart
  rw [hk, hc]

/-- R228, R272: on a consistent backend the refresh finds the end state. -/
theorem refreshed_scan {g : Engine} {p : ScanTarget} {d : Direction} {n : Nat} {e : TapState} {b : BitSeq}
    {io' : Interface} (hd : d ≠ .reserved) (ha : ScanAccepted g.io p d n e b) (hsync : Synced g)
    (dr : Drives (scanCommandEdges g p d n e b) g.io io') : refreshed io' e = e := by
  obtain ⟨hpos, hbook⟩ := hsync
  unfold refreshed
  split
  next hs =>
    rw [dr.spec] at hs
    rw [dr.book]
    exact scan_run hd ha fun hk => (hbook hs hk).trans (hpos hk).symm
  · rfl

/-- Settles O42: each scan completes with the edges and the bits of the whole sequence, which no limit enters. -/
theorem fragmentationInvariance : Obligations.FragmentationInvariance := by
  intro s s' p d n e b hr hr' hd ha ha' hf hf' hl hl' hsync hsync' hk hc ht hdrawn
  obtain ⟨io1, h1, d1⟩ := exec_executeScan_completes hr hd ha hf hl
  obtain ⟨io2, h2, d2⟩ := exec_executeScan_completes hr' hd ha' hf' hl'
  have hend : refreshed io1 e = e := refreshed_scan hd ha hsync d1
  have hend' : refreshed io2 e = e := refreshed_scan hd ha' hsync' d2
  rw [scanBits_congr (g := s.toEngine) hk hc ⟨ht, hdrawn⟩] at h2
  rw [scanCommandEdges_congr (g := s.toEngine) hk hc] at d2
  refine ⟨_, _, scanBits s.toEngine p d n e b, _, h1, h2, rfl, rfl, d1.wire, d2.wire, ?_, hend, hend'⟩
  exact d1.target.trans (ht ▸ d2.target).symm

end Sys2Proof.Machine
end

section
/-! SUPPORT. The six commands of the façade (R262 to R267), each as the frame answers it, and the reset that begins a
recovery (R277). -/

namespace Sys2Proof.Machine

/-! ### The refresh of a command that leaves nothing to refresh -/

/-- R272: no edge recorded, nothing refreshed, whatever else of the interface has changed. -/
theorem refresh_undriven {before after : Engine} (h : after.io.wire = before.io.wire) : refresh before after = after :=
  if_neg fun hdriven => hdriven.2 (by rw [wireEdges, wireEdges, h])

/-- R272: nor is a position that a backend with STATE agrees with. -/
theorem refresh_agreeing {before after : Engine}
    (h : hasCap after.io.backend.spec .state = true → after.io.backend.book = after.ctrl.currentState) :
    refresh before after = after := by
  by_cases hs : hasCap after.io.backend.spec .state = true
  · exact refresh_consistent (h hs)
  · exact if_neg fun hdriven => hs hdriven.1

/-- R261: a command whose body ends in a value and records no edge. -/
theorem command_undriven {body : Body Result} {s : State} {v : Result} {e : Engine} (hr : Ready s)
    (hb : body (grant s).toEngine = (.ok v, withLock (grantedLock s) e)) (hw : e.io.wire = s.io.wire) :
    command body s = .next (answer s e v) := by
  rw [command_ready hr, hb]
  exact finish_ok (refresh_undriven hw)

/-- R302: an operation of an absent capability. -/
theorem command_needCap_absent {c : Capability} {f : Unit → Body Result} {s : State} (hr : Ready s)
    (hc : hasCap s.io.backend.spec c = false) :
    command (andThen (needCap c) f) s = .next (answer s s.toEngine (.error .unsupportedOperation)) :=
  command_error (e := s.toEngine) hr (andThen_err (needCap_err (e := (grant s).toEngine) hc))

/-! ### `getFrequency` and `getState` -/

/-- R264: what `getState` answers. -/
def stateAnswer (c : Controller) : Result := if c.stateKnown then .tap c.currentState else .unknown

theorem exec_getFrequency {s : State} (hr : Ready s) :
    exec .getFrequency s = .next (answer s s.toEngine (.hz s.ctrl.frequencyHz)) :=
  command_value hr rfl rfl

theorem exec_getState {s : State} (hr : Ready s) :
    exec .getState s = .next (answer s s.toEngine (stateAnswer s.ctrl)) :=
  command_value hr rfl rfl

/-- R262, R264: a command that answered `r` and left the engine to its lock leaves both reads, by any caller, what they
were. -/
theorem reads_after_answer {s : State} (hr : Ready s) (r : Result) (c : CallerId) :
    exec .getFrequency { answer s s.toEngine r with caller := c, draw := .run } =
        .next (answer { answer s s.toEngine r with caller := c, draw := .run } s.toEngine (.hz s.ctrl.frequencyHz)) ∧
      exec .getState { answer s s.toEngine r with caller := c, draw := .run } =
        .next (answer { answer s s.toEngine r with caller := c, draw := .run } s.toEngine (stateAnswer s.ctrl)) := by
  have hready : Ready { answer s s.toEngine r with caller := c, draw := .run } := ⟨hr.1, rfl, .inl rfl⟩
  exact ⟨exec_getFrequency hready, exec_getState hready⟩

/-- Settles O43: each read answers what it reads, and leaves an engine that reads the same. -/
theorem readsAnswerTheCache : Obligations.ReadsAnswerTheCache := by
  intro s hr
  refine ⟨exec_getFrequency hr, exec_getState hr, fun t c ht => ?_⟩
  rcases ht with ht | ht
  · cases (exec_getFrequency hr).symm.trans ht
    exact reads_after_answer hr _ c
  · cases (exec_getState hr).symm.trans ht
    exact reads_after_answer hr _ c

/-! ### `setFrequency` -/

/-- R263, R189: the rate stored, with the half period of a bitbang backend. -/
theorem storeFrequency_eq (hz : Nat) (e : Engine) :
    storeFrequency hz e =
      { ctrl := { e.ctrl with frequencyHz := hz }
        io :=
          { e.io with
            backend :=
              { e.io.backend with
                halfPeriodNs :=
                  if e.io.backend.spec.variant = .bitbang then halfPeriodOf hz
                  else e.io.backend.halfPeriodNs } } } := by
  unfold storeFrequency
  cases hv : e.io.backend.spec.variant <;> rfl

/-- R263: past its checks `setFrequency` is the call of `freqSet` and the storing of what it achieved. -/
theorem setFrequencyBody_eq {hz : Nat} {e : Engine} (hc : hasCap e.io.backend.spec .freq = true) (hz0 : hz ≠ 0) :
    setFrequencyBody hz e =
      andThen (callBackend (freqSetPrim hz))
        (fun achieved => andThen (update (storeFrequency achieved)) fun _ => done .ack) e := by
  unfold setFrequencyBody
  rw [andThen_ok (needCap_ok hc), bne_iff_ne.mpr hz0]
  exact andThen_ok (check_true _ _)

/-- R263, R302: the checks of `setFrequency`. -/
theorem exec_setFrequency_unsupported {s : State} {hz : Nat} (hr : Ready s)
    (h : hasCap s.io.backend.spec .freq = false ∨ hz = 0) :
    exec (.setFrequency hz) s = .next (answer s s.toEngine (.error .unsupportedOperation)) := by
  cases hc : hasCap s.io.backend.spec .freq
  · exact command_needCap_absent hr hc
  · obtain rfl : hz = 0 := h.resolve_left (by simp [hc])
    exact (command_needCap hr hc).trans (command_error (e := s.toEngine) hr (andThen_err (check_false _ _)))

/-- R263: `setFrequency` where its call does not fail. -/
theorem exec_setFrequency_completes {s : State} {hz : Nat} (hr : Ready s) (hu : Usable s.io)
    (hc : hasCap s.io.backend.spec .freq = true) (hz0 : hz ≠ 0)
    (hn : freqFailure s.io.backend.spec.variant (nextOutcome s.io) = none) :
    exec (.setFrequency hz) s =
      .next (answer s
        (storeFrequency (Config.achievable s.io.backend.spec hz)
          { s.toEngine with
            io :=
              { s.io with
                outcomes := s.io.outcomes.tail
                backend := { s.io.backend with rate := Config.achievable s.io.backend.spec hz } } })
        .ack) := by
  rcases freqSetPrim_cases hz hu with ⟨-, h⟩ | ⟨k, hk, -⟩
  · have hbody := (setFrequencyBody_eq (e := (grant s).toEngine) hc hz0).trans (andThen_ok (callBackend_apply h))
    refine command_undriven hr (hbody.trans ?_) ?_
    · rw [andThen_ok (update_apply _ _), storeFrequency_eq, storeFrequency_eq]
      rfl
    · rw [storeFrequency_eq]
  · cases hn.symm.trans hk

/-- R263: `setFrequency` where its call fails. -/
theorem exec_setFrequency_fails {s : State} {hz : Nat} {k : ErrKind} (hr : Ready s) (hu : Usable s.io)
    (hc : hasCap s.io.backend.spec .freq = true) (hz0 : hz ≠ 0)
    (hk : freqFailure s.io.backend.spec.variant (nextOutcome s.io) = some k) :
    exec (.setFrequency hz) s =
      .next (answer s { s.toEngine with io := { s.io with outcomes := s.io.outcomes.tail } } (.error k)) := by
  rcases freqSetPrim_cases hz hu with ⟨hn, -⟩ | ⟨k', hk', h⟩
  · cases hn.symm.trans hk
  · cases hk.symm.trans hk'
    exact command_error hr
      ((setFrequencyBody_eq (e := (grant s).toEngine) hc hz0).trans (andThen_err (callBackend_apply h)))

/-- Settles O44: the checks, then the call of `freqSet` by its outcome. -/
theorem setFrequencyStoresTheAchievedRate : Obligations.SetFrequencyStoresTheAchievedRate := by
  intro s hz hr
  refine ⟨exec_setFrequency_unsupported hr, fun hu hc hz0 => ⟨fun h => ?_, fun ho hv => ?_, fun k ho => ?_⟩⟩
  · have hn : freqFailure s.io.backend.spec.variant (nextOutcome s.io) = none := by
      rcases h with hf | ⟨ho, hv⟩
      · rw [(noFailure_tail hf.2).1, freqFailure_none]
      · rw [ho, hv]
        rfl
    rw [exec_setFrequency_completes hr hu hc hz0 hn, storeFrequency_eq]
  · exact exec_setFrequency_fails hr hu hc hz0 (by rw [ho, freqFailure_refuses hv])
  · exact exec_setFrequency_fails hr hu hc hz0 (by rw [ho, freqFailure_fails])

/-! ### `setState` -/

/-- The edges of a `setState` (R265, R200), with data-in 0. -/
def setStateEdges (e : Engine) (target : TapState) (f : Bool) : List Edge :=
  edgesOf (setStateBits e target f) (zeros (setStateBits e target f).length)

/-- R265, R272: on a backend with STATE the bookkeeping is at the target too, so the refresh changes nothing. -/
theorem refresh_setState {before e : Engine} {target : TapState} {f : Bool} {io' : Interface}
    (dr : Drives (setStateEdges e target f) e.io io') :
    refresh before (setKnown target { e with io := io' }) = setKnown target { e with io := io' } := by
  refine refresh_agreeing fun hs => ?_
  rw [setKnown_io, dr.spec] at hs
  calc io'.backend.book = tapRun e.io.backend.book (setStateBits e target f) := by
        rw [dr.book, setStateEdges, edgesOf_tms (zeros_length _).symm]
    _ = target := setState_run fun _ => (if_pos hs).symm

/-- R261, R265: a `setState` whose body completes. -/
theorem exec_setState_ok {s : State} {target : TapState} {f : Bool} {io' : Interface} (hr : Ready s)
    (h : setStateBody target f (grant s).toEngine = (.ok .ack, setKnown target { (grant s).toEngine with io := io' }))
    (dr : Drives (setStateEdges s.toEngine target f) s.io io') :
    exec (.setState target f) s = .next (answer s (setKnown target { s.toEngine with io := io' }) .ack) := by
  refine (command_ready hr).trans ?_
  rw [h]
  exact finish_ok (refresh_setState (e := (grant s).toEngine) dr)

/-- Settles O45: the body completes, and the refresh finds the position at the target. -/
theorem setStateCompletes : Obligations.SetStateCompletes := by
  intro s target f hr hs hf hl
  obtain ⟨io', h, dr⟩ := setStateBody_completes f (e := (grant s).toEngine) hl hs hf
  exact ⟨io', exec_setState_ok hr h dr, dr⟩

/-- R265: the check of the target comes before all else. -/
theorem setStateBody_unstable {target : TapState} (f : Bool) (e : Engine) (hs : stable target = false) :
    setStateBody target f e = (.err .invalidArgument, e) := by
  unfold setStateBody
  rw [hs]
  rfl

/-- Settles O46: the check of the target, and of the ways a `setState` can end, those that answer an error. -/
theorem setStateFailures : Obligations.SetStateFailures := by
  refine ⟨fun s target f hr hs => command_error (e := s.toEngine) hr (setStateBody_unstable f _ hs),
    fun s t target f k hr hl hs ht hres => ?_⟩
  rcases setStateBody_cases f (e := (grant s).toEngine) hl hs with
    ⟨io', h, dr⟩ | ⟨k', pos, io', es, h, dr, hp⟩ | ⟨x, e', h⟩
  · cases (exec_setState_ok hr h dr).symm.trans ht
    cases answer_results_inj hres
  · cases (command_error (e := midway s.toEngine pos false io') hr h).symm.trans ht
    cases answer_results_inj hres
    exact ⟨pos, io', es, rfl, dr, hp⟩
  · have hstop : exec (.setState target f) s = .refused x := (command_ready hr).trans (by rw [h]; rfl)
    cases hstop.symm.trans ht

/-! ### `rawEdge` -/

/-- R267: the position follows the edge where it is known. -/
theorem trackEdge_eq (m : Bool) (e : Engine) :
    trackEdge m e =
      setCurrent (if e.ctrl.stateKnown then tapNext e.ctrl.currentState m else e.ctrl.currentState) e := by
  unfold trackEdge
  split <;> rfl

/-- Settles O47: the capability, and the two ends of the primitive by the outcome of its call. -/
theorem rawEdgeCompletes : Obligations.RawEdgeCompletes := by
  intro s m d hr
  refine ⟨command_needCap_absent hr, fun hc hf => ?_, fun k hu hc hk => ?_⟩
  · rcases rawEdgeBody_cases m d (e := (grant s).toEngine) hf.1 hc with ⟨io', -, h, dr⟩ | ⟨k, io', hk, -, -⟩
    · refine ⟨io', (command_ready hr).trans ?_, dr⟩
      rw [h, trackEdge_eq]
      exact finish_ok (refresh_driven (e := setCurrent _ { (grant s).toEngine with io := io' }) dr
        (List.cons_ne_nil _ _))
    · cases (noFailure_tail hf.2).1.symm.trans hk
  · rcases rawEdgeBody_cases m d (e := (grant s).toEngine) hu hc with ⟨io', hn, -, -⟩ | ⟨k', io', hk', h, dr⟩
    · exact absurd hk (hn k)
    · cases hk.symm.trans hk'
      exact ⟨io', command_error (e := clearKnown { s.toEngine with io := io' }) hr h, dr⟩

/-! ### Recovery -/

/-- R277: from an unknown position, a body that ends in a value has driven the hard reset first, and leaves the position
known. -/
def Recovers (body : Body Result) : Prop :=
  ∀ (e : Engine) (v : Result) (e' : Engine), e.ctrl.stateKnown = false → LimitOk e.io → body e = (.ok v, e') →
    e'.ctrl.stateKnown = true ∧ ∃ es, Drives (resetEdges ++ es) e.io e'.io

theorem recoveryEdges_unknown {e : Engine} (hk : e.ctrl.stateKnown = false) : recoveryEdges e = resetEdges :=
  if_neg (by rw [hk]; decide)

theorem setStateEdges_unknown {e : Engine} (target : TapState) (f : Bool) (hk : e.ctrl.stateKnown = false) :
    setStateEdges e target f =
      resetEdges ++ edgesOf (tapPath .reset target) (zeros (tapPath .reset target).length) := by
  have hbits : setStateBits e target f = ones Config.hardResetEdges ++ tapPath .reset target :=
    if_pos (by rw [hk, Bool.not_false, Bool.or_true])
  rw [setStateEdges, hbits, edgesOf_reset_path]

theorem recovers_setState (target : TapState) (f : Bool) : Recovers (setStateBody target f) := by
  intro e v e' hk hl h
  cases hs : stable target
  · cases (setStateBody_unstable f e hs).symm.trans h
  rcases setStateBody_cases f hl hs with ⟨io', h', dr⟩ | ⟨_, _, _, _, h', -⟩ | ⟨_, _, h'⟩ <;> cases h'.symm.trans h
  have dr : Drives (setStateEdges e target f) e.io io' := dr
  rw [setStateEdges_unknown target f hk] at dr
  exact ⟨rfl, _, dr⟩

theorem recovers_executeScan (p : ScanTarget) (d : Direction) (n : Nat) (t : TapState) (b : BitSeq) :
    Recovers (executeScanBody p d n t b) := by
  intro e v e' hk hl h
  by_cases hd : d = .reserved
  · subst hd
    cases h
  rw [executeScanBody_eq hd] at h
  rcases scanCore_cases p hd n t b e hl with ⟨out, io', -, dr, h', -⟩ | ⟨k, g, h', -⟩ | ⟨x, g, h'⟩
  · cases (andThen_ok h').symm.trans h
    rw [scanCommandEdges, recoveryEdges_unknown hk] at dr
    exact ⟨rfl, _, dr⟩
  · cases (andThen_err h').symm.trans h
  · cases (andThen_stop h').symm.trans h

/-- R146: the rounds and the recovery after them drive the recovery's edges first, whichever of the two it falls to. -/
theorem recovers_discoverIdentifiers : Recovers discoverIdentifiersBody := by
  intro e v e' hk hl h
  rcases discoverIdentifiersBody_cases hl with ⟨es, e1, e2, h', hdisc, hrec⟩ | ⟨_, _, h', -⟩ | ⟨_, _, h'⟩ <;>
    cases h'.symm.trans h
  have dr := drives_trans hdisc.drives hrec.drives
  rw [discovered_edges hdisc List.nodup_range, edgesToCome, recoveryEdges_unknown hk] at dr
  exact ⟨by rw [hrec.ctrl], _, dr⟩

theorem refresh_stateKnown (before after : Engine) :
    (refresh before after).ctrl.stateKnown = after.ctrl.stateKnown := by
  unfold refresh
  split <;> rfl

/-- R277: in the frame. -/
theorem command_recovers {body : Body Result} (hb : Recovers body) {s t : State} {r : Result} (hr : Ready s)
    (hk : s.ctrl.stateKnown = false) (hl : LimitOk s.io) (ht : command body s = .next t)
    (hres : t.results = s.results ++ [(s.caller, r)]) (hok : ∀ k, r ≠ .error k) :
    t.ctrl.stateKnown = true ∧ ∃ es, wireEdges t.io = wireEdges s.io ++ resetEdges ++ es := by
  rw [command_ready hr] at ht
  rcases h : body (grant s).toEngine with ⟨v | k | x, e⟩ <;> rw [h] at ht <;> cases ht
  · obtain ⟨hknown, es, dr⟩ := hb (grant s).toEngine v e hk hl h
    refine ⟨(refresh_stateKnown _ _).trans hknown, es, ?_⟩
    rw [release_io, List.append_assoc]
    exact (congrArg wireEdges (refresh_io _ _)).trans dr.wire
  · obtain rfl : .error k = r := by simpa using hres
    exact absurd rfl (hok k)

/-- Settles O55: each of the three bodies recovers first. -/
theorem recoveryBeginsWithReset : Obligations.RecoveryBeginsWithReset := by
  intro i s t r hr hk hl ht hres hok hi
  rcases hi with ⟨target, f, rfl⟩ | ⟨p, d, n, e, b, rfl⟩ | rfl
  · exact command_recovers (recovers_setState target f) hr hk hl ht hres hok
  · exact command_recovers (recovers_executeScan p d n e b) hr hk hl ht hres hok
  · exact command_recovers recovers_discoverIdentifiers hr hk hl ht hres hok

end Sys2Proof.Machine
end

section
/-! SUPPORT. The life cycle (R270, R271), the lock (R260, R261) and controllers beside each other (R273). -/

namespace Sys2Proof.Machine

/-! ### `attach` -/

/-- R270: the interface with a backend just bound, and enabled where it has ENABLE. -/
def boundInterface (b : BackendSpec) (io : Interface) : Interface :=
  if hasCap b .enable then
    { bindBackend b io with
      outcomes := io.outcomes.tail
      backend := { freshBackend b io.drawn with enabled := true } }
  else bindBackend b io

theorem enableIfAny_enable {b : BackendSpec} (io : Interface) (hc : hasCap b .enable = true) :
    enableIfAny b io = enablePrim io := by
  unfold enableIfAny
  rw [if_pos hc]

theorem enableIfAny_completes (b : BackendSpec) {io : Interface} (hf : NoFailure io) :
    enableIfAny b (bindBackend b io) = (.ok (), boundInterface b io) := by
  by_cases hc : hasCap b .enable = true
  · rw [enableIfAny_enable _ hc, enablePrim_completes (io := bindBackend b io) (noFailure_tail hf).1, boundInterface,
      if_pos hc]
    rfl
  · rw [enableIfAny, if_neg hc, boundInterface, if_neg hc]
    rfl

theorem boundInterface_enabled (b : BackendSpec) (io : Interface) :
    (boundInterface b io).backend.enabled = hasCap b .enable := by
  unfold boundInterface
  cases hasCap b .enable <;> rfl

/-- R270: what binding and enabling leave else: the backend is the one bound, no edge is driven, the target stays. -/
theorem boundInterface_fields (b : BackendSpec) (io : Interface) :
    (boundInterface b io).backend.spec = b ∧ (boundInterface b io).backend.rate = b.rate ∧
      (boundInterface b io).wire = io.wire ∧ (boundInterface b io).target = io.target := by
  unfold boundInterface
  split <;> exact ⟨rfl, rfl, rfl, rfl⟩

section
variable {layout : List Nat} {b : BackendSpec} {s : State} {io' : Interface}

/-- R270: past its two checks `attach` is the binding of the backend, which completes. -/
theorem exec_attach_ok (hm : maskAdmitted b.caps = true) (h0 : 0 ∉ layout)
    (h : enableIfAny b (bindBackend b s.io) = (.ok (), io')) :
    exec (.attach layout b) s =
      .next (complete .controller (setEngine (construct layout b (Config.freeTap (s.io.drawn + 1)) io') s)) := by
  show execAttach layout b s = _
  unfold execAttach
  rw [if_neg (by rw [hm]; decide), if_neg (by simpa using h0), h]

/-- R270: or ends in an error, and nothing is constructed. -/
theorem exec_attach_err {k : ErrKind} (hm : maskAdmitted b.caps = true) (h0 : 0 ∉ layout)
    (h : enableIfAny b (bindBackend b s.io) = (.err k, io')) :
    exec (.attach layout b) s = .next (answerUnlocked s { s.io with outcomes := io'.outcomes } (.error k)) := by
  show execAttach layout b s = _
  unfold execAttach
  rw [if_neg (by rw [hm]; decide), if_neg (by simpa using h0), h]
  rfl

/-- R270, R91: a zero in the layout of an admitted backend. -/
theorem exec_attach_zero (hm : maskAdmitted b.caps = true) (h0 : 0 ∈ layout) :
    exec (.attach layout b) s = .next (answerUnlocked s s.io (.error .invalidArgument)) := by
  show execAttach layout b s = _
  unfold execAttach
  rw [if_neg (by rw [hm]; decide), if_pos (by simpa using h0)]
  rfl

end

/-- Settles O48: the fields of the controller constructed and of the interface bound. -/
theorem attachConstructs : Obligations.AttachConstructs := by
  intro s layout b hm hn hf
  obtain ⟨hspec, hrate, hwire, htarget⟩ := boundInterface_fields b s.io
  have hhalf : b.variant = .bitbang → initialHalfPeriod b = halfPeriodOf (initialFrequencyOf b) := fun hv => by
    unfold initialHalfPeriod
    rw [hv]
  exact ⟨_, exec_attach_ok hm (fun h => hn 0 h rfl) (enableIfAny_completes b hf), rfl, chainOfLayout_irLength layout,
    chainOfLayout_idcode layout, (chainOfLayout_ok hn).1, rfl, rfl, rfl, rfl, rfl, hspec, hrate,
    boundInterface_enabled b s.io, hhalf, hwire, htarget⟩

/-- Settles O49: the two checks in their order, then the call of `enable`. -/
theorem attachRefusals : Obligations.AttachRefusals := by
  intro s layout b
  refine ⟨fun hm => if_pos hm, exec_attach_zero, fun k hm h0 hc hk => ?_⟩
  exact exec_attach_err hm h0 ((enableIfAny_enable _ hc).trans (enablePrim_fails (io := bindBackend b s.io) hk))

/-! ### `detach` -/

/-- R271: the dismissal answers each waiting caller, in the order in which they came (log entry 35). -/
theorem dismissWaiters_results (s : State) :
    (dismissWaiters s).results = s.results ++ s.ctrl.lock.waiters.map fun c => (c, .error .invalidArgument) :=
  dismiss_results _ s

theorem dismissWaiters_caller (s : State) : (dismissWaiters s).caller = s.caller := by
  have hdeliver : ∀ (w : List CallerId) (u : State),
      (w.foldl (fun t c => deliver c (.error .invalidArgument) t) u).caller = u.caller := by
    intro w
    induction w with
    | nil => exact fun _ => rfl
    | cons c w ih => exact fun u => ih (deliver c _ u)
  exact hdeliver _ s

/-- R271, R201: the interface after a `detach`. -/
theorem tearDown_io (e : Engine) :
    (tearDown e).io =
      { e.io with
        backend :=
          { e.io.backend with
            enabled := if hasCap e.io.backend.spec .enable then false else e.io.backend.enabled } } := by
  unfold tearDown
  dsimp only
  split <;> rfl

theorem exec_detach_idle {s : State} (ha : Attached s) (hi : s.ctrl.lock.phase = .idle) :
    exec .detach s =
      .next (complete .nothing
        (setEngine (tearDown (withLock { s.ctrl.lock with waiters := [] } s.toEngine)) (dismissWaiters s))) := by
  show execDetach s = _
  unfold execDetach
  rw [if_neg (by rw [ha]; decide), if_neg (by rw [hi]; decide)]
  dsimp only
  rw [dismissWaiters_toEngine]

/-- Settles O50: the waiters dismissed and the engine torn down, or the refusal. -/
theorem detachTearsDown : Obligations.DetachTearsDown := by
  intro s ha
  refine ⟨fun hi => ⟨_, exec_detach_idle ha hi, rfl, ?_, tearDown_io _⟩, fun hb => ?_⟩
  · rw [complete_results, setEngine_results, setEngine_caller, dismissWaiters_results, dismissWaiters_caller]
  · show execDetach s = _
    unfold execDetach
    rw [if_neg (by rw [ha]; decide), if_pos (by rw [hb]; decide)]

/-! ### The lock -/

/-- R260: a lock that another caller holds is neither idle nor the mover's. -/
theorem held_by_other {s : State} {c : CallerId} (hb : s.ctrl.lock.phase = .busy) (ho : s.ctrl.lock.owner = some c)
    (hc : c ≠ s.caller) : lockIdle s = false ∧ ownsLock s = false := by
  simp [lockIdle, ownsLock, hb, ho, hc]

/-- R260: the wait at a lock that another caller holds ends, or goes on. -/
theorem command_contended {body : Body Result} {s t : State} (ha : Attached s) (hi : lockIdle s = false)
    (ho : ownsLock s = false) (h : command body s = .next t) :
    (s.draw = .expire ∧ t = expireWait s) ∨ (s.draw ≠ .expire ∧ t = enqueue s) := by
  have hready : ¬Ready s := by simp [Ready, hi, ho]
  rcases command_cases h with ⟨hd, -⟩ | ⟨-, hown, -⟩ | ⟨-, -, hx, rfl⟩ | ⟨-, -, hx, rfl⟩ | ⟨-, hidle, -⟩ | ⟨hr, -⟩ |
      ⟨hr, -⟩
  · cases ha.symm.trans hd
  · cases ho.symm.trans hown
  · exact .inl ⟨hx, rfl⟩
  · exact .inr ⟨hx, rfl⟩
  · cases hi.symm.trans hidle
  · exact absurd hr hready
  · exact absurd hr hready

/-- R260: a bounded wait that ends, ends the command. -/
theorem command_expires {body : Body Result} {s : State} (ha : Attached s) (ho : ownsLock s = false)
    (hd : s.draw = .expire) : command body s = .next (expireWait s) := by
  unfold command
  rw [if_neg (by rw [ha]; decide), ho, hd]
  rfl

theorem expireWait_io (s : State) : (expireWait s).io = s.io := by
  unfold expireWait
  dsimp only
  split <;> rfl

/-- R260, R276: a wait that ends leaves the queue, and clears `stateKnown` only under `LOCK_TIMEOUT_CLEARS_STATE`. -/
theorem expireWait_ctrl (s : State) :
    (expireWait s).ctrl =
      { s.ctrl with
        stateKnown := s.ctrl.stateKnown && !s.lockTimeoutClears
        lock := { s.ctrl.lock with waiters := dropWaiter s.caller s.ctrl.lock.waiters } } := by
  unfold expireWait
  cases s.lockTimeoutClears
  · rw [Bool.not_false, Bool.and_true]
    rfl
  · rw [Bool.not_true, Bool.and_false]
    rfl

/-- Settles O53: a contended command is queued or its wait ends. -/
theorem lockContention : Obligations.LockContention := by
  refine ⟨fun i s t c hi ha hb ho hc ht => ?_, fun i s hi ha ho hd => ?_⟩ <;>
    obtain ⟨body, hexec, -⟩ := takesLock_command hi
  · rw [hexec] at ht
    obtain ⟨hidle, hown⟩ := held_by_other hb ho hc
    rcases command_contended ha hidle hown ht with ⟨hd, rfl⟩ | ⟨-, rfl⟩
    · rw [expireWait_ctrl]
      exact ⟨expireWait_io s, hb, ho, fun hne => absurd hd hne⟩
    · exact ⟨rfl, hb, ho, fun _ => ⟨rfl, rfl, mem_addWaiter.mpr (.inr rfl)⟩⟩
  · exact ⟨_, (hexec s).trans (command_expires ha ho hd), expireWait_results s, expireWait_io s, expireWait_ctrl s⟩

/-- R261: the end of a command whose body left the lock alone: the lock released, one result delivered. -/
theorem finishCommand_releases {s t : State} {r : Ret Result × Engine} (hl : r.2.ctrl.lock = grantedLock s)
    (h : finishCommand (grant s) r = .next t) :
    t.ctrl.lock = { phase := .idle, owner := none, waiters := dropWaiter s.caller s.ctrl.lock.waiters } ∧
      ∃ v, t.results = s.results ++ [(s.caller, v)] ∧ t.inbox = s.inbox.eraseP fun q => q.caller == s.caller := by
  rcases r with ⟨v | k | x, e⟩ <;> cases h
  · refine ⟨?_, v, rfl, rfl⟩
    rw [release_ctrl_lock, setEngine_toEngine, refresh_lock, hl]
    rfl
  · refine ⟨?_, .error k, rfl, rfl⟩
    rw [release_ctrl_lock, setEngine_toEngine, hl]
    rfl

/-- Settles O54: no body touches the lock, and the frame releases it as it answers. -/
theorem commandsReleaseTheLock : Obligations.CommandsReleaseTheLock := by
  intro i s t hi hr ht
  obtain ⟨body, hexec, hkeeps⟩ := takesLock_command hi
  rw [hexec, command_ready hr] at ht
  exact finishCommand_releases (hkeeps _ (lock_closed (grantedLock s)) (grant s).toEngine rfl) ht

/-! ### Controllers beside each other -/

/-- R66: the state of one machine after its step; a machine that stops keeps its state. -/
def stepped (s : State) : State :=
  match step s with
  | .next s' => s'
  | _ => s

theorem stepped_eq {s s' : State} (h : step s = .next s') : stepped s = s' := by
  unfold stepped
  rw [h]

/-- R66: a step of one machine of a fleet changes the state of that machine. -/
theorem stepAt_fleet (i : Nat) (f : Fleet) : (stepAt i f).1 = f.modify i stepped := by
  unfold stepAt
  rcases hi : f[i]? with _ | s
  · exact (List.modify_eq_self (List.getElem?_eq_none_iff.mp hi)).symm
  obtain ⟨hlt, hs⟩ := List.getElem?_eq_some_iff.mp hi
  have hset : f.modify i stepped = f.set i (stepped s) := by
    have : Inhabited State := ⟨s⟩
    rw [List.modify_eq_set, hi, Option.getD_some]
  have hkept : f = f.set i s := by rw [← hs, List.set_getElem_self]
  rw [hset, stepped]
  dsimp only
  rcases step s with s' | _ | _
  · rfl
  · exact hkept
  · exact hkept

theorem stepAt_other {i j : Nat} (f : Fleet) (h : i ≠ j) : (stepAt i f).1[j]? = f[j]? := by
  rw [stepAt_fleet, List.getElem?_modify_ne _ _ h]

theorem stepAt_self {i : Nat} {f : Fleet} {s s' : State} (hs : f[i]? = some s) (h : step s = .next s') :
    (stepAt i f).1[i]? = some s' := by
  rw [stepAt_fleet, List.getElem?_modify_eq, hs, Option.map_eq_map, Option.map_some, stepped_eq h]

/-- R260: an idle lock is granted to a caller that will hold it. -/
theorem command_holds {body : Body Result} {s : State} (ha : s.ctrl.attached = true) (hi : lockIdle s = true)
    (hd : s.draw = .hold) : command body s = .next (grant s) := by
  have ho : ownsLock s = false := by
    have hphase : s.ctrl.lock.phase = .idle := by simpa [lockIdle] using hi
    simp [ownsLock, hphase]
  unfold command
  rw [if_neg (by rw [ha]; decide), ho, hd, hi]
  rfl

/-- The machine after the turn that lets caller `c` obtain the lock and hold it. -/
def holding (c : CallerId) (s : State) : State :=
  grant { s with turns := s.turns.tail, caller := c, draw := .hold }

/-- R260, R318: that turn grants the lock. -/
theorem step_starts {c : CallerId} {s : State} (h : Starts c s) : step s = .next (holding c s) := by
  obtain ⟨ha, hi, ts, q, i, hturns, hq, hdecode, htakes⟩ := h
  obtain ⟨body, hexec, -⟩ := takesLock_command htakes
  rw [step_exec (fetch_move hturns hq) hdecode, hexec, holding, hturns]
  exact command_holds ha hi rfl

/-- R25, R59: the caller then holds the lock, with its command still in flight. -/
theorem holds_holding {c : CallerId} {s : State} (h : Starts c s) : Holds c (holding c s) := by
  obtain ⟨-, -, -, q, -, -, hq, -⟩ := h
  exact ⟨rfl, rfl, q, hq⟩

/-- R261: the holder's next turn to run releases the lock and answers it. -/
theorem step_holding {c : CallerId} {s t : State} {rest : List Turn} (h : Starts c s)
    (hturns : s.turns = .move c .hold :: .move c .run :: rest) (ht : step (holding c s) = .next t) :
    t.ctrl.lock.phase = .idle ∧ t.ctrl.lock.owner = none ∧ ∃ r, t.results = s.results ++ [(c, r)] := by
  obtain ⟨ha, -, -, q, i, -, hq, hdecode, htakes⟩ := h
  have hmove : (holding c s).turns = .move c .run :: rest := by rw [holding, grant_turns, hturns, List.tail_cons]
  have hrequest : requestOf c (holding c s) = some q := hq
  rw [step_exec (fetch_move hmove hrequest) hdecode] at ht
  have hready : Ready { holding c s with turns := rest, caller := c, draw := .run } :=
    ⟨ha, rfl, .inr (by simp [ownsLock, holding])⟩
  obtain ⟨hlock, r, hresults, -⟩ := commandsReleaseTheLock i _ t htakes hready ht
  rw [hlock]
  exact ⟨rfl, rfl, r, hresults⟩

/-- Settles O56: a step touches one machine of the fleet, so what a machine does in it is what it does alone. -/
theorem controllersAreIndependent : Obligations.ControllersAreIndependent := by
  intro i j f hij
  refine ⟨⟨stepAt_other f hij, ?_⟩, fun a b c d rest hfa hfb hsa hsb hturns => ?_⟩
  · simp only [stepAt_fleet]
    exact List.modify_modify_ne _ _ f hij
  have hgrantA : (stepAt i f).1[i]? = some (holding c a) := stepAt_self hfa (step_starts hsa)
  have hbefore : (stepAt i f).1[j]? = some b := (stepAt_other f hij).trans hfb
  have hi : (stepAt j (stepAt i f).1).1[i]? = some (holding c a) := (stepAt_other _ hij.symm).trans hgrantA
  have hj : (stepAt j (stepAt i f).1).1[j]? = some (holding d b) := stepAt_self hbefore (step_starts hsb)
  refine ⟨_, _, hi, hj, holds_holding hsa, holds_holding hsb, rfl, rfl, fun t ht => ?_⟩
  obtain ⟨hphase, howner, hresults⟩ := step_holding hsa hturns ht
  exact ⟨hphase, howner, hresults, stepAt_self hi ht, (stepAt_other _ hij).trans hj⟩

end Sys2Proof.Machine
end

section
/-! SUPPORT. The optional primitives issued bare on a backend without their capability (R300, R302; log entry 13). -/

namespace Sys2Proof.Machine

/-- Log entry 13: `FREQ_SET` fails the check of its capability, or past it the check of its rate. -/
theorem exec_freqSet_unsupported {s : State} {hz : Nat} (hr : Ready s)
    (h : hasCap s.io.backend.spec .freq = false ∨ hz = 0) :
    exec (.freqSet hz) s = .next (answer s s.toEngine (.error .unsupportedOperation)) := by
  cases hc : hasCap s.io.backend.spec .freq with
  | false => exact command_needCap_absent hr hc
  | true =>
    obtain rfl : hz = 0 := h.resolve_left (by simp [hc])
    have hrate : exec (.freqSet 0) s = command (andThen (check false .unsupportedOperation) _) s := command_needCap hr hc
    exact hrate.trans (command_error (e := s.toEngine) hr (andThen_err (check_false _ _)))

/-- Settles O32: each of the seven operations begins with the check of its capability, and `FREQ_SET` then checks its
rate. -/
theorem absentCapabilityIsUnsupported : Obligations.AbsentCapabilityIsUnsupported := by
  intro s hr
  refine ⟨fun hedge m d => ?edge, fun hfreq => ⟨?freqGet, fun hz => ?freqSet⟩,
    fun hstate => ⟨?stateGet, fun target f => ?stateSet⟩, fun henable => ⟨?enable, ?disable⟩, ?zeroRate⟩
  case edge => exact command_needCap_absent hr hedge
  case freqGet => exact command_needCap_absent hr hfreq
  case freqSet => exact exec_freqSet_unsupported hr (.inl hfreq)
  case stateGet => exact command_needCap_absent hr hstate
  case stateSet => exact command_needCap_absent hr hstate
  case enable => exact command_needCap_absent hr henable
  case disable => exact command_needCap_absent hr henable
  case zeroRate => exact exec_freqSet_unsupported hr (.inr rfl)

end Sys2Proof.Machine
end

section
/-! SUPPORT. What navigation passes through (R350), and the steps that fetch no record (R310, R340). -/

namespace Sys2Proof.Machine

/-! ### Leaving a segment -/

/-- R110, R350: an edge from a path's segment stays in it or leads to the path's Update state. -/
theorem tapNext_mem_segment_or_eq_updateOf (p : ScanTarget) :
    ∀ s ∈ segment p, ∀ b : Bool, tapNext s b ∈ segment p ∨ tapNext s b = updateOf p := by
  cases p with
  | data => decide
  | instruction => decide

/-- Settles O6, by induction on the bits: the first edge stays in the segment or leads to the Update state. -/
theorem navigationPassesUpdate : Obligations.NavigationPassesUpdate := by
  intro p s bits hs hrun
  induction bits generalizing s with
  | nil => exact absurd hs hrun
  | cons b rest ih =>
    obtain hstay | hupdate := tapNext_mem_segment_or_eq_updateOf p s hs b
    · obtain ⟨n, hn, hpass⟩ := ih (tapNext s b) hstay hrun
      exact ⟨n + 1, Nat.succ_le_succ hn, hpass⟩
    · exact ⟨1, Nat.succ_le_succ (Nat.zero_le _), hupdate⟩

/-! ### Steps without a record -/

/-- R340: an empty inbox holds no command of any caller. -/
theorem requestOf_eq_none {s : State} (h : s.inbox = []) (c : CallerId) : requestOf c s = none := by
  rw [requestOf, h, List.find?_nil]

/-- R340: with an empty inbox no command moves by default. -/
theorem defaultRequest_eq_none {s : State} (h : s.inbox = []) : defaultRequest s = none := by
  unfold defaultRequest
  split
  · rw [requestOf_eq_none h, h, List.head?_nil]
  · rw [h, List.head?_nil]

/-- R340: with an empty inbox nothing is fetched, whoever's turn it is. -/
theorem fetch_of_inbox_nil {s : State} (h : s.inbox = []) : fetch s = (none, dropTurn s) := by
  unfold fetch
  split
  case h_1 hturns =>
    have hdrop : dropTurn s = s := by rw [dropTurn, hturns, List.tail_nil, ← hturns]
    rw [defaultRequest_eq_none h, hdrop]
  case h_2 => rfl
  case h_3 c _ _ _ => rw [requestOf_eq_none h c]

/-- R310: a late completion fetches nothing. -/
theorem fetch_lateCompletion {s : State} {ts : List Turn} (h : s.turns = .lateCompletion :: ts) :
    fetch s = (none, dropTurn s) := by
  rw [fetch, h]

/-- R17, R340: a step that fetches no record only leaves the state of the fetch. -/
theorem step_of_fetch_none {s s' : State} (h : fetch s = (none, s')) : step s = .next s' := by
  rw [step, h]

/-- Settles O12: neither an empty inbox nor a late completion gives the step a record to run. -/
theorem idleStepsChangeNothing : Obligations.IdleStepsChangeNothing := by
  refine ⟨fun s hinbox => step_of_fetch_none (fetch_of_inbox_nil hinbox), fun s ts hturns => ?late⟩
  case late => rw [step_of_fetch_none (fetch_lateCompletion hturns), dropTurn, hturns, List.tail_cons]

end Sys2Proof.Machine
end
